-- ==== Sys2Proof/Word.lean ====
section
/-! DEFINITION. The word types of the GIF decoder core: bytes, stream fields, codes and symbols (00_scope R6). -/

namespace Sys2Proof

/-- u8. -/
abbrev Byte := BitVec 8

/-- u16: canvas dimensions and the image rectangle. -/
abbrev Half := BitVec 16

/-- u32: cursor, lengths, counts, delays, host register words. -/
abbrev Word := BitVec 32

/-- One LZW code, at most 12 bits wide (42_lzw R189.4). -/
abbrev Code := BitVec 12

/-- One symbol of the index stream, 11 bits (10_state R34, R35). -/
abbrev Sym := BitVec 11

end Sys2Proof
end

