-- ==== Sys2Proof/Config.lean ====
section
/-! DEFINITION. What an instance of the block fixes (00_scope R5) and the values the spec leaves free. -/

namespace Sys2Proof

/-- `DELAY_SCALE`, ms per stored delay unit: 10, or 100 to match DOC0 §3's literal (R5, conflict C1, decision D14). -/
inductive DelayScale where
  | tenMs
  | hundredMs
  deriving DecidableEq, Repr

/-- `RESERVED_DISPOSAL_POLICY` (R5, decision D15). -/
inductive ReservedDisposalPolicy where
  | fault
  | asNoAction
  deriving DecidableEq, Repr

/-- The parameters of R5 that are open. DESIGN CHOICE: they stand in State as a record no step changes, so that a claim
about every state is a claim about every instance (log 10). -/
structure Config where
  delayScale : DelayScale
  /-- `MAX_CANVAS_PIXELS` (decision D33). -/
  maxCanvasPixels : Nat
  reservedDisposal : ReservedDisposalPolicy
  /-- `FRAME_CAPACITY`; `none` is unbounded (decision D33). -/
  frameCapacity : Option Nat
  /-- `TAGLOG_CAPACITY`; `none` is unbounded (decision D38). -/
  tagLogCapacity : Option Nat
  deriving DecidableEq, Repr

/-- The defaults of R5. -/
def Config.default : Config where
  delayScale := .tenMs
  maxCanvasPixels := 65535 * 65535
  reservedDisposal := .fault
  frameCapacity := none
  tagLogCapacity := none

/-- FREE VALUE. What byte `a` of `SRC` holds after the `epoch`-th hardware reset while the host has not written it:
"The contents of `SRC` are unspecified after reset. A model treats them as a free draw." (70_reset R270; log 5). -/
opaque Config.powerOnSrcByte (epoch a : Nat) : Byte

/-- FREE VALUE. The word the `n`-th host read with no defined value returns (10_state R49, decision D37; log 6). -/
opaque Config.undefinedRead (n : Nat) : Word

end Sys2Proof
end

