-- ==== Sys2Proof/Syntax.lean ====
section
/-! DEFINITION. The instruction set: one constructor for each row of spec/opcode_table.json, in the table's order, and the four
fetch formats of 30_encoding R103. -/

namespace Sys2Proof

/-- The registers an LZW code is classified against (30_encoding R100). -/
structure LzwCtx where
  /-- `CLEAR_CODE` -/
  clear : Nat
  /-- `EOI_CODE` -/
  eoi : Nat
  /-- `NEXT_CODE` -/
  next : Nat
  /-- `PREV_CODE` -/
  prev : Option Code
  /-- `CODE_SIZE` -/
  size : Nat
  deriving DecidableEq, Repr

/-- The formats of 30_encoding R103: a tag byte, a tag and a label, an LZW code read in a context, a disposal field. -/
inductive Format where
  | tag8
  | ext16
  | lzwCode (k : LzwCtx)
  | disposal3
  deriving DecidableEq, Repr

/-- The instructions. Bytes that follow a tag or a label (descriptor, palettes, sub-blocks, GCE payload) are operands the
meaning reads from `SRC`, as the spec's pseudocode does; what the match itself leaves open is an argument here. -/
inductive Instr where
  /-- tag 0x2C (41_block_walker R139) -/
  | image
  /-- tag 0x21 (R140) -/
  | extension
  /-- tag 0x3B (R146) -/
  | trailer
  /-- any other tag byte (R147) -/
  | tagUnknown (tag : Byte)
  /-- 0x21 0xF9 (R141) -/
  | gce
  /-- 0x21 0xFF (R142) -/
  | app
  /-- 0x21 0xFE (R143) -/
  | comment
  /-- 0x21 0x01 (R144) -/
  | plainText
  /-- 0x21 and any other label (R145) -/
  | extUnknown (label : Byte)
  /-- c > NEXT_CODE (42_lzw R175) -/
  | invalid (c : Code)
  /-- c = EOI_CODE (R176) -/
  | eoi
  /-- c = CLEAR_CODE (R177) -/
  | clear
  /-- PREV_CODE = none and c < CLEAR_CODE (R178) -/
  | first (c : Code)
  /-- PREV_CODE = none and c ≥ CLEAR_CODE (R179) -/
  | firstNonliteral (c : Code)
  /-- PREV_CODE = some pc and c < CLEAR_CODE (R180) -/
  | literal (c : Code)
  /-- PREV_CODE = some pc and CLEAR_CODE + 2 ≤ c < NEXT_CODE (R181) -/
  | table (c : Code)
  /-- PREV_CODE = some pc and c = NEXT_CODE (R182) -/
  | kwkwk (c : Code)
  /-- disposal 0 (43_compositor R217) -/
  | disposeNone
  /-- disposal 1 (R217) -/
  | disposeKeep
  /-- disposal 2 (R218) -/
  | disposeBackground
  /-- disposal 3 (R219) -/
  | disposePrevious
  /-- disposal 4..7 (R220) -/
  | disposeReserved (v : BitVec 3)
  deriving DecidableEq, Repr

/-- The format an instruction is fetched in; `k` is the context of an LZW code. -/
def Instr.format (k : LzwCtx) : Instr → Format
  | .image | .extension | .trailer | .tagUnknown _ => .tag8
  | .gce | .app | .comment | .plainText | .extUnknown _ => .ext16
  | .invalid _ | .eoi | .clear | .first _ | .firstNonliteral _ | .literal _ | .table _ | .kwkwk _ => .lzwCode k
  | .disposeNone | .disposeKeep | .disposeBackground | .disposePrevious | .disposeReserved _ => .disposal3

end Sys2Proof
end

