-- ==== Sys2Proof/WellFormed.lean ====
section
/-! DEFINITION. Which instruction terms the encodings of 30_encoding can spell. -/

namespace Sys2Proof

/-- Well-formed on its own: a catch-all row excludes what a more specific row matches (R85, R90, R101, R103), a literal code is
below the largest `CLEAR_CODE` 2048, and any other code of a class is at least the smallest `CLEAR_CODE + 2` = 6 (R100,
decision D22). -/
def Instr.wf : Instr → Bool
  | .image | .extension | .trailer => true
  | .tagUnknown t => t != 0x2C#8 && t != 0x21#8 && t != 0x3B#8
  | .gce | .app | .comment | .plainText => true
  | .extUnknown l => l != 0xF9#8 && l != 0xFF#8 && l != 0xFE#8 && l != 0x01#8
  | .invalid c => decide (6 < c.toNat)
  | .eoi | .clear => true
  | .first c => decide (c.toNat < 2048)
  | .firstNonliteral c => decide (6 ≤ c.toNat)
  | .literal c => decide (c.toNat < 2048)
  | .table c => decide (6 ≤ c.toNat)
  | .kwkwk c => decide (6 ≤ c.toNat)
  | .disposeNone | .disposeKeep | .disposeBackground | .disposePrevious => true
  | .disposeReserved v => decide (4 ≤ v.toNat)

/-- The contexts an image block's decode reaches between codes (42_lzw R189.1-3, and that `PREV_CODE` is `none` only while
`NEXT_CODE` is `CLEAR_CODE + 2`). -/
def LzwCtx.wf (k : LzwCtx) : Bool :=
  decide (4 ≤ k.clear) && decide (k.clear ≤ 2048) && decide (k.eoi = k.clear + 1) && decide (k.clear + 2 ≤ k.next)
    && decide (k.next ≤ 2 ^ k.size) && decide (k.size ≤ 12) && (k.prev.isSome || decide (k.next = k.clear + 2))

/-- The class condition of R100 for an LZW code read in context `k`, the code fitting its width; every other instruction is in
class in every context. -/
def Instr.inClass (k : LzwCtx) : Instr → Bool
  | .invalid c => decide (k.next < c.toNat) && decide (c.toNat < 2 ^ k.size)
  | .first c => k.prev.isNone && decide (c.toNat < k.clear)
  | .firstNonliteral c => k.prev.isNone && decide (c.toNat = k.next) && decide (c.toNat < 2 ^ k.size)
  | .literal c => k.prev.isSome && decide (c.toNat < k.clear)
  | .table c => k.prev.isSome && decide (k.clear + 2 ≤ c.toNat) && decide (c.toNat < k.next)
  | .kwkwk c => k.prev.isSome && decide (c.toNat = k.next) && decide (c.toNat < 2 ^ k.size)
  | .image | .extension | .trailer | .tagUnknown _ | .gce | .app | .comment | .plainText | .extUnknown _ | .eoi | .clear
  | .disposeNone | .disposeKeep | .disposeBackground | .disposePrevious | .disposeReserved _ => true

end Sys2Proof
end

