-- ==== Sys2Proof/Decode.lean ====
section
/-! DEFINITION. The decoder (total; it rejects by name), the encoder written from the same tables of 30_encoding, and the stream
notation of R102. -/

namespace Sys2Proof

/-- Why a word spells no instruction. -/
inductive DecodeError where
  /-- there are fewer bytes than the format needs -/
  | endOfBytes
  /-- the word has more bits than the format -/
  | wordTooWide
  /-- an `ext16` word whose high byte is not the tag 0x21 (R90) -/
  | notAnExtension
  /-- no class of R100 takes the code (in no context that satisfies `LzwCtx.wf`) -/
  | noLzwClass
  deriving DecidableEq, Repr

/-- 30_encoding R85: the tag byte selects the block. -/
def decodeTag (t : Byte) : Instr :=
  if t = 0x2C#8 then .image
  else if t = 0x21#8 then .extension
  else if t = 0x3B#8 then .trailer
  else .tagUnknown t

/-- R90: the label byte selects the extension. -/
def decodeLabel (l : Byte) : Instr :=
  if l = 0xF9#8 then .gce
  else if l = 0xFF#8 then .app
  else if l = 0xFE#8 then .comment
  else if l = 0x01#8 then .plainText
  else .extUnknown l

/-- R100: the classes are tested in the order of the table; the first match wins. -/
def classifyCode (k : LzwCtx) (c : Code) : Except DecodeError Instr :=
  if k.next < c.toNat then .ok (.invalid c)
  else if c.toNat = k.eoi then .ok .eoi
  else if c.toNat = k.clear then .ok .clear
  else if k.prev = none ∧ c.toNat < k.clear then .ok (.first c)
  else if k.prev = none then .ok (.firstNonliteral c)
  else if c.toNat < k.clear then .ok (.literal c)
  else if k.clear + 2 ≤ c.toNat ∧ c.toNat < k.next then .ok (.table c)
  else if c.toNat = k.next then .ok (.kwkwk c)
  else .error .noLzwClass

/-- R101: the 3-bit disposal field. -/
def decodeDisposal (v : BitVec 3) : Instr :=
  if v = 0#3 then .disposeNone
  else if v = 1#3 then .disposeKeep
  else if v = 2#3 then .disposeBackground
  else if v = 3#3 then .disposePrevious
  else .disposeReserved v

/-- The decoder, on the word of a format: the tag byte; the tag and label as one 16-bit number, tag high (R103); the code; the
disposal field. -/
def decode : Format → Nat → Except DecodeError Instr
  | .tag8, w => if w < 2 ^ 8 then .ok (decodeTag (BitVec.ofNat 8 w)) else .error .wordTooWide
  | .ext16, w =>
    if 2 ^ 16 ≤ w then .error .wordTooWide
    else if w / 2 ^ 8 = 0x21 then .ok (decodeLabel (BitVec.ofNat 8 w))
    else .error .notAnExtension
  | .lzwCode k, w =>
    if w < 2 ^ k.size ∧ w < 2 ^ 12 then classifyCode k (BitVec.ofNat 12 w) else .error .wordTooWide
  | .disposal3, w => if w < 2 ^ 3 then .ok (decodeDisposal (BitVec.ofNat 3 w)) else .error .wordTooWide

/-- Bytes as one number, the earlier byte in the lower bits (20_memory R62, 42_lzw R172). -/
def leNat : List Byte → Nat
  | [] => 0
  | b :: r => b.toNat + 2 ^ 8 * leNat r

/-- The word of a format at the head of a byte list, and the bytes after it. An LZW code takes the low `CODE_SIZE` bits; its
rest is not byte aligned and is left to `readCode`, so the whole list is answered. -/
def takeWord : Format → List Byte → Except DecodeError (Nat × List Byte)
  | .tag8, b :: r => .ok (b.toNat, r)
  | .ext16, t :: l :: r => .ok (t.toNat * 2 ^ 8 + l.toNat, r)
  | .disposal3, b :: r => .ok (b.toNat, r)
  | .lzwCode k, bs => if k.size ≤ 8 * bs.length then .ok (leNat bs % 2 ^ k.size, bs) else .error .endOfBytes
  | .tag8, [] | .ext16, [] | .ext16, [_] | .disposal3, [] => .error .endOfBytes

/-- The decoder on any bytes. -/
def decodeBytes (f : Format) (bs : List Byte) : Except DecodeError (Instr × List Byte) :=
  match takeWord f bs with
  | .error e => .error e
  | .ok (w, rest) =>
    match decode f w with
    | .error e => .error e
    | .ok i => .ok (i, rest)

/-- The format a table word is read in: 16 bits are a tag and a label (tag high, R103); 8 bits below 8 are the disposal field
(R101), whose 3 bits are one whole byte, and any other 8 bits a tag. DESIGN CHOICE: log 14. -/
def tableFormat (nbits w : Nat) : Option Format :=
  if nbits = 16 then some .ext16
  else if nbits = 8 then (if w < 8 then some .disposal3 else some .tag8)
  else none

/-- A table word as the hardware stores it: the 16-bit word of `ext16` has the tag, its high byte, at the lower offset. -/
def tableBytes (nbits w : Nat) : List Byte :=
  if nbits = 16 then [BitVec.ofNat 8 (w / 2 ^ 8), BitVec.ofNat 8 w] else [BitVec.ofNat 8 w]

/-- What the decoder reads from a table word. -/
def decodeTableWord (nbits w : Nat) : Option Instr :=
  match tableFormat nbits w with
  | none => none
  | some f =>
    match decodeBytes f (tableBytes nbits w) with
    | .ok (i, _) => some i
    | .error _ => none

/-! ## The encoder -/

/-- The word of an instruction in its format; an LZW code in context `k`. -/
def encode (k : LzwCtx) : Instr → Nat
  | .image => 0x2C
  | .extension => 0x21
  | .trailer => 0x3B
  | .tagUnknown t => t.toNat
  | .gce => 0x21F9
  | .app => 0x21FF
  | .comment => 0x21FE
  | .plainText => 0x2101
  | .extUnknown l => 0x2100 + l.toNat
  | .invalid c => c.toNat
  | .eoi => k.eoi
  | .clear => k.clear
  | .first c => c.toNat
  | .firstNonliteral c => c.toNat
  | .literal c => c.toNat
  | .table c => c.toNat
  | .kwkwk c => c.toNat
  | .disposeNone => 0
  | .disposeKeep => 1
  | .disposeBackground => 2
  | .disposePrevious => 3
  | .disposeReserved v => v.toNat

/-- How many bits the word of a format has (R103). -/
def Format.bits : Format → Nat
  | .tag8 => 8
  | .ext16 => 16
  | .lzwCode k => k.size
  | .disposal3 => 3

/-! ## Stream notation (R102) -/

/-- A u16 field, little-endian (20_memory R62). -/
def encodeU16 (v : Half) : List Byte := [v.setWidth 8, (v >>> 8).setWidth 8]

/-- A sub-block chain: each chunk preceded by its length byte, then the terminator 00 (R89). A chain the format admits has chunks
of 1 to 255 bytes. -/
def encodeChain : List (List Byte) → List Byte
  | [] => [0#8]
  | c :: r => BitVec.ofNat 8 c.length :: (c ++ encodeChain r)

/-- Cut data into chunks of 255 bytes and a shorter last one; `fuel` is at least the number of bytes. -/
def cutChunks : Nat → List Byte → List (List Byte)
  | 0, _ => []
  | _ + 1, [] => []
  | fuel + 1, b :: r => (b :: r).take 255 :: cutChunks fuel ((b :: r).drop 255)

/-- `SUBBLOCKS(data)` (R102). -/
def encodeSubBlocks (data : List Byte) : List Byte := encodeChain (cutChunks data.length data)

/-- The value of a code sequence `(code, width)` packed least significant bit first (R102, 42_lzw R172). -/
def packValue : List (Nat × Nat) → Nat
  | [] => 0
  | (c, w) :: r => c % 2 ^ w + 2 ^ w * packValue r

/-- The number of bits of a code sequence. -/
def packBits : List (Nat × Nat) → Nat
  | [] => 0
  | (_, w) :: r => w + packBits r

/-- A value as `n` bytes, low byte first. -/
def leBytes : Nat → Nat → List Byte
  | 0, _ => []
  | n + 1, v => BitVec.ofNat 8 v :: leBytes n (v / 2 ^ 8)

/-- `CODES(m; c1/w1, …)`: the packed bytes, a final partial byte padded with zero bits. -/
def encodeCodes (cs : List (Nat × Nat)) : List Byte := leBytes ((packBits cs + 7) / 8) (packValue cs)

/-- `GCE(disp, delay, tflag, tidx)`: the 8 bytes of R91. -/
def encodeGce (disp : BitVec 3) (delay : Half) (tflag : Bool) (tidx : Byte) : List Byte :=
  [0x21#8, 0xF9#8, 0x04#8, BitVec.ofNat 8 (4 * disp.toNat + tflag.toNat)] ++ encodeU16 delay ++ [tidx, 0x00#8]

/-- The 10 descriptor bytes of R86 with the packed byte given. -/
def encodeDescriptor (left top w h : Half) (packed : Byte) : List Byte :=
  0x2C#8 :: encodeU16 left ++ encodeU16 top ++ encodeU16 w ++ encodeU16 h ++ [packed]

/-- `IMG(left, top, w, h, m, data)`: an image block with no local table. -/
def encodeImage (left top w h : Half) (m : Byte) (data : List Byte) : List Byte :=
  encodeDescriptor left top w h 0x00#8 ++ [m] ++ encodeSubBlocks data

/-- `IMGL(left, top, w, h, lpal, m, data)`: packed byte `0x80 | n` and the 3 * 2^(n+1) palette bytes given. -/
def encodeImageLocal (left top w h : Half) (n : BitVec 3) (lpal : List Byte) (m : Byte) (data : List Byte) : List Byte :=
  encodeDescriptor left top w h (0x80#8 ||| n.setWidth 8) ++ lpal ++ [m] ++ encodeSubBlocks data

/-- `HDR(W,H,pal,bg)`: header, screen descriptor and palette; `n` is the size field of a palette that is present. -/
def encodeHeader (w h : Half) (pal : Option (BitVec 3 × List Byte)) (bg : Byte) : List Byte :=
  [0x47#8, 0x49#8, 0x46#8, 0x38#8, 0x39#8, 0x61#8] ++ encodeU16 w ++ encodeU16 h ++
    match pal with
    | none => [0x00#8, 0x00#8, 0x00#8]
    | some (n, bytes) => [0x80#8 ||| n.setWidth 8, bg, 0x00#8] ++ bytes

end Sys2Proof
end

