-- ==== Sys2Proof/Machine/State.lean ====
section
/-! DEFINITION. The state of the GIF decoder core (10_state), its reset (R51), and the reasons the model stops. -/

namespace Sys2Proof.Machine

/-- `PHASE` (10_state R21). -/
inductive Phase where
  | idle
  | busy
  | done
  deriving DecidableEq, Repr

/-- The outcomes `RESULT` names (60_exceptions R241); `Result.code` of Machine/Ops.lean gives their numbers. -/
inductive Result where
  | none
  | complete
  | formatError
  | truncated
  | unsupported
  | unknownBlock
  | unknownExtension
  | badMinCodeSize
  | lzwNoPrevious
  | rectOutsideCanvas
  | paletteIndex
  | reservedDisposal
  | frameOverflow
  | canvasTooLarge
  deriving DecidableEq, Repr

/-- `Pixel` (00_scope R8). -/
inductive Pixel where
  /-- `Opaque(r,g,b)` -/
  | rgb (r g b : Byte)
  | transparent
  deriving DecidableEq, Repr

/-- `PalEntry` (R8); `t` is the transparency mark. -/
structure PalEntry where
  r : Byte
  g : Byte
  b : Byte
  t : Bool
  deriving DecidableEq, Repr

/-- A palette entry's reset value (R51). -/
def PalEntry.zero : PalEntry := ⟨0, 0, 0, false⟩

/-- `Frame` (R8). -/
structure Frame where
  pixels : List Pixel
  delayMs : Word
  deriving DecidableEq, Repr

/-- One entry of `TAGLOG` (10_state R39). -/
structure TagEntry where
  tag : Byte
  label : Option Byte
  deriving DecidableEq, Repr

/-- One slot of `TABLE` (10_state R34). -/
structure Slot where
  prefixCode : Code
  sym : Sym
  deriving DecidableEq, Repr

/-- Three header bytes (10_state R26). -/
structure Bytes3 where
  b0 : Byte
  b1 : Byte
  b2 : Byte
  deriving DecidableEq, Repr

/-- Which rule the engine runs next while `PHASE = BUSY`. MODEL'S OWN, DESIGN CHOICE (log 1): 70_reset R277 lets a model run a
decode "as any finer sequence of steps in rule order". -/
inductive Stage where
  /-- 40_container R121 -/
  | container
  /-- 41_block_walker R130: fetch and run the block whose tag is at `CUR` -/
  | walker
  /-- R140: run the extension whose label has been logged -/
  | extension
  /-- 42_lzw R171, R170 -/
  | lzwSetup
  /-- R174: read, classify and run one code -/
  | lzw
  /-- 43_compositor R210-R216 -/
  | compose
  /-- R217-R220: run the disposal method -/
  | dispose
  /-- R221, then 41_block_walker R137 and R138 -/
  | retire
  deriving DecidableEq, Repr

/-- The host's moves (70_reset R272-R274). The register window is addressed by byte offset (10_state R43), the windows as
20_memory R60, R68 and R69 index them. -/
inductive HostOp where
  /-- the host does nothing and the engine moves -/
  | yield
  /-- hardware reset (70_reset R270) -/
  | hardReset
  | writeReg (off : BitVec 8) (v : Word)
  | readReg (off : BitVec 8)
  | writeSrc (a : Word) (b : Byte)
  | readSrc (a : Word)
  /-- `FRAMEBUF[k][i]` -/
  | readFrame (k i : Word)
  /-- `FRAME_DELAY[k]` -/
  | readDelay (k : Word)
  /-- `TAGLOG_WIN[j]` -/
  | readTag (j : Word)
  deriving DecidableEq, Repr

/-- Everything the spec gives the machine (10_state R20-R39), the configuration, and the model's own fields. -/
structure State where
  /-- configuration parameters (00_scope R5; log 10) -/
  cfg : Config
  /-- `PHASE` (R21) -/
  phase : Phase
  /-- `RESULT` (R22) -/
  result : Result
  /-- `FAULT_POS` (R23) -/
  faultPos : Word
  /-- `CUR` (R24) -/
  cur : Word
  /-- `SRC_LEN` (R25) -/
  srcLen : Word
  /-- `SRC` (20_memory R60): the bytes the host has written, offsets strictly rising -/
  src : List Host.Cell
  /-- `SIG` (R26) -/
  sig : Bytes3
  /-- `VERSION` (R26) -/
  version : Bytes3
  /-- `CANVAS_W` (R26) -/
  canvasW : Half
  /-- `CANVAS_H` (R26) -/
  canvasH : Half
  /-- `HAS_GCT` (R26) -/
  hasGct : Bool
  /-- `GCT_SIZE` (R26) -/
  gctSize : BitVec 9
  /-- `BG_INDEX` (R26) -/
  bgIndex : Byte
  /-- `GPAL[0..255]` (R27) -/
  gpal : List PalEntry
  /-- `APAL[0..255]` (R28) -/
  apal : List PalEntry
  /-- `APAL_LEN` (R28) -/
  apalLen : BitVec 9
  /-- `GCE_DELAY` (R29) -/
  gceDelay : Word
  /-- `GCE_DISPOSAL` (R29) -/
  gceDisposal : BitVec 3
  /-- `GCE_TFLAG` (R29) -/
  gceTflag : Bool
  /-- `GCE_TINDEX` (R29) -/
  gceTindex : Byte
  /-- `PREV_DISPOSAL` (R30) -/
  prevDisposal : BitVec 3
  /-- `IMG_LEFT` (R31) -/
  imgLeft : Half
  /-- `IMG_TOP` (R31) -/
  imgTop : Half
  /-- `IMG_W` (R31) -/
  imgW : Half
  /-- `IMG_H` (R31) -/
  imgH : Half
  /-- `IMG_LCT` (R31) -/
  imgLct : Bool
  /-- `IMG_LCT_SIZE` (R31) -/
  imgLctSize : BitVec 9
  /-- `IMG_INTERLACE` (R31): recorded, never read -/
  imgInterlace : Bool
  /-- `MIN_CODE_SIZE` (R32) -/
  minCodeSize : Byte
  /-- `DATA` (R32) -/
  data : List Byte
  /-- `CLEAR_CODE` (R33) -/
  clearCode : Code
  /-- `EOI_CODE` (R33) -/
  eoiCode : Code
  /-- `CODE_SIZE` (R33) -/
  codeSize : BitVec 4
  /-- `CODE_MASK` (R33) -/
  codeMask : Code
  /-- `NEXT_CODE` (R33) -/
  nextCode : BitVec 13
  /-- `PREV_CODE` (R33) -/
  prevCode : Option Code
  /-- `BITBUF` (R33) -/
  bitBuf : BitVec 20
  /-- `BITCNT` (R33) -/
  bitCnt : BitVec 5
  /-- `RDPTR` (R33) -/
  rdPtr : Word
  /-- `TABLE[0..4095]` (R34): the slots written since `START`, slot numbers strictly rising (log 13) -/
  table : List (Nat × Slot)
  /-- `IDX` (R35) -/
  idx : List Sym
  /-- `CANVAS` (R36) -/
  canvas : List Pixel
  /-- `SNAP` (R37) -/
  snap : List Pixel
  /-- `FRAMES` (R38) -/
  frames : List Frame
  /-- `FRAME_COUNT` (R38) -/
  frameCount : Word
  /-- `TAGLOG` (R39) -/
  tagLog : List TagEntry
  /-- `TAG_COUNT` (R39) -/
  tagCount : Word
  /-- MODEL'S OWN (log 1) -/
  stage : Stage
  /-- MODEL'S OWN (log 2): qEnd of 41_block_walker R135, which R138 stores into `CUR` -/
  blockEnd : Word
  /-- MODEL'S OWN (log 3): the host's pending moves, the next one first -/
  host : List HostOp
  /-- MODEL'S OWN (log 4): the word the host's latest read returned -/
  busData : Word
  /-- MODEL'S OWN (log 6): how many undefined reads have been answered -/
  freeIdx : Nat
  /-- MODEL'S OWN (log 5): how many hardware resets there have been -/
  srcEpoch : Nat
  deriving DecidableEq, Repr

/-- Why the machine stops. None of these is a fault of 60_exceptions R241: those are next states (R249; log 11). -/
inductive Fault where
  /-- Raised by a host access to `SRC` offset 2^32 - 1, which is outside the space of 20_memory R60. Safe (log 9). -/
  | srcOffsetOutsideSpace
  /-- Raised by a fetch whose word spells no instruction; no state a decode reaches has one. Safe (log 12). -/
  | undecodable (e : DecodeError)
  /-- Raised by a LITERAL, TABLE or KWKWK meaning run with `PREV_CODE = none`, outside its class of 30_encoding R100; step never
  runs one so. Safe (log 12). -/
  | codeOutOfClass
  /-- Raised by a walk that reads a table slot 10_state R34 says is never read; no state a decode reaches does. Safe (log 12). -/
  | deadTableSlot
  deriving DecidableEq, Repr

/-- What the model refuses. -/
inductive Refusal where
  /-- An instruction with no meaning yet, rejected by its mnemonic. Safe. -/
  | notModelled (mnemonic : String)
  /-- A host write of `SRC` while BUSY: 70_reset R274 "no move". Unsafe: a claim holds only of runs without one (log 7). -/
  | srcWriteWhileBusy
  /-- A host write at a register offset below 0x28 that is no multiple of 4: the spec gives it no effect. Safe (log 8). -/
  | unalignedRegisterWrite
  deriving DecidableEq, Repr

/-- The machine right after hardware reset (10_state R51), with the default parameters (00_scope R5). The last six fields are the
model's own: DESIGN CHOICE values (log 1 to 6). -/
def State.reset : State where
  cfg := Config.default
  phase := .idle
  result := .none
  faultPos := 0
  cur := 0
  srcLen := 0
  src := []
  sig := ⟨0, 0, 0⟩
  version := ⟨0, 0, 0⟩
  canvasW := 0
  canvasH := 0
  hasGct := false
  gctSize := 0
  bgIndex := 0
  gpal := List.replicate 256 PalEntry.zero
  apal := List.replicate 256 PalEntry.zero
  apalLen := 0
  gceDelay := 0
  gceDisposal := 0
  gceTflag := false
  gceTindex := 0
  prevDisposal := 0
  imgLeft := 0
  imgTop := 0
  imgW := 0
  imgH := 0
  imgLct := false
  imgLctSize := 0
  imgInterlace := false
  minCodeSize := 0
  data := []
  clearCode := 0
  eoiCode := 0
  codeSize := 0
  codeMask := 0
  nextCode := 0
  prevCode := none
  bitBuf := 0
  bitCnt := 0
  rdPtr := 0
  table := []
  idx := []
  canvas := []
  snap := []
  frames := []
  frameCount := 0
  tagLog := []
  tagCount := 0
  stage := .container
  blockEnd := 0
  host := []
  busData := 0
  freeIdx := 0
  srcEpoch := 0

end Sys2Proof.Machine
end

