-- ==== Sys2Proof/Machine/Ops.lean ====
section
/-! DEFINITION. The shared operations: sparse memories, source reads (20_memory), the tag log (41_block_walker R130, R140), the end
of a decode (60_exceptions R249) and its start (70_reset R271). -/

namespace Sys2Proof.Machine

/-! ## Sparse memories -/

/-- The canonical form of a sparse memory: keys strictly rising. An unlisted key reads as no value, so no listed entry can equal
what an unlisted key reads as. -/
abbrev CellsRising {α : Type} (m : List (Nat × α)) : Prop := m.Pairwise fun x y => x.1 < y.1

/-- The value at a key, `none` where nothing was written. -/
def cellLookup {α : Type} : List (Nat × α) → Nat → Option α
  | [], _ => none
  | (b, x) :: r, a => if a = b then some x else cellLookup r a

/-- Write one key, keeping the keys rising. -/
def cellInsert {α : Type} : List (Nat × α) → Nat → α → List (Nat × α)
  | [], a, v => [(a, v)]
  | (b, x) :: r, a, v =>
    if a < b then (a, v) :: (b, x) :: r
    else if a = b then (a, v) :: r
    else (b, x) :: cellInsert r a v

/-- The offsets of `SRC` end at 2^32 - 2, since N ≤ 2^32 - 1 (20_memory R60). -/
def srcSpace : Nat := 2 ^ 32 - 1

/-- The canonical form of `SRC`. -/
abbrev Memory.wf (m : List Host.Cell) : Prop := CellsRising m ∧ ∀ c ∈ m, c.1 < srcSpace

/-! ## Source reads -/

/-- N = `SRC_LEN` (R25). -/
def srcEnd (s : State) : Nat := s.srcLen.toNat

/-- `SrcByte(p)` (00_scope R7); a byte nothing has written is a free value (70_reset R270, log 5). -/
def srcByte (s : State) (p : Nat) : Byte :=
  match cellLookup s.src p with
  | some b => b
  | none => Config.powerOnSrcByte s.srcEpoch p

/-- `SrcU16(p) = SrcByte(p) | (SrcByte(p+1) << 8)` (20_memory R62). -/
def srcU16 (s : State) (p : Nat) : Half :=
  (srcByte s p).setWidth 16 ||| ((srcByte s (p + 1)).setWidth 16 <<< 8)

/-- `len` source bytes from offset `p` on. -/
def srcBytes (s : State) (p : Nat) : Nat → List Byte
  | 0 => []
  | n + 1 => srcByte s p :: srcBytes s (p + 1) n

/-- `SRC` holds the bytes `bs` from offset `p` on, all of them below N. -/
abbrev holdsBytes (s : State) (p : Nat) (bs : List Byte) : Prop := srcBytes s p bs.length = bs ∧ p + bs.length ≤ srcEnd s

/-! ## The tag log (41_block_walker R130, R140) -/

/-- Whether an entry of number `n` (from 0) is stored (10_state R39, decision D38). -/
def logStores (cap : Option Nat) (n : Nat) : Bool :=
  match cap with
  | none => true
  | some c => decide (n < c)

/-- `LogTag`: append an entry when `TAG_COUNT < TAGLOG_CAPACITY`, and always increment `TAG_COUNT`. -/
def logTag (tag : Byte) (s : State) : State :=
  { s with
    tagLog := if logStores s.cfg.tagLogCapacity s.tagCount.toNat then s.tagLog ++ [⟨tag, none⟩] else s.tagLog
    tagCount := s.tagCount + 1 }

/-- Give the last entry of a log its label. -/
def labelLast (label : Byte) : List TagEntry → List TagEntry
  | [] => []
  | [e] => [{ e with label := some label }]
  | e :: r => e :: labelLast label r

/-- `LogLabel`: complete the entry that `LogTag` made for this block. DEDUCED: when the log was full and made none, there is
nothing to complete (log 16). -/
def logLabel (label : Byte) (s : State) : State :=
  { s with
    tagLog := if logStores s.cfg.tagLogCapacity (s.tagCount.toNat - 1) then labelLast label s.tagLog else s.tagLog }

/-! ## The end of a decode -/

/-- The numbers of 60_exceptions R241. -/
def Result.code : Result → BitVec 8
  | .none => 0x00
  | .complete => 0x01
  | .formatError => 0x02
  | .truncated => 0x03
  | .unsupported => 0x04
  | .unknownBlock => 0x81
  | .unknownExtension => 0x82
  | .badMinCodeSize => 0x83
  | .lzwNoPrevious => 0x84
  | .rectOutsideCanvas => 0x85
  | .paletteIndex => 0x86
  | .reservedDisposal => 0x87
  | .frameOverflow => 0x88
  | .canvasTooLarge => 0x89

/-- Whether R241 calls the outcome a fault. -/
def Result.isFault (r : Result) : Bool :=
  match r with
  | .none | .complete | .formatError | .truncated | .unsupported => false
  | .unknownBlock | .unknownExtension | .badMinCodeSize | .lzwNoPrevious | .rectOutsideCanvas | .paletteIndex
  | .reservedDisposal | .frameOverflow | .canvasTooLarge => true

/-- `finish(S)` and `raise Fault(F)` (R249): `RESULT`, `FAULT_POS` and `PHASE` are written and everything else is kept. The p of
R249, the offset of the current block, is `CUR`, which a block moves only as its last action (10_state R24). -/
def endDecode (r : Result) (s : State) : State :=
  { s with
    result := r
    faultPos := if r.isFault then s.cur else 0
    phase := .done }

/-- An ending as the outcome of a meaning. -/
def ends (r : Result) (s : State) : Host.Outcome State Fault Refusal := .next (endDecode r s)

/-! ## The start of a decode -/

/-- Every per-decode field at its value of 10_state R51: everything but `SRC`, `SRC_LEN`, the configuration (70_reset R271) and the
model's own fields about the host. -/
def clearDecode (s : State) : State :=
  { State.reset with
    cfg := s.cfg
    src := s.src
    srcLen := s.srcLen
    host := s.host
    busData := s.busData
    freeIdx := s.freeIdx
    srcEpoch := s.srcEpoch }

/-- `START` accepted (R271). There is no return from an ending; the next `START` begins anew (60_exceptions R250). -/
def startDecode (s : State) : State := { clearDecode s with phase := .busy }

/-- Hardware reset (R270): every piece of state at its value of R51. `SRC` becomes unspecified anew; the configuration stays, as it
is fixed for an instance, and so do the host's pending moves and what its bus last read (log 15). -/
def hardReset (s : State) : State :=
  { State.reset with
    cfg := s.cfg
    host := s.host
    busData := s.busData
    freeIdx := s.freeIdx
    srcEpoch := s.srcEpoch + 1 }

/-- The level output `done` (60_exceptions R251). -/
def doneLine (s : State) : Bool := decide (s.phase = .done)

end Sys2Proof.Machine
end

