-- ==== Sys2Proof/Machine/Flags.lean ====
section
/-! DEFINITION. The bit fields of the packed bytes (30_encoding R83, R87, R92, R99) and the flags they set (10_state R41). No flag is
set by arithmetic. -/

namespace Sys2Proof.Machine

/-- Bit 7 of the screen's and the descriptor's packed byte: a colour table is present (R83, R87). -/
def packedHasTable (b : Byte) : Bool := b.getLsbD 7

/-- Bits 2:0, the size field n (R83, R87). -/
def packedSizeField (b : Byte) : Nat := (b.extractLsb' 0 3).toNat

/-- The table length 2^(n+1) when the flag of bit 7 is set, else 0 (R99; 40_container R114, 41_block_walker R132). -/
def packedTableSize (b : Byte) : BitVec 9 :=
  if packedHasTable b then BitVec.ofNat 9 (2 ^ (packedSizeField b + 1)) else 0

/-- Bit 6 of the descriptor's packed byte (R87). -/
def packedInterlace (b : Byte) : Bool := b.getLsbD 6

/-- Bit 0 of the GCE's packed byte (R92). -/
def gcePackedTflag (b : Byte) : Bool := b.getLsbD 0

/-- Bits 4:2 of the GCE's packed byte (R92). -/
def gcePackedDisposal (b : Byte) : BitVec 3 := b.extractLsb' 2 3

/-- `DELAY_SCALE` as a number (00_scope R5). -/
def delayFactor : DelayScale → Nat
  | .tenMs => 10
  | .hundredMs => 100

end Sys2Proof.Machine
end

