-- ==== Sys2Proof/Machine/Operands.lean ====
section
/-! DEFINITION. How operands are read: the colour table (40_container R118), the image descriptor (41_block_walker R132), the palette
of an image (R133, R134), the sub-block chain (R131) and the LZW code (42_lzw R172). -/

namespace Sys2Proof.Machine

/-- `ReadColorTable(off, C)` (R118). -/
def readColorTable (s : State) (off : Nat) : Nat → List PalEntry
  | 0 => []
  | n + 1 => ⟨srcByte s off, srcByte s (off + 1), srcByte s (off + 2), false⟩ :: readColorTable s (off + 3) n

/-- `P[0..len(new)-1] <- new`: the entries past the new ones keep their content. -/
def writeEntries (old new : List PalEntry) : List PalEntry := new ++ old.drop new.length

/-- R132: the descriptor at `p`. -/
def readDescriptor (p : Nat) (s : State) : State :=
  { s with
    imgLeft := srcU16 s (p + 1)
    imgTop := srcU16 s (p + 3)
    imgW := srcU16 s (p + 5)
    imgH := srcU16 s (p + 7)
    imgLct := packedHasTable (srcByte s (p + 9))
    imgInterlace := packedInterlace (srcByte s (p + 9))
    imgLctSize := packedTableSize (srcByte s (p + 9)) }

/-- R133: the active palette is the local table at `q`, or a copy of the global one. -/
def selectPalette (q : Nat) (s : State) : State :=
  if s.imgLct then
    { s with
      apal := writeEntries s.apal (readColorTable s q s.imgLctSize.toNat)
      apalLen := s.imgLctSize }
  else
    { s with
      apal := writeEntries s.apal (s.gpal.take s.gctSize.toNat)
      apalLen := s.gctSize }

/-- Set the transparency mark of entry `i`. -/
def markEntry : List PalEntry → Nat → List PalEntry
  | [], _ => []
  | e :: r, 0 => { e with t := true } :: r
  | e :: r, i + 1 => e :: markEntry r i

/-- R134: mark the pending transparent index in the active palette; none is marked past its length (decision D19). -/
def markTransparent (s : State) : State :=
  { s with
    apal := if s.gceTflag ∧ s.gceTindex.toNat < s.apalLen.toNat then markEntry s.apal s.gceTindex.toNat else s.apal }

/-- What `CollectSubBlocks` returns. -/
structure SubBlocks where
  /-- the payload bytes -/
  bytes : List Byte
  /-- the offset after the terminator -/
  next : Nat
  /-- whether the first length byte was the terminator -/
  first : Bool
  deriving DecidableEq, Repr

/-- The loop of R131 with `fuel` rounds; each round but the last moves q by at least 2, so N - q rounds are enough. `none` is
`finish(TRUNCATED)`. -/
def collectLoop (s : State) : Nat → Nat → List Byte → Bool → Option SubBlocks
  | 0, _, _, _ => none
  | fuel + 1, q, acc, first =>
    if srcEnd s ≤ q then none
    else
      let len := (srcByte s q).toNat
      if len = 0 then some ⟨acc, q + 1, first⟩
      else if srcEnd s < q + 1 + len then none
      else collectLoop s fuel (q + 1 + len) (acc ++ srcBytes s (q + 1) len) false

/-- `CollectSubBlocks(q)` (R131). -/
def collectSubBlocks (s : State) (q : Nat) : Option SubBlocks := collectLoop s (srcEnd s - q) q [] true

/-! ## The LZW code -/

/-- The bit-buffer registers `BITBUF`, `BITCNT`, `RDPTR` (10_state R33). -/
structure BitReader where
  buf : BitVec 20
  cnt : BitVec 5
  ptr : Word
  deriving DecidableEq, Repr

/-- The `while BITCNT < CODE_SIZE` loop of 42_lzw R172 with `fuel` rounds; each adds 8 bits, so `CODE_SIZE` rounds are enough. The
flag says whether enough bits are buffered; it is false when the data ran out (R173). -/
def refill (data : List Byte) (size : Nat) : Nat → BitReader → BitReader × Bool
  | 0, r => (r, decide (size ≤ r.cnt.toNat))
  | fuel + 1, r =>
    if r.cnt.toNat < size then
      match data[r.ptr.toNat]? with
      | none => (r, false)
      | some d => refill data size fuel ⟨r.buf ||| (d.setWidth 20 <<< r.cnt.toNat), r.cnt + 8, r.ptr + 1⟩
    else (r, true)

/-- `ReadCode()` (R172): the registers after it, and the code, or `none` for `END`. -/
def readCode (s : State) : State × Option Code :=
  let r := refill s.data s.codeSize.toNat s.codeSize.toNat ⟨s.bitBuf, s.bitCnt, s.rdPtr⟩
  if r.2 then
    ({ s with
        bitBuf := r.1.buf >>> s.codeSize.toNat
        bitCnt := r.1.cnt - s.codeSize.setWidth 5
        rdPtr := r.1.ptr },
      some (r.1.buf.setWidth 12 &&& s.codeMask))
  else ({ s with bitBuf := r.1.buf, bitCnt := r.1.cnt, rdPtr := r.1.ptr }, none)

/-- The context a code is classified in (30_encoding R100). -/
def lzwCtx (s : State) : LzwCtx :=
  ⟨s.clearCode.toNat, s.eoiCode.toNat, s.nextCode.toNat, s.prevCode, s.codeSize.toNat⟩

end Sys2Proof.Machine
end

