-- ==== Sys2Proof/Machine/Blocks.lean ====
section
/-! DEFINITION. The meanings of the `tag8` rows: IMAGE, EXTENSION, TRAILER, TAG_UNKNOWN (41_block_walker R132-R135, R140, R146, R147). -/

namespace Sys2Proof.Machine

/-- R135 from offset `q`: the minimum code size, the collected data, and the end of the block; the decompressor is next (R136). -/
def imageData (q : Nat) (s : State) : Host.Outcome State Fault Refusal :=
  if srcEnd s ≤ q then ends .truncated s
  else
    let t := { s with minCodeSize := srcByte s q }
    match collectSubBlocks t (q + 1) with
    | none => ends .truncated t
    | some r => .next { t with data := r.bytes, blockEnd := BitVec.ofNat 32 r.next, stage := .lzwSetup }

/-- R133 to R135, after the descriptor at `p` is read. -/
def imagePalette (p : Nat) (s : State) : Host.Outcome State Fault Refusal :=
  if s.imgLct ∧ srcEnd s < p + 10 + 3 * s.imgLctSize.toNat then ends .truncated s
  else imageData (p + 10 + 3 * s.imgLctSize.toNat) (markTransparent (selectPalette (p + 10) s))

/-- IMAGE (R139): steps 1 to 4, R132 to R135. Steps 5 to 7 are the steps of the LZW, compositor and retire stages (log 1). -/
def execImage (s : State) : Host.Outcome State Fault Refusal :=
  if srcEnd s < s.cur.toNat + 10 then ends .truncated s
  else imagePalette s.cur.toNat (readDescriptor s.cur.toNat s)

/-- EXTENSION (R140): read and log the label; the extension it selects is next. -/
def execExtension (s : State) : Host.Outcome State Fault Refusal :=
  if srcEnd s ≤ s.cur.toNat + 1 then ends .truncated s
  else .next { logLabel (srcByte s (s.cur.toNat + 1)) s with stage := .extension }

/-- TRAILER (R146). -/
def execTrailer (s : State) : Host.Outcome State Fault Refusal := ends .complete { s with cur := s.cur + 1 }

/-- TAG_UNKNOWN (R147): `raise Fault(UNKNOWN_BLOCK)`. -/
def execTagUnknown (_tag : Byte) (s : State) : Host.Outcome State Fault Refusal := ends .unknownBlock s

end Sys2Proof.Machine
end

