-- ==== Sys2Proof/Machine/Container.lean ====
section
/-! DEFINITION. The container phase (40_container), one step of the engine: R110, R111, R112, R113, R114, R115, R116, R120, R117 in the
order of R121. -/

namespace Sys2Proof.Machine

/-- R110: the first three bytes are "GIF". -/
def signatureOk (s : State) : Bool :=
  decide (3 ≤ srcEnd s ∧ srcByte s 0 = 0x47#8 ∧ srcByte s 1 = 0x49#8 ∧ srcByte s 2 = 0x46#8)

/-- The write of R110. -/
def readSignature (s : State) : State := { s with sig := ⟨srcByte s 0, srcByte s 1, srcByte s 2⟩ }

/-- R112 to R115: version, canvas dimensions, packed byte, background index. -/
def readScreen (s : State) : State :=
  { s with
    version := ⟨srcByte s 3, srcByte s 4, srcByte s 5⟩
    canvasW := srcU16 s 6
    canvasH := srcU16 s 8
    hasGct := packedHasTable (srcByte s 10)
    gctSize := packedTableSize (srcByte s 10)
    bgIndex := if packedHasTable (srcByte s 10) then srcByte s 11 else 0 }

/-- `CANVAS_W * CANVAS_H`, an unbounded natural (20_memory R67). -/
def canvasPixels (s : State) : Nat := s.canvasW.toNat * s.canvasH.toNat

/-- A canvas of `Transparent` pixels (R120; 43_compositor R218). -/
def emptyCanvas (s : State) : List Pixel := List.replicate (canvasPixels s) .transparent

/-- The write of R116. -/
def readGlobalTable (s : State) : State :=
  { s with gpal := writeEntries s.gpal (readColorTable s 13 s.gctSize.toNat) }

/-- The writes of R120 and R117; the Block Walker is next. -/
def allocateCanvas (s : State) : State :=
  { s with
    canvas := emptyCanvas s
    snap := emptyCanvas s
    cur := BitVec.ofNat 32 (13 + 3 * s.gctSize.toNat)
    stage := .walker }

/-- R116, R120 and R117, after the screen descriptor is read. -/
def containerTail (s : State) : State :=
  if srcEnd s < 13 + 3 * s.gctSize.toNat then endDecode .truncated s
  else if s.cfg.maxCanvasPixels < canvasPixels s then endDecode .canvasTooLarge (readGlobalTable s)
  else allocateCanvas (readGlobalTable s)

/-- The container phase (R121). -/
def containerPhase (s : State) : State :=
  if !signatureOk s then endDecode .formatError s
  else if srcEnd s < 13 then endDecode .truncated (readSignature s)
  else containerTail (readScreen (readSignature s))

end Sys2Proof.Machine
end

