-- ==== Sys2Proof/Machine/Compositor.lean ====
section
/-! DEFINITION. The Frame Compositor (43_compositor): the pixel phase and emission, the meanings of the `disposal3` rows, and the end
of an image block. -/

namespace Sys2Proof.Machine

/-- R211 fails: the rectangle is not inside the canvas. -/
def rectOutside (s : State) : Bool :=
  decide (s.canvasW.toNat < s.imgLeft.toNat + s.imgW.toNat ∨ s.canvasH.toNat < s.imgTop.toNat + s.imgH.toNat)

/-- R212: the index of the k-th pixel of the rectangle, the background index past the index stream. -/
def pixelIndex (s : State) (k : Nat) : Nat :=
  match s.idx[k]? with
  | some c => c.toNat
  | none => s.bgIndex.toNat

/-- R213: `APAL[i]`, `none` for an index past the palette. -/
def paletteEntry (s : State) (i : Nat) : Option PalEntry :=
  if i < s.apalLen.toNat then s.apal[i]? else none

/-- R215: where the k-th pixel of the rectangle goes, k = row*IMG_W + col. -/
def pixelTarget (s : State) (k : Nat) : Nat :=
  (s.imgTop.toNat + k / s.imgW.toNat) * s.canvasW.toNat + s.imgLeft.toNat + k % s.imgW.toNat

/-- R215: the pixel an entry writes. -/
def entryPixel (e : PalEntry) : Pixel := if e.t then .transparent else .rgb e.r e.g e.b

/-- R213, R214 and R215 for the k-th pixel; `none` is `Fault(PALETTE_INDEX)`. -/
def paintPixel (s : State) (k : Nat) (canvas : List Pixel) : Option (List Pixel) :=
  match paletteEntry s (pixelIndex s k) with
  | none => none
  | some e =>
    if e.t ∧ s.prevDisposal ≠ 2#3 then some canvas
    else some (canvas.set (pixelTarget s k) (entryPixel e))

/-- The loops of R212 over `n` pixels from the k-th on, in scan order: the canvas, and whether every index was in the palette. -/
def paint (s : State) : Nat → Nat → List Pixel → List Pixel × Bool
  | 0, _, canvas => (canvas, true)
  | n + 1, k, canvas =>
    match paintPixel s k canvas with
    | none => (canvas, false)
    | some canvas' => paint s n (k + 1) canvas'

/-- The pixel loops of the whole rectangle. -/
def paintRect (s : State) : List Pixel × Bool := paint s (s.imgW.toNat * s.imgH.toNat) 0 s.canvas

/-- `FRAME_COUNT >= FRAME_CAPACITY` (R216). -/
def framesFull (s : State) : Bool :=
  match s.cfg.frameCapacity with
  | none => false
  | some c => decide (c ≤ s.frameCount.toNat)

/-- R216: emit the frame; the disposal method is next. -/
def emitFrame (s : State) : State :=
  if framesFull s then endDecode .frameOverflow s
  else
    { s with
      frames := s.frames ++ [⟨s.canvas, s.gceDelay⟩]
      frameCount := s.frameCount + 1
      stage := .dispose }

/-- R212 to R216, after the snapshot and the rectangle check. -/
def composePixels (s : State) : State :=
  let r := paintRect s
  if r.2 then emitFrame { s with canvas := r.1 } else endDecode .paletteIndex { s with canvas := r.1 }

/-- R210 to R216, in the order of R223. -/
def composeStep (s : State) : State :=
  let t := { s with snap := s.canvas }
  if rectOutside t then endDecode .rectOutsideCanvas t else composePixels t

/-- The disposal action is done; R221 is next. -/
def toRetire (s : State) : State := { s with stage := .retire }

/-- DISPOSE_NONE (R217). -/
def execDisposeNone (s : State) : Host.Outcome State Fault Refusal := .next (toRetire s)

/-- DISPOSE_KEEP (R217). -/
def execDisposeKeep (s : State) : Host.Outcome State Fault Refusal := .next (toRetire s)

/-- DISPOSE_BACKGROUND (R218): the whole canvas becomes `Transparent`. -/
def execDisposeBackground (s : State) : Host.Outcome State Fault Refusal :=
  .next (toRetire { s with canvas := emptyCanvas s })

/-- DISPOSE_PREVIOUS (R219). -/
def execDisposePrevious (s : State) : Host.Outcome State Fault Refusal := .next (toRetire { s with canvas := s.snap })

/-- DISPOSE_RESERVED (R220), by `RESERVED_DISPOSAL_POLICY`. -/
def execDisposeReserved (_v : BitVec 3) (s : State) : Host.Outcome State Fault Refusal :=
  match s.cfg.reservedDisposal with
  | .fault => ends .reservedDisposal s
  | .asNoAction => .next (toRetire s)

/-- R221, then 41_block_walker R137 and R138: the disposal method is remembered, the graphics-control state is consumed, and the
cursor moves past the block. -/
def retireImage (s : State) : State :=
  { s with
    prevDisposal := s.gceDisposal
    gceDelay := 0
    gceDisposal := 0
    gceTflag := false
    gceTindex := 0
    cur := s.blockEnd
    stage := .walker }

end Sys2Proof.Machine
end

