-- ==== Sys2Proof/Machine/Extensions.lean ====
section
/-! DEFINITION. The meanings of the `ext16` rows: GCE, APP, COMMENT, PLAINTEXT, EXT_UNKNOWN (41_block_walker R141-R145). -/

namespace Sys2Proof.Machine

/-- The last action of an extension: `CUR` past the block, and the next tag is read (10_state R24). -/
def toNextBlock (q : Nat) (s : State) : State := { s with cur := BitVec.ofNat 32 q, stage := .walker }

/-- GCE (R141). The size and terminator bytes are not read (decision D11). -/
def execGce (s : State) : Host.Outcome State Fault Refusal :=
  let p := s.cur.toNat
  if srcEnd s < p + 8 then ends .truncated s
  else
    .next (toNextBlock (p + 8)
      { s with
        gceTflag := gcePackedTflag (srcByte s (p + 3))
        gceDisposal := gcePackedDisposal (srcByte s (p + 3))
        gceDelay := BitVec.ofNat 32 ((srcU16 s (p + 4)).toNat * delayFactor s.cfg.delayScale)
        gceTindex := srcByte s (p + 6) })

/-- APP (R142): the identifier and the sub-blocks are skipped. -/
def execApp (s : State) : Host.Outcome State Fault Refusal :=
  if srcEnd s < s.cur.toNat + 14 then ends .truncated s
  else
    match collectSubBlocks s (s.cur.toNat + 14) with
    | none => ends .truncated s
    | some r => .next (toNextBlock r.next s)

/-- COMMENT (R143): the sub-blocks are skipped; an empty first one ends the decode. -/
def execComment (s : State) : Host.Outcome State Fault Refusal :=
  match collectSubBlocks s (s.cur.toNat + 2) with
  | none => ends .truncated s
  | some r => if r.first then ends .truncated s else .next (toNextBlock r.next s)

/-- PLAINTEXT (R144): `finish(UNSUPPORTED)`. -/
def execPlainText (s : State) : Host.Outcome State Fault Refusal := ends .unsupported s

/-- EXT_UNKNOWN (R145): `raise Fault(UNKNOWN_EXTENSION)`. -/
def execExtUnknown (_label : Byte) (s : State) : Host.Outcome State Fault Refusal := ends .unknownExtension s

end Sys2Proof.Machine
end

