-- ==== Sys2Proof/Machine/Lzw.lean ====
section
/-! DEFINITION. The LZW Decompressor (42_lzw): set-up, table operations and the meanings of the `lzw_code` rows. -/

namespace Sys2Proof.Machine

/-- `CODE_SIZE <- w; CODE_MASK <- (1 << CODE_SIZE) - 1`. -/
def setCodeSize (w : Nat) (s : State) : State :=
  { s with codeSize := BitVec.ofNat 4 w, codeMask := BitVec.ofNat 12 (2 ^ w - 1) }

/-- The four writes of R177, which R170 makes too. -/
def resetCodes (s : State) : State :=
  { setCodeSize (s.minCodeSize.toNat + 1) s with
    nextCode := BitVec.ofNat 13 (s.clearCode.toNat + 2)
    prevCode := none }

/-- The writes of R170. -/
def initLzw (s : State) : State :=
  let m := s.minCodeSize.toNat
  { resetCodes { s with clearCode := BitVec.ofNat 12 (2 ^ m), eoiCode := BitVec.ofNat 12 (2 ^ m + 1) } with
    bitBuf := 0
    bitCnt := 0
    rdPtr := 0
    idx := []
    stage := .lzw }

/-- R171 then R170. -/
def lzwSetup (s : State) : State :=
  if s.minCodeSize.toNat < 2 ∨ 11 < s.minCodeSize.toNat then endDecode .badMinCodeSize s else initLzw s

/-- `LzwDecode` returns: the compositor is next (R190). -/
def endLzw (s : State) : State := { s with stage := .compose }

/-- `WidthGrowth()` (R185). -/
def widthGrowth (s : State) : State :=
  if s.nextCode.toNat = 2 ^ s.codeSize.toNat ∧ s.nextCode.toNat ≤ 4095 then setCodeSize (s.codeSize.toNat + 1) s else s

/-- `AddEntry(pc, k)` (R184); with the table full it changes nothing (R186). -/
def addEntry (pc : Code) (k : Sym) (s : State) : State :=
  if s.nextCode.toNat < 4096 then
    widthGrowth
      { s with
        table := cellInsert s.table s.nextCode.toNat ⟨pc, k⟩
        nextCode := s.nextCode + 1 }
  else s

/-- The walk of R183 with `fuel` slot reads: `acc` is the run collected so far, reversed as it will be emitted. `none` when it would
read a slot that is not live, which 10_state R34 rules out. -/
def walkString (table : List (Nat × Slot)) (clear next : Nat) : Nat → Nat → List Sym → Option (List Sym)
  | 0, c, acc => if c < clear then some (BitVec.ofNat 11 c :: acc) else none
  | fuel + 1, c, acc =>
    if c < clear then some (BitVec.ofNat 11 c :: acc)
    else if clear + 2 ≤ c ∧ c < next then
      match cellLookup table c with
      | none => none
      | some e => walkString table clear next fuel e.prefixCode.toNat (e.sym :: acc)
    else none

/-- `String(c)` (R183). A walk takes fewer than 4096 steps (R189.8). -/
def stringOf (s : State) (c : Code) : Option (List Sym) :=
  walkString s.table s.clearCode.toNat s.nextCode.toNat 4096 c.toNat []

/-- The writes R180, R181 and R182 share: emit the run, append the entry, remember the code (R187). -/
def emitRun (run : List Sym) (pc : Code) (k : Sym) (c : Code) (s : State) : State :=
  { addEntry pc k { s with idx := s.idx ++ run } with prevCode := some c }

/-- INVALID (R175): the decompression of this block ends; nothing is written. -/
def execInvalid (_c : Code) (s : State) : Host.Outcome State Fault Refusal := .next (endLzw s)

/-- EOI (R176). -/
def execEoi (s : State) : Host.Outcome State Fault Refusal := .next (endLzw s)

/-- CLEAR (R177). -/
def execClear (s : State) : Host.Outcome State Fault Refusal := .next (resetCodes s)

/-- FIRST (R178). -/
def execFirst (c : Code) (s : State) : Host.Outcome State Fault Refusal :=
  .next { s with idx := s.idx ++ [BitVec.ofNat 11 c.toNat], prevCode := some c }

/-- FIRST_NONLITERAL (R179): `raise Fault(LZW_NO_PREVIOUS)`. -/
def execFirstNonliteral (_c : Code) (s : State) : Host.Outcome State Fault Refusal := ends .lzwNoPrevious s

/-- LITERAL (R180). -/
def execLiteral (c : Code) (s : State) : Host.Outcome State Fault Refusal :=
  match s.prevCode with
  | none => .fault .codeOutOfClass
  | some pc => .next (emitRun [BitVec.ofNat 11 c.toNat] pc (BitVec.ofNat 11 c.toNat) c s)

/-- TABLE (R181). -/
def execTable (c : Code) (s : State) : Host.Outcome State Fault Refusal :=
  match s.prevCode with
  | none => .fault .codeOutOfClass
  | some pc =>
    match stringOf s c with
    | some (k :: r) => .next (emitRun (k :: r) pc k c s)
    | some [] | none => .fault .deadTableSlot

/-- KWKWK (R182). -/
def execKwkwk (c : Code) (s : State) : Host.Outcome State Fault Refusal :=
  match s.prevCode with
  | none => .fault .codeOutOfClass
  | some pc =>
    match stringOf s pc with
    | some (k :: r) => .next (emitRun (k :: r ++ [k]) pc k c s)
    | some [] | none => .fault .deadTableSlot

end Sys2Proof.Machine
end

