-- ==== Sys2Proof/Machine/Dispatch.lean ====
section
/-! DEFINITION. The meaning of every instruction: one arm a constructor. -/

namespace Sys2Proof.Machine

def exec (i : Instr) (s : State) : Host.Outcome State Fault Refusal :=
  match i with
  | .image => Sys2Proof.Machine.execImage s
  | .extension => Sys2Proof.Machine.execExtension s
  | .trailer => Sys2Proof.Machine.execTrailer s
  | .tagUnknown tag => Sys2Proof.Machine.execTagUnknown tag s
  | .gce => Sys2Proof.Machine.execGce s
  | .app => Sys2Proof.Machine.execApp s
  | .comment => Sys2Proof.Machine.execComment s
  | .plainText => Sys2Proof.Machine.execPlainText s
  | .extUnknown label => Sys2Proof.Machine.execExtUnknown label s
  | .invalid c => Sys2Proof.Machine.execInvalid c s
  | .eoi => Sys2Proof.Machine.execEoi s
  | .clear => Sys2Proof.Machine.execClear s
  | .first c => Sys2Proof.Machine.execFirst c s
  | .firstNonliteral c => Sys2Proof.Machine.execFirstNonliteral c s
  | .literal c => Sys2Proof.Machine.execLiteral c s
  | .table c => Sys2Proof.Machine.execTable c s
  | .kwkwk c => Sys2Proof.Machine.execKwkwk c s
  | .disposeNone => Sys2Proof.Machine.execDisposeNone s
  | .disposeKeep => Sys2Proof.Machine.execDisposeKeep s
  | .disposeBackground => Sys2Proof.Machine.execDisposeBackground s
  | .disposePrevious => Sys2Proof.Machine.execDisposePrevious s
  | .disposeReserved v => Sys2Proof.Machine.execDisposeReserved v s

end Sys2Proof.Machine
end

