-- ==== Sys2Proof/Machine/HostPort.lean ====
section
/-! DEFINITION. The host's moves: the register window (10_state R43-R49), the memory windows (R50; 20_memory R60, R68, R69), START
(70_reset R271, R275) and hardware reset (R270). -/

namespace Sys2Proof.Machine

/-- `PHASE` as a number (10_state R45). -/
def phaseCode : Phase → BitVec 2
  | .idle => 0
  | .busy => 1
  | .done => 2

/-- Fields of a register word: a value at a bit position. -/
def field {w : Nat} (v : BitVec w) (lo : Nat) : Word := BitVec.ofNat 32 v.toNat <<< lo

/-- `STATUS` (R45). -/
def statusWord (s : State) : Word := field (phaseCode s.phase) 0 ||| field s.result.code 8

/-- `CANVAS_DIM` (R43). -/
def canvasDimWord (s : State) : Word := field s.canvasW 0 ||| field s.canvasH 16

/-- `SCREEN_INFO` (R43). -/
def screenInfoWord (s : State) : Word :=
  field (BitVec.ofBool s.hasGct) 0 ||| field s.gctSize 4 ||| field s.bgIndex 16

/-- `VERSION` (R43). -/
def versionWord (s : State) : Word := field s.version.b0 0 ||| field s.version.b1 8 ||| field s.version.b2 16

/-- The register map of R43 at rest; `none` for an offset below 0x28 that is no multiple of 4, which the map does not name.
`CTRL` reads 0 (R44), and so does every reserved offset (R48). -/
def registerWord (s : State) (off : BitVec 8) : Option Word :=
  if off = 0x00#8 then some 0
  else if off = 0x04#8 then some (statusWord s)
  else if off = 0x08#8 then some s.srcLen
  else if off = 0x0C#8 then some s.cur
  else if off = 0x10#8 then some (canvasDimWord s)
  else if off = 0x14#8 then some (screenInfoWord s)
  else if off = 0x18#8 then some (versionWord s)
  else if off = 0x1C#8 then some s.frameCount
  else if off = 0x20#8 then some s.faultPos
  else if off = 0x24#8 then some s.tagCount
  else if 0x28 ≤ off.toNat then some 0
  else none

/-- The word of a pixel (R50). -/
def pixelWord : Pixel → Word
  | .rgb r g b => (1#32 <<< 24) ||| field r 16 ||| field g 8 ||| field b 0
  | .transparent => 0

/-- `FRAMEBUF[k][i]` (20_memory R68). -/
def frameWord (s : State) (k i : Nat) : Word :=
  if k < s.frameCount.toNat ∧ i < canvasPixels s then
    match s.frames[k]? with
    | none => 0
    | some f => match f.pixels[i]? with
      | none => 0
      | some px => pixelWord px
  else 0

/-- `FRAME_DELAY[k]` (R68). -/
def delayWord (s : State) (k : Nat) : Word :=
  if k < s.frameCount.toNat then
    match s.frames[k]? with
    | none => 0
    | some f => f.delayMs
  else 0

/-- The word of a tag-log entry (R69). -/
def tagWord (e : TagEntry) : Word :=
  match e.label with
  | none => field e.tag 0
  | some l => field e.tag 0 ||| (1#32 <<< 8) ||| field l 16

/-- `TAGLOG_WIN[j]` (R69). -/
def tagLogWord (s : State) (j : Nat) : Word :=
  match s.tagLog[j]? with
  | none => 0
  | some e => tagWord e

/-- A read answered with a defined word. -/
def answer (w : Word) (s : State) : Host.Outcome State Fault Refusal := .next { s with busData := w }

/-- A read answered with a free draw (R49; log 6). -/
def answerFree (s : State) : Host.Outcome State Fault Refusal :=
  .next { s with busData := Config.undefinedRead s.freeIdx, freeIdx := s.freeIdx + 1 }

/-- A read that is defined only while the engine is not BUSY (R49). -/
def answerAtRest (w : Word) (s : State) : Host.Outcome State Fault Refusal :=
  if s.phase = .busy then answerFree s else answer w s

/-- A register read: STATUS always (R45), the others at rest (R47, R49), an offset the map does not name never (log 8). -/
def hostReadReg (off : BitVec 8) (s : State) : Host.Outcome State Fault Refusal :=
  if off = 0x04#8 then answer (statusWord s) s
  else
    match registerWord s off with
    | none => answerFree s
    | some w => answerAtRest w s

/-- A register write: `CTRL.START` (R44, 70_reset R271, R275), `SRC_LEN` (R46); the read-only registers and the reserved offsets
ignore it (R45, R47, R48); an offset the map does not name is refused (log 8). -/
def hostWriteReg (off : BitVec 8) (v : Word) (s : State) : Host.Outcome State Fault Refusal :=
  if off = 0x00#8 then .next (if v.getLsbD 0 ∧ s.phase ≠ .busy then startDecode s else s)
  else if off = 0x08#8 then .next (if s.phase = .busy then s else { s with srcLen := v })
  else if (registerWord s off).isSome then .next s
  else .refused .unalignedRegisterWrite

/-- A host write of a source byte (20_memory R60); none while BUSY (70_reset R274, log 7). -/
def hostWriteSrc (a : Word) (b : Byte) (s : State) : Host.Outcome State Fault Refusal :=
  if s.phase = .busy then .refused .srcWriteWhileBusy
  else if a.toNat < srcSpace then .next { s with src := cellInsert s.src a.toNat b }
  else .fault .srcOffsetOutsideSpace

/-- A host read of a source byte, zero-extended (log 9). -/
def hostReadSrc (a : Word) (s : State) : Host.Outcome State Fault Refusal :=
  if a.toNat < srcSpace then answerAtRest ((srcByte s a.toNat).setWidth 32) s else .fault .srcOffsetOutsideSpace

/-- One move of the host. -/
def hostStep (op : HostOp) (s : State) : Host.Outcome State Fault Refusal :=
  match op with
  | .yield => .next s
  | .hardReset => .next (hardReset s)
  | .writeReg off v => hostWriteReg off v s
  | .readReg off => hostReadReg off s
  | .writeSrc a b => hostWriteSrc a b s
  | .readSrc a => hostReadSrc a s
  | .readFrame k i => answerAtRest (frameWord s k.toNat i.toNat) s
  | .readDelay k => answerAtRest (delayWord s k.toNat) s
  | .readTag j => answerAtRest (tagLogWord s j.toNat) s

end Sys2Proof.Machine
end

