-- ==== Sys2Proof/Machine/Engine.lean ====
section
/-! DEFINITION. How the engine fetches and runs (70_reset R277: finer steps in rule order), who moves next, and where a table word is
placed for a fetch. -/

namespace Sys2Proof.Machine

/-- Decode a word and run what it spells. -/
def runWord (f : Format) (w : Nat) (s : State) : Host.Outcome State Fault Refusal :=
  match decode f w with
  | .ok i => exec i s
  | .error e => .fault (.undecodable e)

/-- One round of the walker loop up to the dispatch (41_block_walker R130). -/
def walkerStep (s : State) : Host.Outcome State Fault Refusal :=
  if srcEnd s ≤ s.cur.toNat then ends .truncated s
  else
    let tag := srcByte s s.cur.toNat
    runWord .tag8 tag.toNat (logTag tag s)

/-- The tag and label at `CUR` as the `ext16` word (30_encoding R103). -/
def extWord (s : State) : Nat := (srcByte s s.cur.toNat).toNat * 2 ^ 8 + (srcByte s (s.cur.toNat + 1)).toNat

/-- R140's dispatch on the label. -/
def extensionStep (s : State) : Host.Outcome State Fault Refusal := runWord .ext16 (extWord s) s

/-- One round of the loop of 42_lzw R174; `END` is R173. -/
def lzwStep (s : State) : Host.Outcome State Fault Refusal :=
  match readCode s with
  | (t, none) => .next (endLzw t)
  | (t, some c) => runWord (.lzwCode (lzwCtx t)) c.toNat t

/-- The choice of 43_compositor R223.5. -/
def disposeStep (s : State) : Host.Outcome State Fault Refusal := runWord .disposal3 s.gceDisposal.toNat s

/-- One step of the engine; none while `PHASE ≠ BUSY` (60_exceptions R256). -/
def engineStep (s : State) : Host.Outcome State Fault Refusal :=
  match s.phase with
  | .idle | .done => .next s
  | .busy =>
    match s.stage with
    | .container => .next (containerPhase s)
    | .walker => walkerStep s
    | .extension => extensionStep s
    | .lzwSetup => .next (lzwSetup s)
    | .lzw => lzwStep s
    | .compose => .next (composeStep s)
    | .dispose => disposeStep s
    | .retire => .next (retireImage s)

/-- Whose move it is (log 3): the host's, while the head of its list is a bus transaction; else the engine's. -/
def machineStep (s : State) : Host.Outcome State Fault Refusal :=
  match s.host with
  | [] => engineStep s
  | op :: rest => if op = .yield then engineStep { s with host := rest } else hostStep op { s with host := rest }

/-! ## Placing a table word -/

/-- Bytes stored at rising offsets of `SRC`. -/
def storeBytes (m : List Host.Cell) : Nat → List Byte → List Host.Cell
  | _, [] => m
  | a, b :: r => storeBytes (cellInsert m a b) (a + 1) r

/-- A table word's bytes, then zeros up to 16, the longest block of zero operands being APP's 15. -/
def placedBytes (nbits w : Nat) : List Byte := (tableBytes nbits w ++ List.replicate 16 0#8).take 16

/-- The state whose next step fetches and runs a table word (log 14): a disposal field in `GCE_DISPOSAL`, any other word in `SRC` at
`CUR` with `SRC_LEN` past it, the engine running at the stage that fetches the format and no host move pending. -/
def placeTableWord (s : State) (nbits w : Nat) : State :=
  match tableFormat nbits w with
  | some .disposal3 => { s with host := [], phase := .busy, stage := .dispose, gceDisposal := BitVec.ofNat 3 w }
  | some (.lzwCode _) | none => s
  | some .tag8 =>
    { s with
      host := []
      phase := .busy
      stage := .walker
      src := storeBytes s.src s.cur.toNat (placedBytes nbits w)
      srcLen := BitVec.ofNat 32 (max s.srcLen.toNat (s.cur.toNat + 16)) }
  | some .ext16 =>
    { s with
      host := []
      phase := .busy
      stage := .extension
      src := storeBytes s.src s.cur.toNat (placedBytes nbits w)
      srcLen := BitVec.ofNat 32 (max s.srcLen.toNat (s.cur.toNat + 16)) }

end Sys2Proof.Machine
end

