-- ==== Sys2Proof/Safety.lean ====
section
/-! DEFINITION. What an ended run is (70_reset R278), what it shows (R273), and the invariant a run keeps. -/

namespace Sys2Proof.Machine

/-! ## Ended runs -/

/-- The terminal statuses of 60_exceptions R241. -/
def Result.isTerminal (r : Result) : Bool :=
  match r with
  | .complete | .formatError | .truncated | .unsupported => true
  | .none | .unknownBlock | .unknownExtension | .badMinCodeSize | .lzwNoPrevious | .rectOutsideCanvas | .paletteIndex
  | .reservedDisposal | .frameOverflow | .canvasTooLarge => false

/-- A final state: the run ended with a terminal status (R278). -/
abbrev State.Final (s : State) : Prop := s.phase = .done ∧ s.result.isTerminal = true

/-- A run that ended with a fault. It is never final (60_exceptions R247). -/
abbrev State.Faulted (s : State) : Prop := s.phase = .done ∧ s.result.isFault = true

/-- The result tuple of a decode (R273). The screen registers are those of 10_state R26, `SIG` among them. -/
structure Observation where
  result : Result
  faultPos : Word
  cur : Word
  sig : Bytes3
  version : Bytes3
  canvasW : Half
  canvasH : Half
  hasGct : Bool
  gctSize : BitVec 9
  bgIndex : Byte
  frameCount : Word
  frames : List Frame
  tagCount : Word
  tagLog : List TagEntry
  deriving DecidableEq, Repr

/-- What a state shows of R273. -/
def observe (s : State) : Observation where
  result := s.result
  faultPos := s.faultPos
  cur := s.cur
  sig := s.sig
  version := s.version
  canvasW := s.canvasW
  canvasH := s.canvasH
  hasGct := s.hasGct
  gctSize := s.gctSize
  bgIndex := s.bgIndex
  frameCount := s.frameCount
  frames := s.frames
  tagCount := s.tagCount
  tagLog := s.tagLog

/-! ## Reading a run of codes -/

/-- The codes `readCode` answers when the width register is set to each of `ws` in turn. -/
def readCodesAt : List Nat → State → List (Option Code)
  | [], _ => []
  | w :: ws, s => (readCode (setCodeSize w s)).2 :: readCodesAt ws (readCode (setCodeSize w s)).1

/-! ## The invariant -/

/-- The sparse memories are canonical, and the code table has no slot past 4095 (10_state R34). -/
structure MemoryInv (s : State) : Prop where
  src : Memory.wf s.src
  table : CellsRising s.table
  slots : ∀ c ∈ s.table, c.1 < 4096

/-- The palettes (10_state R26-R28): 256 entries each, lengths up to 256, no table and no background index without `HAS_GCT`, no
mark in the global palette and at most one among the active palette's valid entries. -/
structure PaletteInv (s : State) : Prop where
  gpalLength : s.gpal.length = 256
  apalLength : s.apal.length = 256
  gctSize : s.gctSize.toNat ≤ 256
  apalLen : s.apalLen.toNat ≤ 256
  noTable : s.hasGct = false → s.gctSize = 0 ∧ s.bgIndex = 0
  gpalUnmarked : ∀ e ∈ s.gpal, e.t = false
  oneMark : (s.apal.take s.apalLen.toNat).countP (·.t) ≤ 1

/-- The control and result registers (10_state R21-R23, R47): an outcome exactly in DONE, `FAULT_POS` the cursor after a fault and
0 otherwise, and every per-decode field at its reset value in IDLE. -/
structure ResultInv (s : State) : Prop where
  outcome : s.phase = .done ↔ s.result ≠ .none
  faultPos : s.faultPos = if s.result.isFault then s.cur else 0
  idle : s.phase = .idle → clearDecode s = s

/-- The outputs (10_state R38, R39): the counts are the lengths, up to the log's capacity; every frame is a whole canvas; the frame
capacity is kept. -/
structure OutputInv (s : State) : Prop where
  tagLog : s.tagLog.length = match s.cfg.tagLogCapacity with | none => s.tagCount.toNat | some c => min s.tagCount.toNat c
  frameCount : s.frameCount.toNat = s.frames.length
  frameSize : ∀ f ∈ s.frames, f.pixels.length = canvasPixels s
  capacity : ∀ c, s.cfg.frameCapacity = some c → s.frames.length ≤ c

/-- A code that names a run made of slots below `n`: a literal, or a slot from `CLEAR_CODE + 2` up to `n` (42_lzw R183). -/
def namesRun (s : State) (n c : Nat) : Prop := c < s.clearCode.toNat ∨ (s.clearCode.toNat + 2 ≤ c ∧ c < n)

/-- `String(c)` as 42_lzw R183 defines it, without the walk: a literal names itself, a live slot the run of its prefix followed by
its symbol. -/
inductive NamesString (s : State) : Nat → List Sym → Prop where
  | literal {c : Nat} (h : c < s.clearCode.toNat) : NamesString s c [BitVec.ofNat 11 c]
  | slot {c : Nat} {e : Slot} {run : List Sym} (low : s.clearCode.toNat + 2 ≤ c) (live : c < s.nextCode.toNat)
      (read : cellLookup s.table c = some e) (rest : NamesString s e.prefixCode.toNat run) : NamesString s c (run ++ [e.sym])

/-- Between two codes (42_lzw R189), and what makes R100's classes exhaustive: `PREV_CODE` is empty only while the table is. Where
R189.3 has `NEXT_CODE ≤ 2^CODE_SIZE`, equality is reached only at 4096, or R185 would have widened. -/
structure LzwInv (s : State) : Prop where
  minCode : 2 ≤ s.minCodeSize.toNat ∧ s.minCodeSize.toNat ≤ 11
  clearCode : s.clearCode.toNat = 2 ^ s.minCodeSize.toNat
  eoiCode : s.eoiCode.toNat = s.clearCode.toNat + 1
  codeSize : s.minCodeSize.toNat + 1 ≤ s.codeSize.toNat ∧ s.codeSize.toNat ≤ 12
  codeMask : s.codeMask.toNat = 2 ^ s.codeSize.toNat - 1
  nextCode : s.clearCode.toNat + 2 ≤ s.nextCode.toNat ∧ s.nextCode.toNat ≤ 4096
  nextFits : s.nextCode.toNat < 2 ^ s.codeSize.toNat ∨ (s.nextCode.toNat = 4096 ∧ s.codeSize.toNat = 12)
  bitCnt : s.bitCnt.toNat ≤ 19
  bitBuf : s.bitBuf.toNat < 2 ^ s.bitCnt.toNat
  rdPtr : s.rdPtr.toNat ≤ s.data.length
  live : ∀ c, s.clearCode.toNat + 2 ≤ c → c < s.nextCode.toNat →
    ∃ e, cellLookup s.table c = some e ∧ namesRun s c e.prefixCode.toNat ∧ e.sym.toNat < s.clearCode.toNat
  prevNone : s.prevCode = none → s.nextCode.toNat = s.clearCode.toNat + 2
  prevSome : ∀ pc, s.prevCode = some pc → namesRun s s.nextCode.toNat pc.toNat
  symbols : ∀ x ∈ s.idx, x.toNat < s.clearCode.toNat

/-- The canvas and its snapshot have the canvas's size (10_state R36, R37). -/
def CanvasSized (s : State) : Prop := s.canvas.length = canvasPixels s ∧ s.snap.length = canvasPixels s

/-- An image block is being processed: it ends past its tag and not past N (41_block_walker R149). -/
def InImage (s : State) : Prop :=
  s.cur.toNat < s.blockEnd.toNat ∧ s.blockEnd.toNat ≤ srcEnd s ∧ s.data.length ≤ srcEnd s

/-- After a disposal 2 the canvas is empty (43_compositor R218, R222). -/
def EmptyAfter (d : BitVec 3) (s : State) : Prop := d = 2#3 → ∀ px ∈ s.canvas, px = .transparent

/-- No more tags than blocks and no more frames than images have been met, each block being at least one byte long: what keeps the
counts inside 32 bits. -/
def Counted (extraTags extraFrames : Nat) (s : State) : Prop :=
  s.tagCount.toNat ≤ s.cur.toNat + extraTags ∧ s.frames.length ≤ s.cur.toNat + extraFrames

/-- What holds at each stage of a running decode. -/
def StageInv (s : State) : Prop :=
  match s.stage with
  | .container => startDecode s = s
  | .walker => CanvasSized s ∧ s.cur.toNat ≤ srcEnd s ∧ Counted 0 0 s ∧ EmptyAfter s.prevDisposal s
  | .extension =>
    CanvasSized s ∧ s.cur.toNat + 2 ≤ srcEnd s ∧ srcByte s s.cur.toNat = 0x21#8 ∧ Counted 1 0 s ∧ EmptyAfter s.prevDisposal s
  | .lzwSetup => CanvasSized s ∧ InImage s ∧ Counted 1 0 s ∧ EmptyAfter s.prevDisposal s
  | .lzw => CanvasSized s ∧ InImage s ∧ Counted 1 0 s ∧ EmptyAfter s.prevDisposal s ∧ LzwInv s
  | .compose => CanvasSized s ∧ InImage s ∧ Counted 1 0 s ∧ EmptyAfter s.prevDisposal s
  | .dispose => CanvasSized s ∧ InImage s ∧ Counted 1 1 s
  | .retire => CanvasSized s ∧ InImage s ∧ Counted 1 1 s ∧ EmptyAfter s.gceDisposal s

/-- The invariant of every run. -/
structure Inv (s : State) : Prop where
  memory : MemoryInv s
  palette : PaletteInv s
  outcome : ResultInv s
  output : OutputInv s
  running : s.phase = .busy → StageInv s

/-- The next move is one the spec gives a meaning: not a host write of `SRC` while BUSY (70_reset R274), nor a host access the map
does not name (log 8, log 9). -/
def moveAllowed (s : State) : Bool :=
  match s.host with
  | .writeSrc a _ :: _ => decide (s.phase ≠ .busy) && decide (a.toNat < srcSpace)
  | .readSrc a :: _ => decide (a.toNat < srcSpace)
  | .writeReg off _ :: _ => (registerWord s off).isSome
  | _ => true

end Sys2Proof.Machine
end

