-- ==== Sys2Proof/Certificates/Slice0/Obligations.lean ====
section
/-! DEFINITION. What is claimed of the GIF decoder core: one definition a claim. "The move is the engine's" is `s.host = []`; `p` is
`CUR`, the offset of the current block. -/

open Sys2Proof Sys2Proof.Machine

/-! ## Encoding -/

/-- 30_encoding R85, R90, R101 and R100 on a few words written out from the tables; the codes are those of V-L2 after CLEAR, 0, 1
(95_test_vectors): `CLEAR_CODE = 4`, `NEXT_CODE = 7`. -/
def Obligations.SpecWordsDecode : Prop :=
  decode .tag8 0b00101100 = .ok .image ∧ decode .tag8 0b00100001 = .ok .extension ∧ decode .tag8 0b00111011 = .ok .trailer ∧
  decode .tag8 0x00 = .ok (.tagUnknown 0x00#8) ∧ decode .ext16 0x21F9 = .ok .gce ∧ decode .ext16 0x21FF = .ok .app ∧
  decode .ext16 0x21FE = .ok .comment ∧ decode .ext16 0x2101 = .ok .plainText ∧ decode .ext16 0x2199 = .ok (.extUnknown 0x99#8) ∧
  decode (.lzwCode ⟨4, 5, 7, some 1#12, 3⟩) 0b100 = .ok .clear ∧ decode (.lzwCode ⟨4, 5, 7, some 1#12, 3⟩) 0b101 = .ok .eoi ∧
  decode (.lzwCode ⟨4, 5, 7, some 1#12, 3⟩) 0b110 = .ok (.table 6#12) ∧
  decode (.lzwCode ⟨4, 5, 7, some 1#12, 3⟩) 0b111 = .ok (.kwkwk 7#12) ∧
  decode .disposal3 0b000 = .ok .disposeNone ∧ decode .disposal3 0b001 = .ok .disposeKeep ∧
  decode .disposal3 0b010 = .ok .disposeBackground ∧ decode .disposal3 0b011 = .ok .disposePrevious ∧
  decode .disposal3 0b101 = .ok (.disposeReserved 5#3)

/-- Decoding the encoding of any well-formed instruction gives it back, in every context whose class it is in. -/
def Obligations.DecodeEncodeRoundTrip : Prop :=
  ∀ (k : LzwCtx) (i : Instr), k.wf = true → i.wf = true → i.inClass k = true → decode (i.format k) (encode k i) = .ok i

/-- No two words of a format spell the same instruction: what decodes to `i` is the encoding of `i`, whose operands are well-formed
and in class. -/
def Obligations.EncodeDecodeRoundTrip : Prop :=
  ∀ (k : LzwCtx) (f : Format) (w : Nat) (i : Instr), k.wf = true → f = .tag8 ∨ f = .ext16 ∨ f = .lzwCode k ∨ f = .disposal3 →
    decode f w = .ok i → i.format k = f ∧ encode k i = w ∧ i.wf = true ∧ i.inClass k = true

/-- 30_encoding R100: in a context an image block reaches, every code that fits its width has one of the eight classes, and the
decoder finds it. -/
def Obligations.EveryCodeHasItsClass : Prop :=
  ∀ (k : LzwCtx) (c : Code), k.wf = true → c.toNat < 2 ^ k.size →
    (k.next < c.toNat → decode (.lzwCode k) c.toNat = .ok (.invalid c)) ∧
    (c.toNat = k.eoi → decode (.lzwCode k) c.toNat = .ok .eoi) ∧
    (c.toNat = k.clear → decode (.lzwCode k) c.toNat = .ok .clear) ∧
    (k.prev = none → c.toNat < k.clear → decode (.lzwCode k) c.toNat = .ok (.first c)) ∧
    (k.prev = none → k.eoi < c.toNat → c.toNat ≤ k.next → decode (.lzwCode k) c.toNat = .ok (.firstNonliteral c)) ∧
    (k.prev ≠ none → c.toNat < k.clear → decode (.lzwCode k) c.toNat = .ok (.literal c)) ∧
    (k.prev ≠ none → k.clear + 2 ≤ c.toNat → c.toNat < k.next → decode (.lzwCode k) c.toNat = .ok (.table c)) ∧
    (k.prev ≠ none → c.toNat = k.next → decode (.lzwCode k) c.toNat = .ok (.kwkwk c)) ∧
    (∃ i, decode (.lzwCode k) c.toNat = .ok i ∧ i.format k = .lzwCode k)

/-- 30_encoding R89, 41_block_walker R131: `CollectSubBlocks` finds exactly the complete sub-block chains below N, of chunks of 1 to
255 bytes, and answers their payload, the offset past the terminator and whether the chain was empty. -/
def Obligations.CollectSubBlocksFindsCompleteChains : Prop :=
  ∀ (s : State) (q : Nat) (r : SubBlocks),
    collectSubBlocks s q = some r ↔
      ∃ chunks : List (List Byte), (∀ c ∈ chunks, 1 ≤ c.length ∧ c.length ≤ 255) ∧ holdsBytes s q (encodeChain chunks) ∧
        r = ⟨chunks.flatten, q + (encodeChain chunks).length, chunks.isEmpty⟩

/-- 30_encoding R102: what `SUBBLOCKS(data)` writes into `SRC` is read back as `data`, whatever its length. -/
def Obligations.SubBlocksOfDataReadBack : Prop :=
  ∀ (s : State) (q : Nat) (data : List Byte), holdsBytes s q (encodeSubBlocks data) →
    collectSubBlocks s q = some ⟨data, q + (encodeSubBlocks data).length, data.isEmpty⟩

/-- 42_lzw R172 against 30_encoding R102: codes of 1 to 12 bits packed least significant bit first are read back one by one, each at
its width. -/
def Obligations.PackedCodesReadBack : Prop :=
  ∀ (s : State) (cs : List (Nat × Nat)), (∀ c ∈ cs, 1 ≤ c.2 ∧ c.2 ≤ 12 ∧ c.1 < 2 ^ c.2) → (encodeCodes cs).length < 2 ^ 32 →
    s.data = encodeCodes cs → s.bitBuf = 0 → s.bitCnt = 0 → s.rdPtr = 0 →
    readCodesAt (cs.map (·.2)) s = cs.map fun c => some (BitVec.ofNat 12 c.1)

/-- 30_encoding R86, R87: the ten descriptor bytes are read back field by field. -/
def Obligations.DescriptorReadsBack : Prop :=
  ∀ (s : State) (p : Nat) (left top w h : Half) (packed : Byte), holdsBytes s p (encodeDescriptor left top w h packed) →
    readDescriptor p s =
      { s with
        imgLeft := left
        imgTop := top
        imgW := w
        imgH := h
        imgLct := packed.getLsbD 7
        imgInterlace := packed.getLsbD 6
        imgLctSize := if packed.getLsbD 7 then BitVec.ofNat 9 (2 ^ (packed.toNat % 8 + 1)) else 0 }

/-! ## Memory and the container phase -/

/-- 20_memory R60, R62, 70_reset R272: while the engine is not BUSY a byte the host writes is the byte read back there, every other
byte reads as before, and a u16 is two bytes with the low one first; a host read at rest answers the byte. That the host reaches every
offset below 2^32 - 1 whatever N is, and that a read answers the byte zero-extended, is the model's reading of R60 and R272 (log 9). -/
def Obligations.SourceBytesReadBack : Prop :=
  (∀ (s : State) (a : Word) (b : Byte) (rest : List HostOp), s.host = .writeSrc a b :: rest → s.phase ≠ .busy →
    a.toNat < 2 ^ 32 - 1 →
    ∃ t, step s = .next t ∧ srcByte t a.toNat = b ∧ (∀ p, p ≠ a.toNat → srcByte t p = srcByte s p) ∧
      (∀ p, (srcU16 t p).toNat = (srcByte t p).toNat + 256 * (srcByte t (p + 1)).toNat) ∧
      t = { s with src := t.src, host := rest }) ∧
  (∀ (s : State) (a : Word) (rest : List HostOp), s.host = .readSrc a :: rest → s.phase ≠ .busy → a.toNat < 2 ^ 32 - 1 →
    ∃ w : Word, step s = .next { s with host := rest, busData := w } ∧ w.toNat = (srcByte s a.toNat).toNat)

/-- 40_container R112 to R118 and R120: with "GIF", the whole palette below N and a canvas the instance holds, the container phase
fills the screen registers and the global palette, allocates the canvas and hands over to the Block Walker. That the palette's entries
from its length on keep their content is the model's reading (log 19). -/
def Obligations.ContainerPhaseReadsTheScreen : Prop :=
  ∀ s : State, s.host = [] → s.phase = .busy → s.stage = .container → s.gpal.length = 256 →
    srcByte s 0 = 0x47#8 → srcByte s 1 = 0x49#8 → srcByte s 2 = 0x46#8 →
    let g := if (srcByte s 10).getLsbD 7 then 2 ^ ((srcByte s 10).toNat % 8 + 1) else 0
    let w := (srcByte s 6).toNat + 256 * (srcByte s 7).toNat
    let h := (srcByte s 8).toNat + 256 * (srcByte s 9).toNat
    13 + 3 * g ≤ srcEnd s → w * h ≤ s.cfg.maxCanvasPixels →
    ∃ t, step s = .next t ∧ t.sig = ⟨0x47#8, 0x49#8, 0x46#8⟩ ∧ t.version = ⟨srcByte s 3, srcByte s 4, srcByte s 5⟩ ∧
      t.canvasW.toNat = w ∧ t.canvasH.toNat = h ∧ t.hasGct = (srcByte s 10).getLsbD 7 ∧ t.gctSize.toNat = g ∧
      t.bgIndex = (if (srcByte s 10).getLsbD 7 then srcByte s 11 else 0) ∧
      (∀ j, j < g → t.gpal[j]? =
        some ⟨srcByte s (13 + 3 * j), srcByte s (13 + 3 * j + 1), srcByte s (13 + 3 * j + 2), false⟩) ∧
      (∀ j, g ≤ j → t.gpal[j]? = s.gpal[j]?) ∧
      t.canvas = List.replicate (w * h) .transparent ∧ t.snap = List.replicate (w * h) .transparent ∧
      t.cur.toNat = 13 + 3 * g ∧ t.stage = .walker ∧
      t = { s with
            sig := t.sig, version := t.version, canvasW := t.canvasW, canvasH := t.canvasH, hasGct := t.hasGct,
            gctSize := t.gctSize, bgIndex := t.bgIndex, gpal := t.gpal, canvas := t.canvas, snap := t.snap, cur := t.cur,
            stage := t.stage }

/-- 60_exceptions R243, 40_container R111, R116, R120: a file that does not begin with "GIF" ends `FORMAT_ERROR`, and nothing but
the registers of an ending is written; one that does, and ends before its screen descriptor or inside its palette, ends
`TRUNCATED` with no palette entry, canvas or frame written; a canvas of more pixels than the instance holds faults before it is
allocated, with `FAULT_POS` = `CUR`: that the p of 60_exceptions R249 is `CUR`, which is 0 throughout the container phase of a decode,
is the model's reading (log 21). -/
def Obligations.ContainerPhaseEndsEarly : Prop :=
  ∀ s : State, s.host = [] → s.phase = .busy → s.stage = .container →
    let gif := 3 ≤ srcEnd s ∧ srcByte s 0 = 0x47#8 ∧ srcByte s 1 = 0x49#8 ∧ srcByte s 2 = 0x46#8
    let g := if (srcByte s 10).getLsbD 7 then 2 ^ ((srcByte s 10).toNat % 8 + 1) else 0
    let w := (srcByte s 6).toNat + 256 * (srcByte s 7).toNat
    let h := (srcByte s 8).toNat + 256 * (srcByte s 9).toNat
    (¬gif → step s = .next { s with result := .formatError, faultPos := 0, phase := .done }) ∧
    (gif → srcEnd s < 13 →
      step s = .next { s with sig := ⟨0x47#8, 0x49#8, 0x46#8⟩, result := .truncated, faultPos := 0, phase := .done }) ∧
    (gif → 13 ≤ srcEnd s → srcEnd s < 13 + 3 * g →
      ∃ t, step s = .next t ∧ t.phase = .done ∧ t.result = .truncated ∧ t.faultPos = 0 ∧ t.cur = s.cur ∧ t.gpal = s.gpal ∧
        t.canvas = s.canvas ∧ t.snap = s.snap ∧ t.frames = s.frames ∧ t.frameCount = s.frameCount ∧ t.tagLog = s.tagLog) ∧
    (gif → 13 ≤ srcEnd s → 13 + 3 * g ≤ srcEnd s → s.cfg.maxCanvasPixels < w * h →
      ∃ t, step s = .next t ∧ t.phase = .done ∧ t.result = .canvasTooLarge ∧ t.faultPos = s.cur ∧ t.cur = s.cur ∧
        t.canvas = s.canvas ∧ t.snap = s.snap ∧ t.frames = s.frames ∧ t.tagLog = s.tagLog)

/-! ## The step and the blocks -/

/-- The move is the engine's when no host move is pending or the next one is `yield`, which is then used up (log 3); and a step of the
engine runs the instruction its fetch decodes: the tag at `CUR`, once logged; the tag and label; the code, once read; the disposal
field. -/
def Obligations.StepRunsTheDecodedInstruction : Prop :=
  (∀ s : State, s.host = [] → step s = engineStep s) ∧
  (∀ (s : State) (rest : List HostOp), s.host = .yield :: rest → step s = engineStep { s with host := rest }) ∧
  ∀ (s : State) (i : Instr), s.host = [] → s.phase = .busy →
    (s.stage = .walker → s.cur.toNat < srcEnd s → decode .tag8 (srcByte s s.cur.toNat).toNat = .ok i →
      step s = exec i (logTag (srcByte s s.cur.toNat) s)) ∧
    (s.stage = .extension →
      decode .ext16 ((srcByte s s.cur.toNat).toNat * 256 + (srcByte s (s.cur.toNat + 1)).toNat) = .ok i → step s = exec i s) ∧
    (∀ t c, s.stage = .lzw → readCode s = (t, some c) → decode (.lzwCode (lzwCtx t)) c.toNat = .ok i → step s = exec i t) ∧
    (s.stage = .dispose → decode .disposal3 s.gceDisposal.toNat = .ok i → step s = exec i s)

/-- 41_block_walker R130, 10_state R39: a tag that is dispatched is counted, and logged without a label while the log has room; a
buffer that ends between blocks is `TRUNCATED`, with `CUR` left and no tag logged. -/
def Obligations.TagsAreLoggedUntilTheBufferEnds : Prop :=
  (∀ (s : State) (tag : Byte), s.tagCount.toNat < 2 ^ 32 - 1 →
    (logTag tag s).tagCount.toNat = s.tagCount.toNat + 1 ∧
    (∀ c, s.cfg.tagLogCapacity = some c → c ≤ s.tagCount.toNat → (logTag tag s).tagLog = s.tagLog) ∧
    (s.cfg.tagLogCapacity = none ∨ (∃ c, s.cfg.tagLogCapacity = some c ∧ s.tagCount.toNat < c) →
      (logTag tag s).tagLog = s.tagLog ++ [⟨tag, none⟩]) ∧
    logTag tag s = { s with tagLog := (logTag tag s).tagLog, tagCount := (logTag tag s).tagCount }) ∧
  (∀ s : State, s.host = [] → s.phase = .busy → s.stage = .walker → srcEnd s ≤ s.cur.toNat →
    step s = .next { s with result := .truncated, faultPos := 0, phase := .done })

/-- 41_block_walker R132 to R135: IMAGE with its whole block below N loads the descriptor, takes the local table or a copy of the
global one, marks the pending transparent entry, and collects its data; nothing else changes but the model's `blockEnd` and
`stage` (log 1, log 2). That the palette's entries from its length on keep their content is the model's reading (log 19). -/
def Obligations.ImageBlockIsRead : Prop :=
  ∀ (s : State) (chunks : List (List Byte)), PaletteInv s → (∀ c ∈ chunks, 1 ≤ c.length ∧ c.length ≤ 255) →
    let p := s.cur.toNat
    let packed := srcByte s (p + 9)
    let l := if packed.getLsbD 7 then 2 ^ (packed.toNat % 8 + 1) else 0
    let mark := fun j : Nat => s.gceTflag && decide (s.gceTindex.toNat = j)
    holdsBytes s (p + 11 + 3 * l) (encodeChain chunks) →
    ∃ t, exec .image s = .next t ∧ t.imgLeft = srcU16 s (p + 1) ∧ t.imgTop = srcU16 s (p + 3) ∧ t.imgW = srcU16 s (p + 5) ∧
      t.imgH = srcU16 s (p + 7) ∧ t.imgLct = packed.getLsbD 7 ∧ t.imgInterlace = packed.getLsbD 6 ∧ t.imgLctSize.toNat = l ∧
      (packed.getLsbD 7 = true → t.apalLen.toNat = l ∧ ∀ j, j < l → t.apal[j]? =
        some ⟨srcByte s (p + 10 + 3 * j), srcByte s (p + 10 + 3 * j + 1), srcByte s (p + 10 + 3 * j + 2), mark j⟩) ∧
      (packed.getLsbD 7 = false → t.apalLen = s.gctSize ∧ ∀ j, j < s.gctSize.toNat →
        t.apal[j]? = s.gpal[j]?.map fun e => { e with t := mark j }) ∧
      (∀ j, t.apalLen.toNat ≤ j → t.apal[j]? = s.apal[j]?) ∧
      t.minCodeSize = srcByte s (p + 10 + 3 * l) ∧ t.data = chunks.flatten ∧
      t.blockEnd.toNat = p + 11 + 3 * l + (encodeChain chunks).length ∧ t.stage = .lzwSetup ∧
      t = { s with
            imgLeft := t.imgLeft, imgTop := t.imgTop, imgW := t.imgW, imgH := t.imgH, imgLct := t.imgLct,
            imgInterlace := t.imgInterlace, imgLctSize := t.imgLctSize, apal := t.apal, apalLen := t.apalLen,
            minCodeSize := t.minCodeSize, data := t.data, blockEnd := t.blockEnd, stage := t.stage }

/-- 41_block_walker R132, R133, R135 and 60_exceptions R248: an image block cut anywhere before its data terminator ends
`TRUNCATED` with no frame and with `CUR` at its tag, whatever else is wrong with the block. -/
def Obligations.CutImageBlockEndsTruncated : Prop :=
  ∀ s : State,
    let p := s.cur.toNat
    let l := if (srcByte s (p + 9)).getLsbD 7 then 2 ^ ((srcByte s (p + 9)).toNat % 8 + 1) else 0
    srcEnd s < p + 10 ∨ srcEnd s < p + 11 + 3 * l ∨ collectSubBlocks s (p + 11 + 3 * l) = none →
    ∃ t, exec .image s = .next t ∧ t.phase = .done ∧ t.result = .truncated ∧ t.faultPos = 0 ∧ t.cur = s.cur ∧
      t.frames = s.frames ∧ t.frameCount = s.frameCount ∧ t.canvas = s.canvas ∧ t.gpal = s.gpal ∧ t.tagLog = s.tagLog ∧
      t.gceDelay = s.gceDelay ∧ t.gceDisposal = s.gceDisposal ∧ t.prevDisposal = s.prevDisposal

/-- 41_block_walker R140: EXTENSION logs the label byte in the entry its tag made, and the extension of that label is next; with
no label byte below N the decode ends `TRUNCATED`, and the entry keeps no label. That a full log, which made no entry for the tag, is
left alone is the model's reading (log 16). -/
def Obligations.ExtensionLogsItsLabel : Prop :=
  ∀ s : State,
    (srcEnd s ≤ s.cur.toNat + 1 → exec .extension s = .next (endDecode .truncated s)) ∧
    (s.cur.toNat + 1 < srcEnd s → ∀ (earlier : List TagEntry) (tag : Byte), s.tagLog = earlier ++ [⟨tag, none⟩] →
      s.cfg.tagLogCapacity = none ∨ (∃ c, s.cfg.tagLogCapacity = some c ∧ s.tagCount.toNat ≤ c) → s.tagCount ≠ 0 →
      exec .extension s = .next { s with
        tagLog := earlier ++ [⟨tag, some (srcByte s (s.cur.toNat + 1))⟩], stage := .extension }) ∧
    (s.cur.toNat + 1 < srcEnd s → ∀ c, s.cfg.tagLogCapacity = some c → c < s.tagCount.toNat →
      exec .extension s = .next { s with stage := .extension })

/-- 41_block_walker R141: GCE overwrites the four graphics-control registers and moves past its 8 bytes, whatever its size and
terminator bytes say. -/
def Obligations.GceLoadsTheGraphicsControlRegisters : Prop :=
  ∀ s : State, let p := s.cur.toNat
    (srcEnd s < p + 8 → exec .gce s = .next (endDecode .truncated s)) ∧
    (p + 8 ≤ srcEnd s → ∃ t, exec .gce s = .next t ∧ t.gceTflag = (srcByte s (p + 3)).getLsbD 0 ∧
      t.gceDisposal.toNat = (srcByte s (p + 3)).toNat / 4 % 8 ∧
      t.gceDelay.toNat =
        ((srcByte s (p + 4)).toNat + 256 * (srcByte s (p + 5)).toNat) * (if s.cfg.delayScale = .tenMs then 10 else 100) ∧
      t.gceTindex = srcByte s (p + 6) ∧ t.cur.toNat = p + 8 ∧
      t = { s with
            gceTflag := t.gceTflag, gceDisposal := t.gceDisposal, gceDelay := t.gceDelay, gceTindex := t.gceTindex,
            cur := t.cur, stage := .walker })

/-- 41_block_walker R142: APP moves past its 14 bytes and its sub-blocks and writes nothing else; cut short it is `TRUNCATED`. -/
def Obligations.AppIsSkipped : Prop :=
  ∀ s : State, let p := s.cur.toNat
    (srcEnd s < p + 14 ∨ collectSubBlocks s (p + 14) = none → exec .app s = .next (endDecode .truncated s)) ∧
    (∀ chunks : List (List Byte), (∀ c ∈ chunks, 1 ≤ c.length ∧ c.length ≤ 255) → holdsBytes s (p + 14) (encodeChain chunks) →
      ∃ t, exec .app s = .next t ∧ t.cur.toNat = p + 14 + (encodeChain chunks).length ∧
        t = { s with cur := t.cur, stage := .walker })

/-- 41_block_walker R143: COMMENT moves past its sub-blocks and writes nothing else; an empty first sub-block, or a chain cut short,
ends the decode `TRUNCATED`. -/
def Obligations.CommentIsSkippedOrMalformed : Prop :=
  ∀ s : State, let p := s.cur.toNat
    (collectSubBlocks s (p + 2) = none → exec .comment s = .next (endDecode .truncated s)) ∧
    (holdsBytes s (p + 2) [0x00#8] → exec .comment s = .next (endDecode .truncated s)) ∧
    (∀ chunks : List (List Byte), chunks ≠ [] → (∀ c ∈ chunks, 1 ≤ c.length ∧ c.length ≤ 255) →
      holdsBytes s (p + 2) (encodeChain chunks) →
      ∃ t, exec .comment s = .next t ∧ t.cur.toNat = p + 2 + (encodeChain chunks).length ∧
        t = { s with cur := t.cur, stage := .walker })

/-- 41_block_walker R144, R145, R147: the Plain Text Extension ends the decode `UNSUPPORTED`; an unknown label and an unknown tag
fault, at the block's offset; `CUR` stays, and so does everything else. -/
def Obligations.UnsupportedAndUnknownBlocksEnd : Prop :=
  ∀ s : State,
    exec .plainText s = .next { s with result := .unsupported, faultPos := 0, phase := .done } ∧
    (∀ l, exec (.extUnknown l) s = .next { s with result := .unknownExtension, faultPos := s.cur, phase := .done }) ∧
    (∀ b, exec (.tagUnknown b) s = .next { s with result := .unknownBlock, faultPos := s.cur, phase := .done })

/-- 41_block_walker R146: TRAILER moves past its byte and ends the decode `COMPLETE`; every other register, the frames and the tag
log stay. -/
def Obligations.TrailerCompletesTheDecode : Prop :=
  ∀ s : State, s.cur.toNat < srcEnd s →
    ∃ t, exec .trailer s = .next t ∧ t.cur.toNat = s.cur.toNat + 1 ∧
      t = { s with cur := t.cur, result := .complete, faultPos := 0, phase := .done }

/-- 60_exceptions R249, R241: an ending writes `RESULT`, `FAULT_POS` and `PHASE`, a fault's position being the block's offset and a
terminal status's 0; everything else is kept. That the block's offset is `CUR` is log 21. -/
def Obligations.EndingsRecordTheirResult : Prop :=
  ∀ (r : Result) (s : State),
    endDecode r s =
      { s with result := r, faultPos := if 0x81 ≤ r.code.toNat then s.cur else 0, phase := .done } ∧
    (r.isFault = true ↔ 0x81 ≤ r.code.toNat ∧ r.code.toNat ≤ 0x89) ∧
    (r.isTerminal = true ↔ 0x01 ≤ r.code.toNat ∧ r.code.toNat ≤ 0x04)

/-! ## The LZW decompressor -/

/-- 42_lzw R171, R170: a minimum code size outside 2..11 faults; any other sets the registers up, a code being readable next. -/
def Obligations.LzwSetupChecksAndInitialises : Prop :=
  ∀ s : State, s.host = [] → s.phase = .busy → s.stage = .lzwSetup →
    (s.minCodeSize.toNat < 2 ∨ 11 < s.minCodeSize.toNat →
      step s = .next { s with result := .badMinCodeSize, faultPos := s.cur, phase := .done }) ∧
    (2 ≤ s.minCodeSize.toNat → s.minCodeSize.toNat ≤ 11 →
      ∃ t, step s = .next t ∧ t.clearCode.toNat = 2 ^ s.minCodeSize.toNat ∧ t.eoiCode.toNat = 2 ^ s.minCodeSize.toNat + 1 ∧
        t.codeSize.toNat = s.minCodeSize.toNat + 1 ∧ t.codeMask.toNat = 2 ^ (s.minCodeSize.toNat + 1) - 1 ∧
        t.nextCode.toNat = 2 ^ s.minCodeSize.toNat + 2 ∧ t.prevCode = none ∧ t.bitBuf = 0 ∧ t.bitCnt = 0 ∧ t.rdPtr = 0 ∧
        t.idx = [] ∧ t.stage = .lzw ∧
        t = { s with
              clearCode := t.clearCode, eoiCode := t.eoiCode, codeSize := t.codeSize, codeMask := t.codeMask,
              nextCode := t.nextCode, prevCode := t.prevCode, bitBuf := t.bitBuf, bitCnt := t.bitCnt, rdPtr := t.rdPtr,
              idx := t.idx, stage := t.stage })

/-- 42_lzw R173, R175, R176: INVALID, EOI and the end of the data end the decompression of this block: `IDX` stands as it is, no
`RESULT` is written and the decode goes on to the compositor. -/
def Obligations.StreamEndsLeaveTheIndexStream : Prop :=
  (∀ (s : State) (c : Code), exec (.invalid c) s = .next { s with stage := .compose }) ∧
  (∀ s : State, exec .eoi s = .next { s with stage := .compose }) ∧
  (∀ s : State, s.host = [] → s.phase = .busy → s.stage = .lzw → s.data.length < 2 ^ 32 → s.rdPtr.toNat ≤ s.data.length →
    s.bitCnt.toNat + 8 * (s.data.length - s.rdPtr.toNat) < s.codeSize.toNat →
    ∃ t, step s = .next t ∧ t.stage = .compose ∧ t.phase = .busy ∧ t.idx = s.idx ∧
      t = { s with bitBuf := t.bitBuf, bitCnt := t.bitCnt, rdPtr := t.rdPtr, stage := t.stage })

/-- 42_lzw R177: CLEAR returns the width, the mask, the next code and the previous code to their start; `IDX`, the bit buffer and
the table's slots stay. -/
def Obligations.ClearResetsTheCodes : Prop :=
  ∀ s : State, LzwInv s →
    ∃ t, exec .clear s = .next t ∧ t.codeSize.toNat = s.minCodeSize.toNat + 1 ∧
      t.codeMask.toNat = 2 ^ (s.minCodeSize.toNat + 1) - 1 ∧ t.nextCode.toNat = s.clearCode.toNat + 2 ∧ t.prevCode = none ∧
      t = { s with codeSize := t.codeSize, codeMask := t.codeMask, nextCode := t.nextCode, prevCode := t.prevCode }

/-- 42_lzw R178, R179: the first code after the start or a CLEAR: a literal is emitted and remembered, no entry being added and no
width changed; any other faults. -/
def Obligations.FirstCodeEmitsOrFaults : Prop :=
  (∀ (s : State) (c : Code), c.toNat < s.clearCode.toNat → s.clearCode.toNat ≤ 2048 →
    ∃ x : Sym, x.toNat = c.toNat ∧ exec (.first c) s = .next { s with idx := s.idx ++ [x], prevCode := some c }) ∧
  (∀ (s : State) (c : Code),
    exec (.firstNonliteral c) s = .next { s with result := .lzwNoPrevious, faultPos := s.cur, phase := .done })

/-- 42_lzw R184, R185, R186: an append below 4096 writes the slot `NEXT_CODE` and moves it on, leaving every other slot; the width
grows exactly when `NEXT_CODE` reaches 2^CODE_SIZE at or below 4095; with the table full nothing changes. -/
def Obligations.AddEntryAppendsAndGrows : Prop :=
  ∀ (s : State) (pc : Code) (k : Sym), s.codeSize.toNat ≤ 12 →
    (4096 ≤ s.nextCode.toNat → addEntry pc k s = s) ∧
    (s.nextCode.toNat < 4096 →
      let t := addEntry pc k s
      t.nextCode.toNat = s.nextCode.toNat + 1 ∧ cellLookup t.table s.nextCode.toNat = some ⟨pc, k⟩ ∧
      (∀ c, c ≠ s.nextCode.toNat → cellLookup t.table c = cellLookup s.table c) ∧
      (s.nextCode.toNat + 1 = 2 ^ s.codeSize.toNat → s.nextCode.toNat + 1 ≤ 4095 →
        t.codeSize.toNat = s.codeSize.toNat + 1 ∧ t.codeMask.toNat = 2 ^ (s.codeSize.toNat + 1) - 1) ∧
      (s.nextCode.toNat + 1 ≠ 2 ^ s.codeSize.toNat ∨ s.nextCode.toNat + 1 = 4096 →
        t.codeSize = s.codeSize ∧ t.codeMask = s.codeMask) ∧
      t = { s with table := t.table, nextCode := t.nextCode, codeSize := t.codeSize, codeMask := t.codeMask })

/-- 42_lzw R180, R187: LITERAL emits itself, appends (previous code, itself) and becomes the previous code. -/
def Obligations.LiteralEmitsAndAppends : Prop :=
  ∀ (s : State) (c pc : Code), s.prevCode = some pc → c.toNat < s.clearCode.toNat → s.clearCode.toNat ≤ 2048 →
    ∃ x : Sym, x.toNat = c.toNat ∧
      exec (.literal c) s = .next { addEntry pc x { s with idx := s.idx ++ [x] } with prevCode := some c }

/-- 42_lzw R183, R189.6, R189.8: between codes every literal and every live slot names one non-empty run, which the walk finds. -/
def Obligations.EveryLiveCodeNamesARun : Prop :=
  ∀ (s : State) (c : Code), LzwInv s → namesRun s s.nextCode.toNat c.toNat →
    ∃ run : List Sym, run ≠ [] ∧ stringOf s c = some run ∧ NamesString s c.toNat run ∧
      (∀ other, NamesString s c.toNat other → other = run) ∧ ∀ x ∈ run, x.toNat < s.clearCode.toNat

/-- 42_lzw R181, R187: TABLE emits the run its code names, appends (previous code, first symbol of the run) and becomes the previous
code. -/
def Obligations.TableEmitsItsRunAndAppends : Prop :=
  ∀ (s : State) (c pc : Code), LzwInv s → s.prevCode = some pc → s.clearCode.toNat + 2 ≤ c.toNat → c.toNat < s.nextCode.toNat →
    ∃ (k : Sym) (rest : List Sym), NamesString s c.toNat (k :: rest) ∧
      exec (.table c) s = .next { addEntry pc k { s with idx := s.idx ++ (k :: rest) } with prevCode := some c }

/-- 42_lzw R182, R187: KWKWK emits the previous code's run and its first symbol again, appends, becomes the previous code, and its
new slot then names exactly the run just emitted. -/
def Obligations.KwkwkDefinesTheSlotItNames : Prop :=
  ∀ (s : State) (c pc : Code), LzwInv s → s.prevCode = some pc → c.toNat = s.nextCode.toNat →
    ∃ (k : Sym) (rest : List Sym) (t : State), NamesString s pc.toNat (k :: rest) ∧ exec (.kwkwk c) s = .next t ∧
      t = { addEntry pc k { s with idx := s.idx ++ (k :: rest ++ [k]) } with prevCode := some c } ∧
      NamesString t c.toNat (k :: rest ++ [k])

/-- Outside their classes of 30_encoding R100, in states no decode reaches, LITERAL, TABLE and KWKWK stop by name: with no previous
code, and on a walk into a slot that is not live. This is the model's choice (log 12). -/
def Obligations.CodesOutOfClassStopByName : Prop :=
  ∀ (s : State) (c : Code),
    (s.prevCode = none → exec (.literal c) s = .fault .codeOutOfClass ∧ exec (.table c) s = .fault .codeOutOfClass ∧
      exec (.kwkwk c) s = .fault .codeOutOfClass) ∧
    (s.prevCode ≠ none → stringOf s c = none → exec (.table c) s = .fault .deadTableSlot) ∧
    (∀ pc, s.prevCode = some pc → stringOf s pc = none → exec (.kwkwk c) s = .fault .deadTableSlot)

/-- 42_lzw R189: what holds between codes still holds after any code, until the decompression ends. -/
def Obligations.LzwInvariantIsKept : Prop :=
  ∀ s t : State, s.phase = .busy → s.stage = .lzw → s.data.length < 2 ^ 32 → LzwInv s → engineStep s = .next t → t.stage = .lzw →
    LzwInv t

/-! ## The compositor -/

/-- 43_compositor R210, R211, R213, 60_exceptions R248: a rectangle that is not inside the canvas faults before any pixel is written;
a pixel whose index is past the palette faults, and the canvas keeps what the pixels before the first such one wrote. The snapshot
has been taken. -/
def Obligations.CompositorFaultsInOrder : Prop :=
  ∀ s : State, s.host = [] → s.phase = .busy → s.stage = .compose →
    let inside := s.imgLeft.toNat + s.imgW.toNat ≤ s.canvasW.toNat ∧ s.imgTop.toNat + s.imgH.toNat ≤ s.canvasH.toNat
    (¬inside → step s = .next { s with snap := s.canvas, result := .rectOutsideCanvas, faultPos := s.cur, phase := .done }) ∧
    (∀ k : Nat, inside → s.apal.length = 256 → s.apalLen.toNat ≤ 256 → k < s.imgW.toNat * s.imgH.toNat →
      s.apalLen.toNat ≤ pixelIndex s k → (∀ j, j < k → pixelIndex s j < s.apalLen.toNat) →
      step s = .next { s with
        snap := s.canvas, canvas := (paint s k 0 s.canvas).1, result := .paletteIndex, faultPos := s.cur, phase := .done })

/-- 43_compositor R212 to R215: the k-th pixel of the rectangle, in row order, takes index `IDX[k]`, or `BG_INDEX` where the index
stream is shorter. With the rectangle inside the canvas, after its first `n` pixels, whose indices are in the palette, each of them has
its entry's pixel, unless the entry is transparent and the previous disposal is not 2; the pixels from the n-th on, and those outside
the rectangle, stay. With n = `IMG_W` * `IMG_H` that is the whole rectangle. -/
def Obligations.RectangleIsPainted : Prop :=
  (∀ (s : State) (k : Nat), (∀ h : k < s.idx.length, pixelIndex s k = s.idx[k].toNat) ∧
    (s.idx.length ≤ k → pixelIndex s k = s.bgIndex.toNat)) ∧
  (∀ s : State, paintRect s = paint s (s.imgW.toNat * s.imgH.toNat) 0 s.canvas) ∧
  ∀ (s : State) (n : Nat) (px : Nat → PalEntry), s.canvas.length = s.canvasW.toNat * s.canvasH.toNat →
    s.imgLeft.toNat + s.imgW.toNat ≤ s.canvasW.toNat → s.imgTop.toNat + s.imgH.toNat ≤ s.canvasH.toNat →
    n ≤ s.imgW.toNat * s.imgH.toNat →
    (∀ k, k < n → pixelIndex s k < s.apalLen.toNat ∧ s.apal[pixelIndex s k]? = some (px k)) →
    (paint s n 0 s.canvas).2 = true ∧
    (∀ row col, row < s.imgH.toNat → col < s.imgW.toNat →
      let k := row * s.imgW.toNat + col
      let i := (s.imgTop.toNat + row) * s.canvasW.toNat + s.imgLeft.toNat + col
      (k < n → (paint s n 0 s.canvas).1[i]? =
        if (px k).t = true ∧ s.prevDisposal ≠ 2#3 then s.canvas[i]?
        else some (if (px k).t then .transparent else .rgb (px k).r (px k).g (px k).b)) ∧
      (n ≤ k → (paint s n 0 s.canvas).1[i]? = s.canvas[i]?)) ∧
    (∀ x y, x < s.canvasW.toNat → y < s.canvasH.toNat →
      x < s.imgLeft.toNat ∨ s.imgLeft.toNat + s.imgW.toNat ≤ x ∨ y < s.imgTop.toNat ∨ s.imgTop.toNat + s.imgH.toNat ≤ y →
      (paint s n 0 s.canvas).1[y * s.canvasW.toNat + x]? = s.canvas[y * s.canvasW.toNat + x]?)

/-- 43_compositor R210, R216: when the rectangle is painted whole, a copy of the canvas is emitted with the pending delay, unless the
frame capacity is reached, which faults before the frame is appended. -/
def Obligations.PaintedCanvasIsEmitted : Prop :=
  ∀ s : State, s.host = [] → s.phase = .busy → s.stage = .compose →
    s.imgLeft.toNat + s.imgW.toNat ≤ s.canvasW.toNat → s.imgTop.toNat + s.imgH.toNat ≤ s.canvasH.toNat →
    (paintRect s).2 = true →
    (s.cfg.frameCapacity = none ∨ (∃ c, s.cfg.frameCapacity = some c ∧ s.frameCount.toNat < c) →
      step s = .next { s with
        snap := s.canvas, canvas := (paintRect s).1, frames := s.frames ++ [⟨(paintRect s).1, s.gceDelay⟩],
        frameCount := s.frameCount + 1, stage := .dispose }) ∧
    (∀ c, s.cfg.frameCapacity = some c → c ≤ s.frameCount.toNat →
      step s = .next { s with
        snap := s.canvas, canvas := (paintRect s).1, result := .frameOverflow, faultPos := s.cur, phase := .done })

/-- 43_compositor R217, R218: disposal 0 and 1 leave the canvas untouched; disposal 2 clears the whole canvas to `Transparent`.
Nothing else changes but the model's stage. -/
def Obligations.DisposalsKeepOrClearTheCanvas : Prop :=
  ∀ s : State,
    exec .disposeNone s = .next { s with stage := .retire } ∧
    exec .disposeKeep s = .next { s with stage := .retire } ∧
    exec .disposeBackground s = .next { s with
      canvas := List.replicate (s.canvasW.toNat * s.canvasH.toNat) .transparent, stage := .retire }

/-- 43_compositor R219, R210: disposal 3 restores the canvas to the snapshot, so the canvas after it is the one before this frame's
pixels. -/
def Obligations.PreviousRestoresTheSnapshot : Prop :=
  (∀ s : State, exec .disposePrevious s = .next { s with canvas := s.snap, stage := .retire }) ∧
  ∀ s t u : State, s.host = [] → s.phase = .busy → s.stage = .compose → step s = .next t → t.phase = .busy →
    exec .disposePrevious t = .next u → u.canvas = s.canvas

/-- 43_compositor R220: disposal 4..7 faults under the policy FAULT, the frame staying emitted, and acts as no action under the
other. -/
def Obligations.ReservedDisposalFollowsThePolicy : Prop :=
  ∀ (s : State) (v : BitVec 3),
    (s.cfg.reservedDisposal = .fault →
      exec (.disposeReserved v) s = .next { s with result := .reservedDisposal, faultPos := s.cur, phase := .done }) ∧
    (s.cfg.reservedDisposal = .asNoAction → exec (.disposeReserved v) s = .next { s with stage := .retire })

/-- 43_compositor R221, 41_block_walker R137, R138: the end of an image block remembers its disposal method, zeroes the
graphics-control registers and moves `CUR` past the block. -/
def Obligations.ImageBlockRetires : Prop :=
  ∀ s : State, s.host = [] → s.phase = .busy → s.stage = .retire →
    step s = .next { s with
      prevDisposal := s.gceDisposal, gceDelay := 0, gceDisposal := 0, gceTflag := false, gceTindex := 0, cur := s.blockEnd,
      stage := .walker }

/-- 43_compositor R222: no frame depends on the previous disposal being tested against 2. From a state a run reaches, composing
with any other value in `PREV_DISPOSAL` gives the same outcome, that register apart. -/
def Obligations.TransparencyTestNeverChangesAFrame : Prop :=
  ∀ (s : State) (d : BitVec 3), Inv s → s.phase = .busy → s.stage = .compose → d ≠ 2#3 →
    composeStep { s with prevDisposal := d } = { composeStep s with prevDisposal := d }

/-! ## The host interface -/

/-- 70_reset R271, 10_state R44, 70_reset R275: a write of `CTRL` with bit 0 set starts a decode unless one is running; START
returns every per-decode field to its reset value and keeps `SRC`, `SRC_LEN` and the configuration, and the model's own record of the
host (log 3 to 6). -/
def Obligations.StartBeginsADecode : Prop :=
  ∀ (s : State) (v : Word) (rest : List HostOp), s.host = .writeReg 0x00#8 v :: rest →
    (v.getLsbD 0 = true → s.phase ≠ .busy →
      step s = .next { State.reset with
        cfg := s.cfg, src := s.src, srcLen := s.srcLen, host := rest, busData := s.busData, freeIdx := s.freeIdx,
        srcEpoch := s.srcEpoch, phase := .busy }) ∧
    (v.getLsbD 0 = false ∨ s.phase = .busy → step s = .next { s with host := rest })

/-- 10_state R46, R47, R48, 70_reset R274: a write of `SRC_LEN` takes effect unless a decode is running; the read-only registers and
the reserved offsets ignore writes. -/
def Obligations.OtherRegisterWrites : Prop :=
  ∀ (s : State) (off : BitVec 8) (v : Word) (rest : List HostOp), s.host = .writeReg off v :: rest →
    (off = 0x08#8 → s.phase ≠ .busy → step s = .next { s with srcLen := v, host := rest }) ∧
    (off = 0x08#8 → s.phase = .busy → step s = .next { s with host := rest }) ∧
    (off ∈ [0x04#8, 0x0C#8, 0x10#8, 0x14#8, 0x18#8, 0x1C#8, 0x20#8, 0x24#8] → step s = .next { s with host := rest }) ∧
    (0x28 ≤ off.toNat → step s = .next { s with host := rest })

/-- 10_state R43, R45: what the registers read at rest, field by field; `STATUS` also while BUSY. -/
def Obligations.RegistersReadTheirFields : Prop :=
  ∀ (s : State) (off : BitVec 8) (rest : List HostOp), s.host = .readReg off :: rest →
    (off = 0x04#8 → ∃ w : Word, step s = .next { s with host := rest, busData := w } ∧
      w.toNat = (match s.phase with | .idle => 0 | .busy => 1 | .done => 2) + 2 ^ 8 * s.result.code.toNat) ∧
    (s.phase ≠ .busy → off.toNat % 4 = 0 ∨ 0x28 ≤ off.toNat → ∃ w : Word, step s = .next { s with host := rest, busData := w } ∧
      (off = 0x00#8 → w = 0) ∧ (off = 0x08#8 → w = s.srcLen) ∧ (off = 0x0C#8 → w = s.cur) ∧
      (off = 0x10#8 → w.toNat = s.canvasW.toNat + 2 ^ 16 * s.canvasH.toNat) ∧
      (off = 0x14#8 → w.toNat = s.hasGct.toNat + 2 ^ 4 * s.gctSize.toNat + 2 ^ 16 * s.bgIndex.toNat) ∧
      (off = 0x18#8 → w.toNat = s.version.b0.toNat + 2 ^ 8 * s.version.b1.toNat + 2 ^ 16 * s.version.b2.toNat) ∧
      (off = 0x1C#8 → w = s.frameCount) ∧ (off = 0x20#8 → w = s.faultPos) ∧ (off = 0x24#8 → w = s.tagCount) ∧
      (0x28 ≤ off.toNat → w = 0))

/-- 20_memory R68, 10_state R50: at rest the frame window reads the emitted frames, pixel words and delays, and 0 outside them. -/
def Obligations.FrameWindowReadsTheFrames : Prop :=
  ∀ (s : State) (k i : Word) (rest : List HostOp), Inv s → s.phase ≠ .busy →
    (s.host = .readFrame k i :: rest → ∃ w : Word, step s = .next { s with host := rest, busData := w } ∧
      (s.frames.length ≤ k.toNat ∨ s.canvasW.toNat * s.canvasH.toNat ≤ i.toNat → w = 0) ∧
      (∀ f px, s.frames[k.toNat]? = some f → f.pixels[i.toNat]? = some px →
        w.toNat = match px with
          | .transparent => 0
          | .rgb r g b => 2 ^ 24 + 2 ^ 16 * r.toNat + 2 ^ 8 * g.toNat + b.toNat) ∧
      (k.toNat < s.frames.length → i.toNat < s.canvasW.toNat * s.canvasH.toNat →
        ∃ f px, s.frames[k.toNat]? = some f ∧ f.pixels[i.toNat]? = some px)) ∧
    (s.host = .readDelay k :: rest →
      step s = .next { s with host := rest, busData := ((s.frames[k.toNat]?).map (·.delayMs)).getD 0 })

/-- 20_memory R69: at rest the tag-log window reads the stored entries, the tag, bit 8 and the label, and 0 beyond them. -/
def Obligations.TagWindowReadsTheLog : Prop :=
  ∀ (s : State) (j : Word) (rest : List HostOp), s.phase ≠ .busy → s.host = .readTag j :: rest →
    ∃ w : Word, step s = .next { s with host := rest, busData := w } ∧ (s.tagLog.length ≤ j.toNat → w = 0) ∧
      (∀ tag, s.tagLog[j.toNat]? = some ⟨tag, none⟩ → w.toNat = tag.toNat) ∧
      (∀ tag label, s.tagLog[j.toNat]? = some ⟨tag, some label⟩ → w.toNat = tag.toNat + 2 ^ 8 + 2 ^ 16 * label.toNat)

/-- 10_state R49: while BUSY any read but of `STATUS` answers an unspecified value, a fresh one each time, and changes nothing else.
The word is the model's free value: nothing is known of it (log 6); a read at an offset the map does not name is answered alike
(log 8). -/
def Obligations.ReadsWhileBusyAreUnspecified : Prop :=
  ∀ (s : State) (op : HostOp) (rest : List HostOp), s.host = op :: rest → s.phase = .busy →
    (∃ off, off ≠ 0x04#8 ∧ op = .readReg off) ∨ (∃ a : Word, a.toNat < 2 ^ 32 - 1 ∧ op = .readSrc a) ∨
      (∃ k i, op = .readFrame k i) ∨ (∃ k, op = .readDelay k) ∨ (∃ j, op = .readTag j) →
    ∃ w : Word, step s = .next { s with host := rest, busData := w, freeIdx := s.freeIdx + 1 }

/-- 70_reset R270, 10_state R51: after a hardware reset, asserted at any time, every register reads its reset value; the model keeps
the configuration, the pending host moves, the bus's last word and its counters (log 15). -/
def Obligations.HardwareResetRestoresEveryField : Prop :=
  ∀ (s : State) (rest : List HostOp), s.host = .hardReset :: rest →
    step s = .next { State.reset with
      cfg := s.cfg, host := rest, busData := s.busData, freeIdx := s.freeIdx, srcEpoch := s.srcEpoch + 1 }

/-- 10_state R51: the reset values of the table, those the spec gives. -/
def Obligations.ResetValuesAreTheSpecs : Prop :=
  let r := State.reset
  r.phase = .idle ∧ r.result.code = 0 ∧ r.faultPos = 0 ∧ r.cur = 0 ∧ r.srcLen = 0 ∧ r.sig = ⟨0, 0, 0⟩ ∧ r.version = ⟨0, 0, 0⟩ ∧
  r.canvasW = 0 ∧ r.canvasH = 0 ∧ r.hasGct = false ∧ r.gctSize = 0 ∧ r.bgIndex = 0 ∧ r.gpal.length = 256 ∧ r.apal.length = 256 ∧
  (∀ e ∈ r.gpal ++ r.apal, e = ⟨0, 0, 0, false⟩) ∧ r.apalLen = 0 ∧ r.gceDelay = 0 ∧ r.gceDisposal = 0 ∧ r.gceTflag = false ∧
  r.gceTindex = 0 ∧ r.prevDisposal = 0 ∧ r.imgLeft = 0 ∧ r.imgTop = 0 ∧ r.imgW = 0 ∧ r.imgH = 0 ∧ r.imgLct = false ∧
  r.imgLctSize = 0 ∧ r.imgInterlace = false ∧ r.minCodeSize = 0 ∧ r.data = [] ∧ r.clearCode = 0 ∧ r.eoiCode = 0 ∧ r.codeSize = 0 ∧
  r.codeMask = 0 ∧ r.nextCode = 0 ∧ r.prevCode = none ∧ r.bitBuf = 0 ∧ r.bitCnt = 0 ∧ r.rdPtr = 0 ∧ r.idx = [] ∧ r.canvas = [] ∧
  r.snap = [] ∧ r.frames = [] ∧ r.frameCount = 0 ∧ r.tagLog = [] ∧ r.tagCount = 0

/-! ## The whole machine -/

/-- 60_exceptions R256, 70_reset R270: while `PHASE` is not BUSY the engine performs no step, and nothing changes: the machine's step
answers the state it was given (log 18). -/
def Obligations.EngineRestsUnlessBusy : Prop :=
  ∀ s : State, s.host = [] → s.phase ≠ .busy → step s = .next s

/-- 20_memory R60, 10_state R25, R26, R27: the engine never writes `SRC`, `SRC_LEN` or the configuration, and after the container
phase no rule writes the screen registers or the global palette; nor does it touch what belongs to the host. -/
def Obligations.EngineNeverWritesSourceOrScreen : Prop :=
  ∀ s t : State, engineStep s = .next t →
    t.src = s.src ∧ t.srcLen = s.srcLen ∧ t.cfg = s.cfg ∧ t.host = s.host ∧ t.busData = s.busData ∧ t.freeIdx = s.freeIdx ∧
    t.srcEpoch = s.srcEpoch ∧ (∀ p, srcByte t p = srcByte s p) ∧
    (s.stage ≠ .container → t.sig = s.sig ∧ t.version = s.version ∧ t.canvasW = s.canvasW ∧ t.canvasH = s.canvasH ∧
      t.hasGct = s.hasGct ∧ t.gctSize = s.gctSize ∧ t.bgIndex = s.bgIndex ∧ t.gpal = s.gpal)

/-- What each family of instructions leaves unchanged (10_state R28-R39): a block or extension row leaves the canvas, the outputs and
the LZW registers; a code row leaves everything of the block, the canvas and the outputs; a disposal row leaves all but the
canvas. The registers of an ending (60_exceptions R249) apart. No instruction changes a byte of `SRC`. -/
def Obligations.InstructionFrames : Prop :=
  ∀ (k : LzwCtx) (i : Instr) (s t : State), exec i s = .next t →
    (∀ p, srcByte t p = srcByte s p) ∧ t.frames = s.frames ∧ t.frameCount = s.frameCount ∧ t.tagCount = s.tagCount ∧
    t.snap = s.snap ∧ t.prevDisposal = s.prevDisposal ∧ (i ≠ .extension → t.tagLog = s.tagLog) ∧
    (i ≠ .gce → t.gceDelay = s.gceDelay ∧ t.gceDisposal = s.gceDisposal ∧ t.gceTflag = s.gceTflag ∧ t.gceTindex = s.gceTindex) ∧
    (i ≠ .image → t.imgLeft = s.imgLeft ∧ t.imgTop = s.imgTop ∧ t.imgW = s.imgW ∧ t.imgH = s.imgH ∧ t.imgLct = s.imgLct ∧
      t.imgLctSize = s.imgLctSize ∧ t.imgInterlace = s.imgInterlace ∧ t.apal = s.apal ∧ t.apalLen = s.apalLen ∧
      t.minCodeSize = s.minCodeSize ∧ t.data = s.data ∧ t.blockEnd = s.blockEnd) ∧
    (i.format k ≠ .lzwCode k → t.clearCode = s.clearCode ∧ t.eoiCode = s.eoiCode ∧ t.codeSize = s.codeSize ∧
      t.codeMask = s.codeMask ∧ t.nextCode = s.nextCode ∧ t.prevCode = s.prevCode ∧ t.bitBuf = s.bitBuf ∧ t.bitCnt = s.bitCnt ∧
      t.rdPtr = s.rdPtr ∧ t.table = s.table ∧ t.idx = s.idx) ∧
    (i.format k ≠ .disposal3 → t.canvas = s.canvas) ∧
    (i.format k = .lzwCode k ∨ i.format k = .disposal3 ∨ i = .image ∨ i = .extension → t.cur = s.cur)

/-- 10_state R38, 43_compositor R216: no rule changes a frame after it is appended, and a step of the engine appends at most one. -/
def Obligations.EmittedFramesNeverChange : Prop :=
  ∀ s t : State, engineStep s = .next t → ∃ more : List Frame, t.frames = s.frames ++ more ∧ more.length ≤ 1

/-- 41_block_walker R149: a block either ends the decode or moves `CUR` forward by at least one byte, never past N; inside a block
`CUR` stays. -/
def Obligations.CursorOnlyMovesForward : Prop :=
  ∀ s t : State, Inv s → s.phase = .busy → engineStep s = .next t →
    t.cur.toNat ≤ srcEnd t ∧ s.cur.toNat ≤ t.cur.toNat ∧
    (s.stage = .extension ∨ s.stage = .retire → t.phase = .done ∨ (t.stage = .walker ∧ s.cur.toNat < t.cur.toNat)) ∧
    (s.stage ≠ .container → s.stage ≠ .extension → s.stage ≠ .retire → t.result ≠ .complete → t.cur = s.cur)

/-- The invariant holds right after reset. -/
def Obligations.InvariantHoldsAtReset : Prop := Inv State.reset

/-- Every step keeps the invariant, the host's moves included. -/
def Obligations.EveryStepKeepsTheInvariant : Prop := ∀ s t : State, Inv s → step s = .next t → Inv t

/-- No run stops: from a state of the invariant every move the spec gives a meaning to has a next state, whatever bytes `SRC` holds
(93_implementation_defined: "There are no `stuck` or `refuse` items"). -/
def Obligations.NoAllowedMoveStops : Prop := ∀ s : State, Inv s → moveAllowed s = true → ∃ t, step s = .next t

/-- When the model does stop on a host move it says so by name (log 7, log 8, log 9). -/
def Obligations.DisallowedHostMovesStopByName : Prop :=
  ∀ (s : State) (rest : List HostOp),
    (∀ a b, s.host = .writeSrc a b :: rest → s.phase = .busy → step s = .refused .srcWriteWhileBusy) ∧
    (∀ a b, s.host = .writeSrc a b :: rest → s.phase ≠ .busy → a.toNat = 2 ^ 32 - 1 → step s = .fault .srcOffsetOutsideSpace) ∧
    (∀ a, s.host = .readSrc a :: rest → a.toNat = 2 ^ 32 - 1 → step s = .fault .srcOffsetOutsideSpace) ∧
    (∀ off v, s.host = .writeReg off v :: rest → off.toNat < 0x28 → off.toNat % 4 ≠ 0 → step s = .refused .unalignedRegisterWrite)

/-- 41_block_walker R149, 42_lzw R189.8: every decode ends. From a running state of the invariant, with no host move pending, some
number of steps reaches DONE. -/
def Obligations.EveryDecodeEnds : Prop :=
  ∀ s : State, Inv s → s.phase = .busy → s.host = [] → ∃ n t, Host.Core.run core n s = .next t ∧ t.phase = .done

/-- 70_reset R271, R278, 20_memory R61: what a decode shows depends on the launch alone, the bytes below N, N and the configuration:
two machines with the same launch, whatever each did before, show the same after the same number of steps. -/
def Obligations.DecodeDependsOnTheLaunchAlone : Prop :=
  ∀ (s₁ s₂ : State) (n : Nat) (t₁ : State), Inv s₁ → s₁.cfg = s₂.cfg → s₁.srcLen = s₂.srcLen → s₁.host = [] → s₂.host = [] →
    (∀ p, p < srcEnd s₁ → srcByte s₁ p = srcByte s₂ p) →
    Host.Core.run core n (startDecode s₁) = .next t₁ →
    ∃ t₂, Host.Core.run core n (startDecode s₂) = .next t₂ ∧ t₂.phase = t₁.phase ∧ observe t₂ = observe t₁
end

