-- ==== Sys2Proof/Laws/State.lean ====
section
/-! SUPPORT. One lemma per field per named update of State, so that no proof unfolds an update. A field an update computes by cases
(the log of `logTag`, the palette of `selectPalette`, the table of `addEntry`) has its lemma in the file of that operation. -/

namespace Sys2Proof.Machine

/-! ## logTag -/

@[simp] theorem logTag_cfg (g : Byte) (s : State) : (logTag g s).cfg = s.cfg := rfl
@[simp] theorem logTag_phase (g : Byte) (s : State) : (logTag g s).phase = s.phase := rfl
@[simp] theorem logTag_result (g : Byte) (s : State) : (logTag g s).result = s.result := rfl
@[simp] theorem logTag_faultPos (g : Byte) (s : State) : (logTag g s).faultPos = s.faultPos := rfl
@[simp] theorem logTag_cur (g : Byte) (s : State) : (logTag g s).cur = s.cur := rfl
@[simp] theorem logTag_srcLen (g : Byte) (s : State) : (logTag g s).srcLen = s.srcLen := rfl
@[simp] theorem logTag_src (g : Byte) (s : State) : (logTag g s).src = s.src := rfl
@[simp] theorem logTag_sig (g : Byte) (s : State) : (logTag g s).sig = s.sig := rfl
@[simp] theorem logTag_version (g : Byte) (s : State) : (logTag g s).version = s.version := rfl
@[simp] theorem logTag_canvasW (g : Byte) (s : State) : (logTag g s).canvasW = s.canvasW := rfl
@[simp] theorem logTag_canvasH (g : Byte) (s : State) : (logTag g s).canvasH = s.canvasH := rfl
@[simp] theorem logTag_hasGct (g : Byte) (s : State) : (logTag g s).hasGct = s.hasGct := rfl
@[simp] theorem logTag_gctSize (g : Byte) (s : State) : (logTag g s).gctSize = s.gctSize := rfl
@[simp] theorem logTag_bgIndex (g : Byte) (s : State) : (logTag g s).bgIndex = s.bgIndex := rfl
@[simp] theorem logTag_gpal (g : Byte) (s : State) : (logTag g s).gpal = s.gpal := rfl
@[simp] theorem logTag_apal (g : Byte) (s : State) : (logTag g s).apal = s.apal := rfl
@[simp] theorem logTag_apalLen (g : Byte) (s : State) : (logTag g s).apalLen = s.apalLen := rfl
@[simp] theorem logTag_gceDelay (g : Byte) (s : State) : (logTag g s).gceDelay = s.gceDelay := rfl
@[simp] theorem logTag_gceDisposal (g : Byte) (s : State) : (logTag g s).gceDisposal = s.gceDisposal := rfl
@[simp] theorem logTag_gceTflag (g : Byte) (s : State) : (logTag g s).gceTflag = s.gceTflag := rfl
@[simp] theorem logTag_gceTindex (g : Byte) (s : State) : (logTag g s).gceTindex = s.gceTindex := rfl
@[simp] theorem logTag_prevDisposal (g : Byte) (s : State) : (logTag g s).prevDisposal = s.prevDisposal := rfl
@[simp] theorem logTag_imgLeft (g : Byte) (s : State) : (logTag g s).imgLeft = s.imgLeft := rfl
@[simp] theorem logTag_imgTop (g : Byte) (s : State) : (logTag g s).imgTop = s.imgTop := rfl
@[simp] theorem logTag_imgW (g : Byte) (s : State) : (logTag g s).imgW = s.imgW := rfl
@[simp] theorem logTag_imgH (g : Byte) (s : State) : (logTag g s).imgH = s.imgH := rfl
@[simp] theorem logTag_imgLct (g : Byte) (s : State) : (logTag g s).imgLct = s.imgLct := rfl
@[simp] theorem logTag_imgLctSize (g : Byte) (s : State) : (logTag g s).imgLctSize = s.imgLctSize := rfl
@[simp] theorem logTag_imgInterlace (g : Byte) (s : State) : (logTag g s).imgInterlace = s.imgInterlace := rfl
@[simp] theorem logTag_minCodeSize (g : Byte) (s : State) : (logTag g s).minCodeSize = s.minCodeSize := rfl
@[simp] theorem logTag_data (g : Byte) (s : State) : (logTag g s).data = s.data := rfl
@[simp] theorem logTag_clearCode (g : Byte) (s : State) : (logTag g s).clearCode = s.clearCode := rfl
@[simp] theorem logTag_eoiCode (g : Byte) (s : State) : (logTag g s).eoiCode = s.eoiCode := rfl
@[simp] theorem logTag_codeSize (g : Byte) (s : State) : (logTag g s).codeSize = s.codeSize := rfl
@[simp] theorem logTag_codeMask (g : Byte) (s : State) : (logTag g s).codeMask = s.codeMask := rfl
@[simp] theorem logTag_nextCode (g : Byte) (s : State) : (logTag g s).nextCode = s.nextCode := rfl
@[simp] theorem logTag_prevCode (g : Byte) (s : State) : (logTag g s).prevCode = s.prevCode := rfl
@[simp] theorem logTag_bitBuf (g : Byte) (s : State) : (logTag g s).bitBuf = s.bitBuf := rfl
@[simp] theorem logTag_bitCnt (g : Byte) (s : State) : (logTag g s).bitCnt = s.bitCnt := rfl
@[simp] theorem logTag_rdPtr (g : Byte) (s : State) : (logTag g s).rdPtr = s.rdPtr := rfl
@[simp] theorem logTag_table (g : Byte) (s : State) : (logTag g s).table = s.table := rfl
@[simp] theorem logTag_idx (g : Byte) (s : State) : (logTag g s).idx = s.idx := rfl
@[simp] theorem logTag_canvas (g : Byte) (s : State) : (logTag g s).canvas = s.canvas := rfl
@[simp] theorem logTag_snap (g : Byte) (s : State) : (logTag g s).snap = s.snap := rfl
@[simp] theorem logTag_frames (g : Byte) (s : State) : (logTag g s).frames = s.frames := rfl
@[simp] theorem logTag_frameCount (g : Byte) (s : State) : (logTag g s).frameCount = s.frameCount := rfl
@[simp] theorem logTag_tagCount (g : Byte) (s : State) : (logTag g s).tagCount = s.tagCount + 1 := rfl
@[simp] theorem logTag_stage (g : Byte) (s : State) : (logTag g s).stage = s.stage := rfl
@[simp] theorem logTag_blockEnd (g : Byte) (s : State) : (logTag g s).blockEnd = s.blockEnd := rfl
@[simp] theorem logTag_host (g : Byte) (s : State) : (logTag g s).host = s.host := rfl
@[simp] theorem logTag_busData (g : Byte) (s : State) : (logTag g s).busData = s.busData := rfl
@[simp] theorem logTag_freeIdx (g : Byte) (s : State) : (logTag g s).freeIdx = s.freeIdx := rfl
@[simp] theorem logTag_srcEpoch (g : Byte) (s : State) : (logTag g s).srcEpoch = s.srcEpoch := rfl

/-! ## logLabel -/

@[simp] theorem logLabel_cfg (l : Byte) (s : State) : (logLabel l s).cfg = s.cfg := rfl
@[simp] theorem logLabel_phase (l : Byte) (s : State) : (logLabel l s).phase = s.phase := rfl
@[simp] theorem logLabel_result (l : Byte) (s : State) : (logLabel l s).result = s.result := rfl
@[simp] theorem logLabel_faultPos (l : Byte) (s : State) : (logLabel l s).faultPos = s.faultPos := rfl
@[simp] theorem logLabel_cur (l : Byte) (s : State) : (logLabel l s).cur = s.cur := rfl
@[simp] theorem logLabel_srcLen (l : Byte) (s : State) : (logLabel l s).srcLen = s.srcLen := rfl
@[simp] theorem logLabel_src (l : Byte) (s : State) : (logLabel l s).src = s.src := rfl
@[simp] theorem logLabel_sig (l : Byte) (s : State) : (logLabel l s).sig = s.sig := rfl
@[simp] theorem logLabel_version (l : Byte) (s : State) : (logLabel l s).version = s.version := rfl
@[simp] theorem logLabel_canvasW (l : Byte) (s : State) : (logLabel l s).canvasW = s.canvasW := rfl
@[simp] theorem logLabel_canvasH (l : Byte) (s : State) : (logLabel l s).canvasH = s.canvasH := rfl
@[simp] theorem logLabel_hasGct (l : Byte) (s : State) : (logLabel l s).hasGct = s.hasGct := rfl
@[simp] theorem logLabel_gctSize (l : Byte) (s : State) : (logLabel l s).gctSize = s.gctSize := rfl
@[simp] theorem logLabel_bgIndex (l : Byte) (s : State) : (logLabel l s).bgIndex = s.bgIndex := rfl
@[simp] theorem logLabel_gpal (l : Byte) (s : State) : (logLabel l s).gpal = s.gpal := rfl
@[simp] theorem logLabel_apal (l : Byte) (s : State) : (logLabel l s).apal = s.apal := rfl
@[simp] theorem logLabel_apalLen (l : Byte) (s : State) : (logLabel l s).apalLen = s.apalLen := rfl
@[simp] theorem logLabel_gceDelay (l : Byte) (s : State) : (logLabel l s).gceDelay = s.gceDelay := rfl
@[simp] theorem logLabel_gceDisposal (l : Byte) (s : State) : (logLabel l s).gceDisposal = s.gceDisposal := rfl
@[simp] theorem logLabel_gceTflag (l : Byte) (s : State) : (logLabel l s).gceTflag = s.gceTflag := rfl
@[simp] theorem logLabel_gceTindex (l : Byte) (s : State) : (logLabel l s).gceTindex = s.gceTindex := rfl
@[simp] theorem logLabel_prevDisposal (l : Byte) (s : State) : (logLabel l s).prevDisposal = s.prevDisposal := rfl
@[simp] theorem logLabel_imgLeft (l : Byte) (s : State) : (logLabel l s).imgLeft = s.imgLeft := rfl
@[simp] theorem logLabel_imgTop (l : Byte) (s : State) : (logLabel l s).imgTop = s.imgTop := rfl
@[simp] theorem logLabel_imgW (l : Byte) (s : State) : (logLabel l s).imgW = s.imgW := rfl
@[simp] theorem logLabel_imgH (l : Byte) (s : State) : (logLabel l s).imgH = s.imgH := rfl
@[simp] theorem logLabel_imgLct (l : Byte) (s : State) : (logLabel l s).imgLct = s.imgLct := rfl
@[simp] theorem logLabel_imgLctSize (l : Byte) (s : State) : (logLabel l s).imgLctSize = s.imgLctSize := rfl
@[simp] theorem logLabel_imgInterlace (l : Byte) (s : State) : (logLabel l s).imgInterlace = s.imgInterlace := rfl
@[simp] theorem logLabel_minCodeSize (l : Byte) (s : State) : (logLabel l s).minCodeSize = s.minCodeSize := rfl
@[simp] theorem logLabel_data (l : Byte) (s : State) : (logLabel l s).data = s.data := rfl
@[simp] theorem logLabel_clearCode (l : Byte) (s : State) : (logLabel l s).clearCode = s.clearCode := rfl
@[simp] theorem logLabel_eoiCode (l : Byte) (s : State) : (logLabel l s).eoiCode = s.eoiCode := rfl
@[simp] theorem logLabel_codeSize (l : Byte) (s : State) : (logLabel l s).codeSize = s.codeSize := rfl
@[simp] theorem logLabel_codeMask (l : Byte) (s : State) : (logLabel l s).codeMask = s.codeMask := rfl
@[simp] theorem logLabel_nextCode (l : Byte) (s : State) : (logLabel l s).nextCode = s.nextCode := rfl
@[simp] theorem logLabel_prevCode (l : Byte) (s : State) : (logLabel l s).prevCode = s.prevCode := rfl
@[simp] theorem logLabel_bitBuf (l : Byte) (s : State) : (logLabel l s).bitBuf = s.bitBuf := rfl
@[simp] theorem logLabel_bitCnt (l : Byte) (s : State) : (logLabel l s).bitCnt = s.bitCnt := rfl
@[simp] theorem logLabel_rdPtr (l : Byte) (s : State) : (logLabel l s).rdPtr = s.rdPtr := rfl
@[simp] theorem logLabel_table (l : Byte) (s : State) : (logLabel l s).table = s.table := rfl
@[simp] theorem logLabel_idx (l : Byte) (s : State) : (logLabel l s).idx = s.idx := rfl
@[simp] theorem logLabel_canvas (l : Byte) (s : State) : (logLabel l s).canvas = s.canvas := rfl
@[simp] theorem logLabel_snap (l : Byte) (s : State) : (logLabel l s).snap = s.snap := rfl
@[simp] theorem logLabel_frames (l : Byte) (s : State) : (logLabel l s).frames = s.frames := rfl
@[simp] theorem logLabel_frameCount (l : Byte) (s : State) : (logLabel l s).frameCount = s.frameCount := rfl
@[simp] theorem logLabel_tagCount (l : Byte) (s : State) : (logLabel l s).tagCount = s.tagCount := rfl
@[simp] theorem logLabel_stage (l : Byte) (s : State) : (logLabel l s).stage = s.stage := rfl
@[simp] theorem logLabel_blockEnd (l : Byte) (s : State) : (logLabel l s).blockEnd = s.blockEnd := rfl
@[simp] theorem logLabel_host (l : Byte) (s : State) : (logLabel l s).host = s.host := rfl
@[simp] theorem logLabel_busData (l : Byte) (s : State) : (logLabel l s).busData = s.busData := rfl
@[simp] theorem logLabel_freeIdx (l : Byte) (s : State) : (logLabel l s).freeIdx = s.freeIdx := rfl
@[simp] theorem logLabel_srcEpoch (l : Byte) (s : State) : (logLabel l s).srcEpoch = s.srcEpoch := rfl

/-! ## endDecode -/

@[simp] theorem endDecode_cfg (r : Result) (s : State) : (endDecode r s).cfg = s.cfg := rfl
@[simp] theorem endDecode_phase (r : Result) (s : State) : (endDecode r s).phase = .done := rfl
@[simp] theorem endDecode_result (r : Result) (s : State) : (endDecode r s).result = r := rfl
@[simp] theorem endDecode_faultPos (r : Result) (s : State) : (endDecode r s).faultPos = if r.isFault then s.cur else 0 := rfl
@[simp] theorem endDecode_cur (r : Result) (s : State) : (endDecode r s).cur = s.cur := rfl
@[simp] theorem endDecode_srcLen (r : Result) (s : State) : (endDecode r s).srcLen = s.srcLen := rfl
@[simp] theorem endDecode_src (r : Result) (s : State) : (endDecode r s).src = s.src := rfl
@[simp] theorem endDecode_sig (r : Result) (s : State) : (endDecode r s).sig = s.sig := rfl
@[simp] theorem endDecode_version (r : Result) (s : State) : (endDecode r s).version = s.version := rfl
@[simp] theorem endDecode_canvasW (r : Result) (s : State) : (endDecode r s).canvasW = s.canvasW := rfl
@[simp] theorem endDecode_canvasH (r : Result) (s : State) : (endDecode r s).canvasH = s.canvasH := rfl
@[simp] theorem endDecode_hasGct (r : Result) (s : State) : (endDecode r s).hasGct = s.hasGct := rfl
@[simp] theorem endDecode_gctSize (r : Result) (s : State) : (endDecode r s).gctSize = s.gctSize := rfl
@[simp] theorem endDecode_bgIndex (r : Result) (s : State) : (endDecode r s).bgIndex = s.bgIndex := rfl
@[simp] theorem endDecode_gpal (r : Result) (s : State) : (endDecode r s).gpal = s.gpal := rfl
@[simp] theorem endDecode_apal (r : Result) (s : State) : (endDecode r s).apal = s.apal := rfl
@[simp] theorem endDecode_apalLen (r : Result) (s : State) : (endDecode r s).apalLen = s.apalLen := rfl
@[simp] theorem endDecode_gceDelay (r : Result) (s : State) : (endDecode r s).gceDelay = s.gceDelay := rfl
@[simp] theorem endDecode_gceDisposal (r : Result) (s : State) : (endDecode r s).gceDisposal = s.gceDisposal := rfl
@[simp] theorem endDecode_gceTflag (r : Result) (s : State) : (endDecode r s).gceTflag = s.gceTflag := rfl
@[simp] theorem endDecode_gceTindex (r : Result) (s : State) : (endDecode r s).gceTindex = s.gceTindex := rfl
@[simp] theorem endDecode_prevDisposal (r : Result) (s : State) : (endDecode r s).prevDisposal = s.prevDisposal := rfl
@[simp] theorem endDecode_imgLeft (r : Result) (s : State) : (endDecode r s).imgLeft = s.imgLeft := rfl
@[simp] theorem endDecode_imgTop (r : Result) (s : State) : (endDecode r s).imgTop = s.imgTop := rfl
@[simp] theorem endDecode_imgW (r : Result) (s : State) : (endDecode r s).imgW = s.imgW := rfl
@[simp] theorem endDecode_imgH (r : Result) (s : State) : (endDecode r s).imgH = s.imgH := rfl
@[simp] theorem endDecode_imgLct (r : Result) (s : State) : (endDecode r s).imgLct = s.imgLct := rfl
@[simp] theorem endDecode_imgLctSize (r : Result) (s : State) : (endDecode r s).imgLctSize = s.imgLctSize := rfl
@[simp] theorem endDecode_imgInterlace (r : Result) (s : State) : (endDecode r s).imgInterlace = s.imgInterlace := rfl
@[simp] theorem endDecode_minCodeSize (r : Result) (s : State) : (endDecode r s).minCodeSize = s.minCodeSize := rfl
@[simp] theorem endDecode_data (r : Result) (s : State) : (endDecode r s).data = s.data := rfl
@[simp] theorem endDecode_clearCode (r : Result) (s : State) : (endDecode r s).clearCode = s.clearCode := rfl
@[simp] theorem endDecode_eoiCode (r : Result) (s : State) : (endDecode r s).eoiCode = s.eoiCode := rfl
@[simp] theorem endDecode_codeSize (r : Result) (s : State) : (endDecode r s).codeSize = s.codeSize := rfl
@[simp] theorem endDecode_codeMask (r : Result) (s : State) : (endDecode r s).codeMask = s.codeMask := rfl
@[simp] theorem endDecode_nextCode (r : Result) (s : State) : (endDecode r s).nextCode = s.nextCode := rfl
@[simp] theorem endDecode_prevCode (r : Result) (s : State) : (endDecode r s).prevCode = s.prevCode := rfl
@[simp] theorem endDecode_bitBuf (r : Result) (s : State) : (endDecode r s).bitBuf = s.bitBuf := rfl
@[simp] theorem endDecode_bitCnt (r : Result) (s : State) : (endDecode r s).bitCnt = s.bitCnt := rfl
@[simp] theorem endDecode_rdPtr (r : Result) (s : State) : (endDecode r s).rdPtr = s.rdPtr := rfl
@[simp] theorem endDecode_table (r : Result) (s : State) : (endDecode r s).table = s.table := rfl
@[simp] theorem endDecode_idx (r : Result) (s : State) : (endDecode r s).idx = s.idx := rfl
@[simp] theorem endDecode_canvas (r : Result) (s : State) : (endDecode r s).canvas = s.canvas := rfl
@[simp] theorem endDecode_snap (r : Result) (s : State) : (endDecode r s).snap = s.snap := rfl
@[simp] theorem endDecode_frames (r : Result) (s : State) : (endDecode r s).frames = s.frames := rfl
@[simp] theorem endDecode_frameCount (r : Result) (s : State) : (endDecode r s).frameCount = s.frameCount := rfl
@[simp] theorem endDecode_tagLog (r : Result) (s : State) : (endDecode r s).tagLog = s.tagLog := rfl
@[simp] theorem endDecode_tagCount (r : Result) (s : State) : (endDecode r s).tagCount = s.tagCount := rfl
@[simp] theorem endDecode_stage (r : Result) (s : State) : (endDecode r s).stage = s.stage := rfl
@[simp] theorem endDecode_blockEnd (r : Result) (s : State) : (endDecode r s).blockEnd = s.blockEnd := rfl
@[simp] theorem endDecode_host (r : Result) (s : State) : (endDecode r s).host = s.host := rfl
@[simp] theorem endDecode_busData (r : Result) (s : State) : (endDecode r s).busData = s.busData := rfl
@[simp] theorem endDecode_freeIdx (r : Result) (s : State) : (endDecode r s).freeIdx = s.freeIdx := rfl
@[simp] theorem endDecode_srcEpoch (r : Result) (s : State) : (endDecode r s).srcEpoch = s.srcEpoch := rfl

/-! ## readDescriptor -/

@[simp] theorem readDescriptor_cfg (p : Nat) (s : State) : (readDescriptor p s).cfg = s.cfg := rfl
@[simp] theorem readDescriptor_phase (p : Nat) (s : State) : (readDescriptor p s).phase = s.phase := rfl
@[simp] theorem readDescriptor_result (p : Nat) (s : State) : (readDescriptor p s).result = s.result := rfl
@[simp] theorem readDescriptor_faultPos (p : Nat) (s : State) : (readDescriptor p s).faultPos = s.faultPos := rfl
@[simp] theorem readDescriptor_cur (p : Nat) (s : State) : (readDescriptor p s).cur = s.cur := rfl
@[simp] theorem readDescriptor_srcLen (p : Nat) (s : State) : (readDescriptor p s).srcLen = s.srcLen := rfl
@[simp] theorem readDescriptor_src (p : Nat) (s : State) : (readDescriptor p s).src = s.src := rfl
@[simp] theorem readDescriptor_sig (p : Nat) (s : State) : (readDescriptor p s).sig = s.sig := rfl
@[simp] theorem readDescriptor_version (p : Nat) (s : State) : (readDescriptor p s).version = s.version := rfl
@[simp] theorem readDescriptor_canvasW (p : Nat) (s : State) : (readDescriptor p s).canvasW = s.canvasW := rfl
@[simp] theorem readDescriptor_canvasH (p : Nat) (s : State) : (readDescriptor p s).canvasH = s.canvasH := rfl
@[simp] theorem readDescriptor_hasGct (p : Nat) (s : State) : (readDescriptor p s).hasGct = s.hasGct := rfl
@[simp] theorem readDescriptor_gctSize (p : Nat) (s : State) : (readDescriptor p s).gctSize = s.gctSize := rfl
@[simp] theorem readDescriptor_bgIndex (p : Nat) (s : State) : (readDescriptor p s).bgIndex = s.bgIndex := rfl
@[simp] theorem readDescriptor_gpal (p : Nat) (s : State) : (readDescriptor p s).gpal = s.gpal := rfl
@[simp] theorem readDescriptor_apal (p : Nat) (s : State) : (readDescriptor p s).apal = s.apal := rfl
@[simp] theorem readDescriptor_apalLen (p : Nat) (s : State) : (readDescriptor p s).apalLen = s.apalLen := rfl
@[simp] theorem readDescriptor_gceDelay (p : Nat) (s : State) : (readDescriptor p s).gceDelay = s.gceDelay := rfl
@[simp] theorem readDescriptor_gceDisposal (p : Nat) (s : State) : (readDescriptor p s).gceDisposal = s.gceDisposal := rfl
@[simp] theorem readDescriptor_gceTflag (p : Nat) (s : State) : (readDescriptor p s).gceTflag = s.gceTflag := rfl
@[simp] theorem readDescriptor_gceTindex (p : Nat) (s : State) : (readDescriptor p s).gceTindex = s.gceTindex := rfl
@[simp] theorem readDescriptor_prevDisposal (p : Nat) (s : State) : (readDescriptor p s).prevDisposal = s.prevDisposal := rfl
@[simp] theorem readDescriptor_imgLeft (p : Nat) (s : State) : (readDescriptor p s).imgLeft = srcU16 s (p + 1) := rfl
@[simp] theorem readDescriptor_imgTop (p : Nat) (s : State) : (readDescriptor p s).imgTop = srcU16 s (p + 3) := rfl
@[simp] theorem readDescriptor_imgW (p : Nat) (s : State) : (readDescriptor p s).imgW = srcU16 s (p + 5) := rfl
@[simp] theorem readDescriptor_imgH (p : Nat) (s : State) : (readDescriptor p s).imgH = srcU16 s (p + 7) := rfl
@[simp] theorem readDescriptor_imgLct (p : Nat) (s : State) :
    (readDescriptor p s).imgLct = packedHasTable (srcByte s (p + 9)) := rfl
@[simp] theorem readDescriptor_imgLctSize (p : Nat) (s : State) :
    (readDescriptor p s).imgLctSize = packedTableSize (srcByte s (p + 9)) := rfl
@[simp] theorem readDescriptor_imgInterlace (p : Nat) (s : State) :
    (readDescriptor p s).imgInterlace = packedInterlace (srcByte s (p + 9)) := rfl
@[simp] theorem readDescriptor_minCodeSize (p : Nat) (s : State) : (readDescriptor p s).minCodeSize = s.minCodeSize := rfl
@[simp] theorem readDescriptor_data (p : Nat) (s : State) : (readDescriptor p s).data = s.data := rfl
@[simp] theorem readDescriptor_clearCode (p : Nat) (s : State) : (readDescriptor p s).clearCode = s.clearCode := rfl
@[simp] theorem readDescriptor_eoiCode (p : Nat) (s : State) : (readDescriptor p s).eoiCode = s.eoiCode := rfl
@[simp] theorem readDescriptor_codeSize (p : Nat) (s : State) : (readDescriptor p s).codeSize = s.codeSize := rfl
@[simp] theorem readDescriptor_codeMask (p : Nat) (s : State) : (readDescriptor p s).codeMask = s.codeMask := rfl
@[simp] theorem readDescriptor_nextCode (p : Nat) (s : State) : (readDescriptor p s).nextCode = s.nextCode := rfl
@[simp] theorem readDescriptor_prevCode (p : Nat) (s : State) : (readDescriptor p s).prevCode = s.prevCode := rfl
@[simp] theorem readDescriptor_bitBuf (p : Nat) (s : State) : (readDescriptor p s).bitBuf = s.bitBuf := rfl
@[simp] theorem readDescriptor_bitCnt (p : Nat) (s : State) : (readDescriptor p s).bitCnt = s.bitCnt := rfl
@[simp] theorem readDescriptor_rdPtr (p : Nat) (s : State) : (readDescriptor p s).rdPtr = s.rdPtr := rfl
@[simp] theorem readDescriptor_table (p : Nat) (s : State) : (readDescriptor p s).table = s.table := rfl
@[simp] theorem readDescriptor_idx (p : Nat) (s : State) : (readDescriptor p s).idx = s.idx := rfl
@[simp] theorem readDescriptor_canvas (p : Nat) (s : State) : (readDescriptor p s).canvas = s.canvas := rfl
@[simp] theorem readDescriptor_snap (p : Nat) (s : State) : (readDescriptor p s).snap = s.snap := rfl
@[simp] theorem readDescriptor_frames (p : Nat) (s : State) : (readDescriptor p s).frames = s.frames := rfl
@[simp] theorem readDescriptor_frameCount (p : Nat) (s : State) : (readDescriptor p s).frameCount = s.frameCount := rfl
@[simp] theorem readDescriptor_tagLog (p : Nat) (s : State) : (readDescriptor p s).tagLog = s.tagLog := rfl
@[simp] theorem readDescriptor_tagCount (p : Nat) (s : State) : (readDescriptor p s).tagCount = s.tagCount := rfl
@[simp] theorem readDescriptor_stage (p : Nat) (s : State) : (readDescriptor p s).stage = s.stage := rfl
@[simp] theorem readDescriptor_blockEnd (p : Nat) (s : State) : (readDescriptor p s).blockEnd = s.blockEnd := rfl
@[simp] theorem readDescriptor_host (p : Nat) (s : State) : (readDescriptor p s).host = s.host := rfl
@[simp] theorem readDescriptor_busData (p : Nat) (s : State) : (readDescriptor p s).busData = s.busData := rfl
@[simp] theorem readDescriptor_freeIdx (p : Nat) (s : State) : (readDescriptor p s).freeIdx = s.freeIdx := rfl
@[simp] theorem readDescriptor_srcEpoch (p : Nat) (s : State) : (readDescriptor p s).srcEpoch = s.srcEpoch := rfl

/-! ## selectPalette -/

@[simp] theorem selectPalette_cfg (q : Nat) (s : State) :
    (selectPalette q s).cfg = s.cfg := by unfold selectPalette; split <;> rfl
@[simp] theorem selectPalette_phase (q : Nat) (s : State) :
    (selectPalette q s).phase = s.phase := by unfold selectPalette; split <;> rfl
@[simp] theorem selectPalette_result (q : Nat) (s : State) :
    (selectPalette q s).result = s.result := by unfold selectPalette; split <;> rfl
@[simp] theorem selectPalette_faultPos (q : Nat) (s : State) :
    (selectPalette q s).faultPos = s.faultPos := by unfold selectPalette; split <;> rfl
@[simp] theorem selectPalette_cur (q : Nat) (s : State) :
    (selectPalette q s).cur = s.cur := by unfold selectPalette; split <;> rfl
@[simp] theorem selectPalette_srcLen (q : Nat) (s : State) :
    (selectPalette q s).srcLen = s.srcLen := by unfold selectPalette; split <;> rfl
@[simp] theorem selectPalette_src (q : Nat) (s : State) :
    (selectPalette q s).src = s.src := by unfold selectPalette; split <;> rfl
@[simp] theorem selectPalette_sig (q : Nat) (s : State) :
    (selectPalette q s).sig = s.sig := by unfold selectPalette; split <;> rfl
@[simp] theorem selectPalette_version (q : Nat) (s : State) :
    (selectPalette q s).version = s.version := by unfold selectPalette; split <;> rfl
@[simp] theorem selectPalette_canvasW (q : Nat) (s : State) :
    (selectPalette q s).canvasW = s.canvasW := by unfold selectPalette; split <;> rfl
@[simp] theorem selectPalette_canvasH (q : Nat) (s : State) :
    (selectPalette q s).canvasH = s.canvasH := by unfold selectPalette; split <;> rfl
@[simp] theorem selectPalette_hasGct (q : Nat) (s : State) :
    (selectPalette q s).hasGct = s.hasGct := by unfold selectPalette; split <;> rfl
@[simp] theorem selectPalette_gctSize (q : Nat) (s : State) :
    (selectPalette q s).gctSize = s.gctSize := by unfold selectPalette; split <;> rfl
@[simp] theorem selectPalette_bgIndex (q : Nat) (s : State) :
    (selectPalette q s).bgIndex = s.bgIndex := by unfold selectPalette; split <;> rfl
@[simp] theorem selectPalette_gpal (q : Nat) (s : State) :
    (selectPalette q s).gpal = s.gpal := by unfold selectPalette; split <;> rfl
@[simp] theorem selectPalette_gceDelay (q : Nat) (s : State) :
    (selectPalette q s).gceDelay = s.gceDelay := by unfold selectPalette; split <;> rfl
@[simp] theorem selectPalette_gceDisposal (q : Nat) (s : State) :
    (selectPalette q s).gceDisposal = s.gceDisposal := by unfold selectPalette; split <;> rfl
@[simp] theorem selectPalette_gceTflag (q : Nat) (s : State) :
    (selectPalette q s).gceTflag = s.gceTflag := by unfold selectPalette; split <;> rfl
@[simp] theorem selectPalette_gceTindex (q : Nat) (s : State) :
    (selectPalette q s).gceTindex = s.gceTindex := by unfold selectPalette; split <;> rfl
@[simp] theorem selectPalette_prevDisposal (q : Nat) (s : State) :
    (selectPalette q s).prevDisposal = s.prevDisposal := by unfold selectPalette; split <;> rfl
@[simp] theorem selectPalette_imgLeft (q : Nat) (s : State) :
    (selectPalette q s).imgLeft = s.imgLeft := by unfold selectPalette; split <;> rfl
@[simp] theorem selectPalette_imgTop (q : Nat) (s : State) :
    (selectPalette q s).imgTop = s.imgTop := by unfold selectPalette; split <;> rfl
@[simp] theorem selectPalette_imgW (q : Nat) (s : State) :
    (selectPalette q s).imgW = s.imgW := by unfold selectPalette; split <;> rfl
@[simp] theorem selectPalette_imgH (q : Nat) (s : State) :
    (selectPalette q s).imgH = s.imgH := by unfold selectPalette; split <;> rfl
@[simp] theorem selectPalette_imgLct (q : Nat) (s : State) :
    (selectPalette q s).imgLct = s.imgLct := by unfold selectPalette; split <;> rfl
@[simp] theorem selectPalette_imgLctSize (q : Nat) (s : State) :
    (selectPalette q s).imgLctSize = s.imgLctSize := by unfold selectPalette; split <;> rfl
@[simp] theorem selectPalette_imgInterlace (q : Nat) (s : State) :
    (selectPalette q s).imgInterlace = s.imgInterlace := by unfold selectPalette; split <;> rfl
@[simp] theorem selectPalette_minCodeSize (q : Nat) (s : State) :
    (selectPalette q s).minCodeSize = s.minCodeSize := by unfold selectPalette; split <;> rfl
@[simp] theorem selectPalette_data (q : Nat) (s : State) :
    (selectPalette q s).data = s.data := by unfold selectPalette; split <;> rfl
@[simp] theorem selectPalette_clearCode (q : Nat) (s : State) :
    (selectPalette q s).clearCode = s.clearCode := by unfold selectPalette; split <;> rfl
@[simp] theorem selectPalette_eoiCode (q : Nat) (s : State) :
    (selectPalette q s).eoiCode = s.eoiCode := by unfold selectPalette; split <;> rfl
@[simp] theorem selectPalette_codeSize (q : Nat) (s : State) :
    (selectPalette q s).codeSize = s.codeSize := by unfold selectPalette; split <;> rfl
@[simp] theorem selectPalette_codeMask (q : Nat) (s : State) :
    (selectPalette q s).codeMask = s.codeMask := by unfold selectPalette; split <;> rfl
@[simp] theorem selectPalette_nextCode (q : Nat) (s : State) :
    (selectPalette q s).nextCode = s.nextCode := by unfold selectPalette; split <;> rfl
@[simp] theorem selectPalette_prevCode (q : Nat) (s : State) :
    (selectPalette q s).prevCode = s.prevCode := by unfold selectPalette; split <;> rfl
@[simp] theorem selectPalette_bitBuf (q : Nat) (s : State) :
    (selectPalette q s).bitBuf = s.bitBuf := by unfold selectPalette; split <;> rfl
@[simp] theorem selectPalette_bitCnt (q : Nat) (s : State) :
    (selectPalette q s).bitCnt = s.bitCnt := by unfold selectPalette; split <;> rfl
@[simp] theorem selectPalette_rdPtr (q : Nat) (s : State) :
    (selectPalette q s).rdPtr = s.rdPtr := by unfold selectPalette; split <;> rfl
@[simp] theorem selectPalette_table (q : Nat) (s : State) :
    (selectPalette q s).table = s.table := by unfold selectPalette; split <;> rfl
@[simp] theorem selectPalette_idx (q : Nat) (s : State) :
    (selectPalette q s).idx = s.idx := by unfold selectPalette; split <;> rfl
@[simp] theorem selectPalette_canvas (q : Nat) (s : State) :
    (selectPalette q s).canvas = s.canvas := by unfold selectPalette; split <;> rfl
@[simp] theorem selectPalette_snap (q : Nat) (s : State) :
    (selectPalette q s).snap = s.snap := by unfold selectPalette; split <;> rfl
@[simp] theorem selectPalette_frames (q : Nat) (s : State) :
    (selectPalette q s).frames = s.frames := by unfold selectPalette; split <;> rfl
@[simp] theorem selectPalette_frameCount (q : Nat) (s : State) :
    (selectPalette q s).frameCount = s.frameCount := by unfold selectPalette; split <;> rfl
@[simp] theorem selectPalette_tagLog (q : Nat) (s : State) :
    (selectPalette q s).tagLog = s.tagLog := by unfold selectPalette; split <;> rfl
@[simp] theorem selectPalette_tagCount (q : Nat) (s : State) :
    (selectPalette q s).tagCount = s.tagCount := by unfold selectPalette; split <;> rfl
@[simp] theorem selectPalette_stage (q : Nat) (s : State) :
    (selectPalette q s).stage = s.stage := by unfold selectPalette; split <;> rfl
@[simp] theorem selectPalette_blockEnd (q : Nat) (s : State) :
    (selectPalette q s).blockEnd = s.blockEnd := by unfold selectPalette; split <;> rfl
@[simp] theorem selectPalette_host (q : Nat) (s : State) :
    (selectPalette q s).host = s.host := by unfold selectPalette; split <;> rfl
@[simp] theorem selectPalette_busData (q : Nat) (s : State) :
    (selectPalette q s).busData = s.busData := by unfold selectPalette; split <;> rfl
@[simp] theorem selectPalette_freeIdx (q : Nat) (s : State) :
    (selectPalette q s).freeIdx = s.freeIdx := by unfold selectPalette; split <;> rfl
@[simp] theorem selectPalette_srcEpoch (q : Nat) (s : State) :
    (selectPalette q s).srcEpoch = s.srcEpoch := by unfold selectPalette; split <;> rfl

/-! ## markTransparent -/

@[simp] theorem markTransparent_cfg (s : State) : (markTransparent s).cfg = s.cfg := rfl
@[simp] theorem markTransparent_phase (s : State) : (markTransparent s).phase = s.phase := rfl
@[simp] theorem markTransparent_result (s : State) : (markTransparent s).result = s.result := rfl
@[simp] theorem markTransparent_faultPos (s : State) : (markTransparent s).faultPos = s.faultPos := rfl
@[simp] theorem markTransparent_cur (s : State) : (markTransparent s).cur = s.cur := rfl
@[simp] theorem markTransparent_srcLen (s : State) : (markTransparent s).srcLen = s.srcLen := rfl
@[simp] theorem markTransparent_src (s : State) : (markTransparent s).src = s.src := rfl
@[simp] theorem markTransparent_sig (s : State) : (markTransparent s).sig = s.sig := rfl
@[simp] theorem markTransparent_version (s : State) : (markTransparent s).version = s.version := rfl
@[simp] theorem markTransparent_canvasW (s : State) : (markTransparent s).canvasW = s.canvasW := rfl
@[simp] theorem markTransparent_canvasH (s : State) : (markTransparent s).canvasH = s.canvasH := rfl
@[simp] theorem markTransparent_hasGct (s : State) : (markTransparent s).hasGct = s.hasGct := rfl
@[simp] theorem markTransparent_gctSize (s : State) : (markTransparent s).gctSize = s.gctSize := rfl
@[simp] theorem markTransparent_bgIndex (s : State) : (markTransparent s).bgIndex = s.bgIndex := rfl
@[simp] theorem markTransparent_gpal (s : State) : (markTransparent s).gpal = s.gpal := rfl
@[simp] theorem markTransparent_apalLen (s : State) : (markTransparent s).apalLen = s.apalLen := rfl
@[simp] theorem markTransparent_gceDelay (s : State) : (markTransparent s).gceDelay = s.gceDelay := rfl
@[simp] theorem markTransparent_gceDisposal (s : State) : (markTransparent s).gceDisposal = s.gceDisposal := rfl
@[simp] theorem markTransparent_gceTflag (s : State) : (markTransparent s).gceTflag = s.gceTflag := rfl
@[simp] theorem markTransparent_gceTindex (s : State) : (markTransparent s).gceTindex = s.gceTindex := rfl
@[simp] theorem markTransparent_prevDisposal (s : State) : (markTransparent s).prevDisposal = s.prevDisposal := rfl
@[simp] theorem markTransparent_imgLeft (s : State) : (markTransparent s).imgLeft = s.imgLeft := rfl
@[simp] theorem markTransparent_imgTop (s : State) : (markTransparent s).imgTop = s.imgTop := rfl
@[simp] theorem markTransparent_imgW (s : State) : (markTransparent s).imgW = s.imgW := rfl
@[simp] theorem markTransparent_imgH (s : State) : (markTransparent s).imgH = s.imgH := rfl
@[simp] theorem markTransparent_imgLct (s : State) : (markTransparent s).imgLct = s.imgLct := rfl
@[simp] theorem markTransparent_imgLctSize (s : State) : (markTransparent s).imgLctSize = s.imgLctSize := rfl
@[simp] theorem markTransparent_imgInterlace (s : State) : (markTransparent s).imgInterlace = s.imgInterlace := rfl
@[simp] theorem markTransparent_minCodeSize (s : State) : (markTransparent s).minCodeSize = s.minCodeSize := rfl
@[simp] theorem markTransparent_data (s : State) : (markTransparent s).data = s.data := rfl
@[simp] theorem markTransparent_clearCode (s : State) : (markTransparent s).clearCode = s.clearCode := rfl
@[simp] theorem markTransparent_eoiCode (s : State) : (markTransparent s).eoiCode = s.eoiCode := rfl
@[simp] theorem markTransparent_codeSize (s : State) : (markTransparent s).codeSize = s.codeSize := rfl
@[simp] theorem markTransparent_codeMask (s : State) : (markTransparent s).codeMask = s.codeMask := rfl
@[simp] theorem markTransparent_nextCode (s : State) : (markTransparent s).nextCode = s.nextCode := rfl
@[simp] theorem markTransparent_prevCode (s : State) : (markTransparent s).prevCode = s.prevCode := rfl
@[simp] theorem markTransparent_bitBuf (s : State) : (markTransparent s).bitBuf = s.bitBuf := rfl
@[simp] theorem markTransparent_bitCnt (s : State) : (markTransparent s).bitCnt = s.bitCnt := rfl
@[simp] theorem markTransparent_rdPtr (s : State) : (markTransparent s).rdPtr = s.rdPtr := rfl
@[simp] theorem markTransparent_table (s : State) : (markTransparent s).table = s.table := rfl
@[simp] theorem markTransparent_idx (s : State) : (markTransparent s).idx = s.idx := rfl
@[simp] theorem markTransparent_canvas (s : State) : (markTransparent s).canvas = s.canvas := rfl
@[simp] theorem markTransparent_snap (s : State) : (markTransparent s).snap = s.snap := rfl
@[simp] theorem markTransparent_frames (s : State) : (markTransparent s).frames = s.frames := rfl
@[simp] theorem markTransparent_frameCount (s : State) : (markTransparent s).frameCount = s.frameCount := rfl
@[simp] theorem markTransparent_tagLog (s : State) : (markTransparent s).tagLog = s.tagLog := rfl
@[simp] theorem markTransparent_tagCount (s : State) : (markTransparent s).tagCount = s.tagCount := rfl
@[simp] theorem markTransparent_stage (s : State) : (markTransparent s).stage = s.stage := rfl
@[simp] theorem markTransparent_blockEnd (s : State) : (markTransparent s).blockEnd = s.blockEnd := rfl
@[simp] theorem markTransparent_host (s : State) : (markTransparent s).host = s.host := rfl
@[simp] theorem markTransparent_busData (s : State) : (markTransparent s).busData = s.busData := rfl
@[simp] theorem markTransparent_freeIdx (s : State) : (markTransparent s).freeIdx = s.freeIdx := rfl
@[simp] theorem markTransparent_srcEpoch (s : State) : (markTransparent s).srcEpoch = s.srcEpoch := rfl

/-! ## setCodeSize -/

@[simp] theorem setCodeSize_cfg (w : Nat) (s : State) : (setCodeSize w s).cfg = s.cfg := rfl
@[simp] theorem setCodeSize_phase (w : Nat) (s : State) : (setCodeSize w s).phase = s.phase := rfl
@[simp] theorem setCodeSize_result (w : Nat) (s : State) : (setCodeSize w s).result = s.result := rfl
@[simp] theorem setCodeSize_faultPos (w : Nat) (s : State) : (setCodeSize w s).faultPos = s.faultPos := rfl
@[simp] theorem setCodeSize_cur (w : Nat) (s : State) : (setCodeSize w s).cur = s.cur := rfl
@[simp] theorem setCodeSize_srcLen (w : Nat) (s : State) : (setCodeSize w s).srcLen = s.srcLen := rfl
@[simp] theorem setCodeSize_src (w : Nat) (s : State) : (setCodeSize w s).src = s.src := rfl
@[simp] theorem setCodeSize_sig (w : Nat) (s : State) : (setCodeSize w s).sig = s.sig := rfl
@[simp] theorem setCodeSize_version (w : Nat) (s : State) : (setCodeSize w s).version = s.version := rfl
@[simp] theorem setCodeSize_canvasW (w : Nat) (s : State) : (setCodeSize w s).canvasW = s.canvasW := rfl
@[simp] theorem setCodeSize_canvasH (w : Nat) (s : State) : (setCodeSize w s).canvasH = s.canvasH := rfl
@[simp] theorem setCodeSize_hasGct (w : Nat) (s : State) : (setCodeSize w s).hasGct = s.hasGct := rfl
@[simp] theorem setCodeSize_gctSize (w : Nat) (s : State) : (setCodeSize w s).gctSize = s.gctSize := rfl
@[simp] theorem setCodeSize_bgIndex (w : Nat) (s : State) : (setCodeSize w s).bgIndex = s.bgIndex := rfl
@[simp] theorem setCodeSize_gpal (w : Nat) (s : State) : (setCodeSize w s).gpal = s.gpal := rfl
@[simp] theorem setCodeSize_apal (w : Nat) (s : State) : (setCodeSize w s).apal = s.apal := rfl
@[simp] theorem setCodeSize_apalLen (w : Nat) (s : State) : (setCodeSize w s).apalLen = s.apalLen := rfl
@[simp] theorem setCodeSize_gceDelay (w : Nat) (s : State) : (setCodeSize w s).gceDelay = s.gceDelay := rfl
@[simp] theorem setCodeSize_gceDisposal (w : Nat) (s : State) : (setCodeSize w s).gceDisposal = s.gceDisposal := rfl
@[simp] theorem setCodeSize_gceTflag (w : Nat) (s : State) : (setCodeSize w s).gceTflag = s.gceTflag := rfl
@[simp] theorem setCodeSize_gceTindex (w : Nat) (s : State) : (setCodeSize w s).gceTindex = s.gceTindex := rfl
@[simp] theorem setCodeSize_prevDisposal (w : Nat) (s : State) : (setCodeSize w s).prevDisposal = s.prevDisposal := rfl
@[simp] theorem setCodeSize_imgLeft (w : Nat) (s : State) : (setCodeSize w s).imgLeft = s.imgLeft := rfl
@[simp] theorem setCodeSize_imgTop (w : Nat) (s : State) : (setCodeSize w s).imgTop = s.imgTop := rfl
@[simp] theorem setCodeSize_imgW (w : Nat) (s : State) : (setCodeSize w s).imgW = s.imgW := rfl
@[simp] theorem setCodeSize_imgH (w : Nat) (s : State) : (setCodeSize w s).imgH = s.imgH := rfl
@[simp] theorem setCodeSize_imgLct (w : Nat) (s : State) : (setCodeSize w s).imgLct = s.imgLct := rfl
@[simp] theorem setCodeSize_imgLctSize (w : Nat) (s : State) : (setCodeSize w s).imgLctSize = s.imgLctSize := rfl
@[simp] theorem setCodeSize_imgInterlace (w : Nat) (s : State) : (setCodeSize w s).imgInterlace = s.imgInterlace := rfl
@[simp] theorem setCodeSize_minCodeSize (w : Nat) (s : State) : (setCodeSize w s).minCodeSize = s.minCodeSize := rfl
@[simp] theorem setCodeSize_data (w : Nat) (s : State) : (setCodeSize w s).data = s.data := rfl
@[simp] theorem setCodeSize_clearCode (w : Nat) (s : State) : (setCodeSize w s).clearCode = s.clearCode := rfl
@[simp] theorem setCodeSize_eoiCode (w : Nat) (s : State) : (setCodeSize w s).eoiCode = s.eoiCode := rfl
@[simp] theorem setCodeSize_codeSize (w : Nat) (s : State) : (setCodeSize w s).codeSize = BitVec.ofNat 4 w := rfl
@[simp] theorem setCodeSize_codeMask (w : Nat) (s : State) : (setCodeSize w s).codeMask = BitVec.ofNat 12 (2 ^ w - 1) := rfl
@[simp] theorem setCodeSize_nextCode (w : Nat) (s : State) : (setCodeSize w s).nextCode = s.nextCode := rfl
@[simp] theorem setCodeSize_prevCode (w : Nat) (s : State) : (setCodeSize w s).prevCode = s.prevCode := rfl
@[simp] theorem setCodeSize_bitBuf (w : Nat) (s : State) : (setCodeSize w s).bitBuf = s.bitBuf := rfl
@[simp] theorem setCodeSize_bitCnt (w : Nat) (s : State) : (setCodeSize w s).bitCnt = s.bitCnt := rfl
@[simp] theorem setCodeSize_rdPtr (w : Nat) (s : State) : (setCodeSize w s).rdPtr = s.rdPtr := rfl
@[simp] theorem setCodeSize_table (w : Nat) (s : State) : (setCodeSize w s).table = s.table := rfl
@[simp] theorem setCodeSize_idx (w : Nat) (s : State) : (setCodeSize w s).idx = s.idx := rfl
@[simp] theorem setCodeSize_canvas (w : Nat) (s : State) : (setCodeSize w s).canvas = s.canvas := rfl
@[simp] theorem setCodeSize_snap (w : Nat) (s : State) : (setCodeSize w s).snap = s.snap := rfl
@[simp] theorem setCodeSize_frames (w : Nat) (s : State) : (setCodeSize w s).frames = s.frames := rfl
@[simp] theorem setCodeSize_frameCount (w : Nat) (s : State) : (setCodeSize w s).frameCount = s.frameCount := rfl
@[simp] theorem setCodeSize_tagLog (w : Nat) (s : State) : (setCodeSize w s).tagLog = s.tagLog := rfl
@[simp] theorem setCodeSize_tagCount (w : Nat) (s : State) : (setCodeSize w s).tagCount = s.tagCount := rfl
@[simp] theorem setCodeSize_stage (w : Nat) (s : State) : (setCodeSize w s).stage = s.stage := rfl
@[simp] theorem setCodeSize_blockEnd (w : Nat) (s : State) : (setCodeSize w s).blockEnd = s.blockEnd := rfl
@[simp] theorem setCodeSize_host (w : Nat) (s : State) : (setCodeSize w s).host = s.host := rfl
@[simp] theorem setCodeSize_busData (w : Nat) (s : State) : (setCodeSize w s).busData = s.busData := rfl
@[simp] theorem setCodeSize_freeIdx (w : Nat) (s : State) : (setCodeSize w s).freeIdx = s.freeIdx := rfl
@[simp] theorem setCodeSize_srcEpoch (w : Nat) (s : State) : (setCodeSize w s).srcEpoch = s.srcEpoch := rfl

/-! ## resetCodes -/

@[simp] theorem resetCodes_cfg (s : State) : (resetCodes s).cfg = s.cfg := rfl
@[simp] theorem resetCodes_phase (s : State) : (resetCodes s).phase = s.phase := rfl
@[simp] theorem resetCodes_result (s : State) : (resetCodes s).result = s.result := rfl
@[simp] theorem resetCodes_faultPos (s : State) : (resetCodes s).faultPos = s.faultPos := rfl
@[simp] theorem resetCodes_cur (s : State) : (resetCodes s).cur = s.cur := rfl
@[simp] theorem resetCodes_srcLen (s : State) : (resetCodes s).srcLen = s.srcLen := rfl
@[simp] theorem resetCodes_src (s : State) : (resetCodes s).src = s.src := rfl
@[simp] theorem resetCodes_sig (s : State) : (resetCodes s).sig = s.sig := rfl
@[simp] theorem resetCodes_version (s : State) : (resetCodes s).version = s.version := rfl
@[simp] theorem resetCodes_canvasW (s : State) : (resetCodes s).canvasW = s.canvasW := rfl
@[simp] theorem resetCodes_canvasH (s : State) : (resetCodes s).canvasH = s.canvasH := rfl
@[simp] theorem resetCodes_hasGct (s : State) : (resetCodes s).hasGct = s.hasGct := rfl
@[simp] theorem resetCodes_gctSize (s : State) : (resetCodes s).gctSize = s.gctSize := rfl
@[simp] theorem resetCodes_bgIndex (s : State) : (resetCodes s).bgIndex = s.bgIndex := rfl
@[simp] theorem resetCodes_gpal (s : State) : (resetCodes s).gpal = s.gpal := rfl
@[simp] theorem resetCodes_apal (s : State) : (resetCodes s).apal = s.apal := rfl
@[simp] theorem resetCodes_apalLen (s : State) : (resetCodes s).apalLen = s.apalLen := rfl
@[simp] theorem resetCodes_gceDelay (s : State) : (resetCodes s).gceDelay = s.gceDelay := rfl
@[simp] theorem resetCodes_gceDisposal (s : State) : (resetCodes s).gceDisposal = s.gceDisposal := rfl
@[simp] theorem resetCodes_gceTflag (s : State) : (resetCodes s).gceTflag = s.gceTflag := rfl
@[simp] theorem resetCodes_gceTindex (s : State) : (resetCodes s).gceTindex = s.gceTindex := rfl
@[simp] theorem resetCodes_prevDisposal (s : State) : (resetCodes s).prevDisposal = s.prevDisposal := rfl
@[simp] theorem resetCodes_imgLeft (s : State) : (resetCodes s).imgLeft = s.imgLeft := rfl
@[simp] theorem resetCodes_imgTop (s : State) : (resetCodes s).imgTop = s.imgTop := rfl
@[simp] theorem resetCodes_imgW (s : State) : (resetCodes s).imgW = s.imgW := rfl
@[simp] theorem resetCodes_imgH (s : State) : (resetCodes s).imgH = s.imgH := rfl
@[simp] theorem resetCodes_imgLct (s : State) : (resetCodes s).imgLct = s.imgLct := rfl
@[simp] theorem resetCodes_imgLctSize (s : State) : (resetCodes s).imgLctSize = s.imgLctSize := rfl
@[simp] theorem resetCodes_imgInterlace (s : State) : (resetCodes s).imgInterlace = s.imgInterlace := rfl
@[simp] theorem resetCodes_minCodeSize (s : State) : (resetCodes s).minCodeSize = s.minCodeSize := rfl
@[simp] theorem resetCodes_data (s : State) : (resetCodes s).data = s.data := rfl
@[simp] theorem resetCodes_clearCode (s : State) : (resetCodes s).clearCode = s.clearCode := rfl
@[simp] theorem resetCodes_eoiCode (s : State) : (resetCodes s).eoiCode = s.eoiCode := rfl
@[simp] theorem resetCodes_codeSize (s : State) : (resetCodes s).codeSize = BitVec.ofNat 4 (s.minCodeSize.toNat + 1) := rfl
@[simp] theorem resetCodes_codeMask (s : State) :
    (resetCodes s).codeMask = BitVec.ofNat 12 (2 ^ (s.minCodeSize.toNat + 1) - 1) := rfl
@[simp] theorem resetCodes_nextCode (s : State) : (resetCodes s).nextCode = BitVec.ofNat 13 (s.clearCode.toNat + 2) := rfl
@[simp] theorem resetCodes_prevCode (s : State) : (resetCodes s).prevCode = none := rfl
@[simp] theorem resetCodes_bitBuf (s : State) : (resetCodes s).bitBuf = s.bitBuf := rfl
@[simp] theorem resetCodes_bitCnt (s : State) : (resetCodes s).bitCnt = s.bitCnt := rfl
@[simp] theorem resetCodes_rdPtr (s : State) : (resetCodes s).rdPtr = s.rdPtr := rfl
@[simp] theorem resetCodes_table (s : State) : (resetCodes s).table = s.table := rfl
@[simp] theorem resetCodes_idx (s : State) : (resetCodes s).idx = s.idx := rfl
@[simp] theorem resetCodes_canvas (s : State) : (resetCodes s).canvas = s.canvas := rfl
@[simp] theorem resetCodes_snap (s : State) : (resetCodes s).snap = s.snap := rfl
@[simp] theorem resetCodes_frames (s : State) : (resetCodes s).frames = s.frames := rfl
@[simp] theorem resetCodes_frameCount (s : State) : (resetCodes s).frameCount = s.frameCount := rfl
@[simp] theorem resetCodes_tagLog (s : State) : (resetCodes s).tagLog = s.tagLog := rfl
@[simp] theorem resetCodes_tagCount (s : State) : (resetCodes s).tagCount = s.tagCount := rfl
@[simp] theorem resetCodes_stage (s : State) : (resetCodes s).stage = s.stage := rfl
@[simp] theorem resetCodes_blockEnd (s : State) : (resetCodes s).blockEnd = s.blockEnd := rfl
@[simp] theorem resetCodes_host (s : State) : (resetCodes s).host = s.host := rfl
@[simp] theorem resetCodes_busData (s : State) : (resetCodes s).busData = s.busData := rfl
@[simp] theorem resetCodes_freeIdx (s : State) : (resetCodes s).freeIdx = s.freeIdx := rfl
@[simp] theorem resetCodes_srcEpoch (s : State) : (resetCodes s).srcEpoch = s.srcEpoch := rfl

/-! ## endLzw -/

@[simp] theorem endLzw_cfg (s : State) : (endLzw s).cfg = s.cfg := rfl
@[simp] theorem endLzw_phase (s : State) : (endLzw s).phase = s.phase := rfl
@[simp] theorem endLzw_result (s : State) : (endLzw s).result = s.result := rfl
@[simp] theorem endLzw_faultPos (s : State) : (endLzw s).faultPos = s.faultPos := rfl
@[simp] theorem endLzw_cur (s : State) : (endLzw s).cur = s.cur := rfl
@[simp] theorem endLzw_srcLen (s : State) : (endLzw s).srcLen = s.srcLen := rfl
@[simp] theorem endLzw_src (s : State) : (endLzw s).src = s.src := rfl
@[simp] theorem endLzw_sig (s : State) : (endLzw s).sig = s.sig := rfl
@[simp] theorem endLzw_version (s : State) : (endLzw s).version = s.version := rfl
@[simp] theorem endLzw_canvasW (s : State) : (endLzw s).canvasW = s.canvasW := rfl
@[simp] theorem endLzw_canvasH (s : State) : (endLzw s).canvasH = s.canvasH := rfl
@[simp] theorem endLzw_hasGct (s : State) : (endLzw s).hasGct = s.hasGct := rfl
@[simp] theorem endLzw_gctSize (s : State) : (endLzw s).gctSize = s.gctSize := rfl
@[simp] theorem endLzw_bgIndex (s : State) : (endLzw s).bgIndex = s.bgIndex := rfl
@[simp] theorem endLzw_gpal (s : State) : (endLzw s).gpal = s.gpal := rfl
@[simp] theorem endLzw_apal (s : State) : (endLzw s).apal = s.apal := rfl
@[simp] theorem endLzw_apalLen (s : State) : (endLzw s).apalLen = s.apalLen := rfl
@[simp] theorem endLzw_gceDelay (s : State) : (endLzw s).gceDelay = s.gceDelay := rfl
@[simp] theorem endLzw_gceDisposal (s : State) : (endLzw s).gceDisposal = s.gceDisposal := rfl
@[simp] theorem endLzw_gceTflag (s : State) : (endLzw s).gceTflag = s.gceTflag := rfl
@[simp] theorem endLzw_gceTindex (s : State) : (endLzw s).gceTindex = s.gceTindex := rfl
@[simp] theorem endLzw_prevDisposal (s : State) : (endLzw s).prevDisposal = s.prevDisposal := rfl
@[simp] theorem endLzw_imgLeft (s : State) : (endLzw s).imgLeft = s.imgLeft := rfl
@[simp] theorem endLzw_imgTop (s : State) : (endLzw s).imgTop = s.imgTop := rfl
@[simp] theorem endLzw_imgW (s : State) : (endLzw s).imgW = s.imgW := rfl
@[simp] theorem endLzw_imgH (s : State) : (endLzw s).imgH = s.imgH := rfl
@[simp] theorem endLzw_imgLct (s : State) : (endLzw s).imgLct = s.imgLct := rfl
@[simp] theorem endLzw_imgLctSize (s : State) : (endLzw s).imgLctSize = s.imgLctSize := rfl
@[simp] theorem endLzw_imgInterlace (s : State) : (endLzw s).imgInterlace = s.imgInterlace := rfl
@[simp] theorem endLzw_minCodeSize (s : State) : (endLzw s).minCodeSize = s.minCodeSize := rfl
@[simp] theorem endLzw_data (s : State) : (endLzw s).data = s.data := rfl
@[simp] theorem endLzw_clearCode (s : State) : (endLzw s).clearCode = s.clearCode := rfl
@[simp] theorem endLzw_eoiCode (s : State) : (endLzw s).eoiCode = s.eoiCode := rfl
@[simp] theorem endLzw_codeSize (s : State) : (endLzw s).codeSize = s.codeSize := rfl
@[simp] theorem endLzw_codeMask (s : State) : (endLzw s).codeMask = s.codeMask := rfl
@[simp] theorem endLzw_nextCode (s : State) : (endLzw s).nextCode = s.nextCode := rfl
@[simp] theorem endLzw_prevCode (s : State) : (endLzw s).prevCode = s.prevCode := rfl
@[simp] theorem endLzw_bitBuf (s : State) : (endLzw s).bitBuf = s.bitBuf := rfl
@[simp] theorem endLzw_bitCnt (s : State) : (endLzw s).bitCnt = s.bitCnt := rfl
@[simp] theorem endLzw_rdPtr (s : State) : (endLzw s).rdPtr = s.rdPtr := rfl
@[simp] theorem endLzw_table (s : State) : (endLzw s).table = s.table := rfl
@[simp] theorem endLzw_idx (s : State) : (endLzw s).idx = s.idx := rfl
@[simp] theorem endLzw_canvas (s : State) : (endLzw s).canvas = s.canvas := rfl
@[simp] theorem endLzw_snap (s : State) : (endLzw s).snap = s.snap := rfl
@[simp] theorem endLzw_frames (s : State) : (endLzw s).frames = s.frames := rfl
@[simp] theorem endLzw_frameCount (s : State) : (endLzw s).frameCount = s.frameCount := rfl
@[simp] theorem endLzw_tagLog (s : State) : (endLzw s).tagLog = s.tagLog := rfl
@[simp] theorem endLzw_tagCount (s : State) : (endLzw s).tagCount = s.tagCount := rfl
@[simp] theorem endLzw_stage (s : State) : (endLzw s).stage = .compose := rfl
@[simp] theorem endLzw_blockEnd (s : State) : (endLzw s).blockEnd = s.blockEnd := rfl
@[simp] theorem endLzw_host (s : State) : (endLzw s).host = s.host := rfl
@[simp] theorem endLzw_busData (s : State) : (endLzw s).busData = s.busData := rfl
@[simp] theorem endLzw_freeIdx (s : State) : (endLzw s).freeIdx = s.freeIdx := rfl
@[simp] theorem endLzw_srcEpoch (s : State) : (endLzw s).srcEpoch = s.srcEpoch := rfl

/-! ## widthGrowth -/

@[simp] theorem widthGrowth_cfg (s : State) : (widthGrowth s).cfg = s.cfg := by unfold widthGrowth; split <;> rfl
@[simp] theorem widthGrowth_phase (s : State) : (widthGrowth s).phase = s.phase := by unfold widthGrowth; split <;> rfl
@[simp] theorem widthGrowth_result (s : State) : (widthGrowth s).result = s.result := by unfold widthGrowth; split <;> rfl
@[simp] theorem widthGrowth_faultPos (s : State) : (widthGrowth s).faultPos = s.faultPos := by unfold widthGrowth; split <;> rfl
@[simp] theorem widthGrowth_cur (s : State) : (widthGrowth s).cur = s.cur := by unfold widthGrowth; split <;> rfl
@[simp] theorem widthGrowth_srcLen (s : State) : (widthGrowth s).srcLen = s.srcLen := by unfold widthGrowth; split <;> rfl
@[simp] theorem widthGrowth_src (s : State) : (widthGrowth s).src = s.src := by unfold widthGrowth; split <;> rfl
@[simp] theorem widthGrowth_sig (s : State) : (widthGrowth s).sig = s.sig := by unfold widthGrowth; split <;> rfl
@[simp] theorem widthGrowth_version (s : State) : (widthGrowth s).version = s.version := by unfold widthGrowth; split <;> rfl
@[simp] theorem widthGrowth_canvasW (s : State) : (widthGrowth s).canvasW = s.canvasW := by unfold widthGrowth; split <;> rfl
@[simp] theorem widthGrowth_canvasH (s : State) : (widthGrowth s).canvasH = s.canvasH := by unfold widthGrowth; split <;> rfl
@[simp] theorem widthGrowth_hasGct (s : State) : (widthGrowth s).hasGct = s.hasGct := by unfold widthGrowth; split <;> rfl
@[simp] theorem widthGrowth_gctSize (s : State) : (widthGrowth s).gctSize = s.gctSize := by unfold widthGrowth; split <;> rfl
@[simp] theorem widthGrowth_bgIndex (s : State) : (widthGrowth s).bgIndex = s.bgIndex := by unfold widthGrowth; split <;> rfl
@[simp] theorem widthGrowth_gpal (s : State) : (widthGrowth s).gpal = s.gpal := by unfold widthGrowth; split <;> rfl
@[simp] theorem widthGrowth_apal (s : State) : (widthGrowth s).apal = s.apal := by unfold widthGrowth; split <;> rfl
@[simp] theorem widthGrowth_apalLen (s : State) : (widthGrowth s).apalLen = s.apalLen := by unfold widthGrowth; split <;> rfl
@[simp] theorem widthGrowth_gceDelay (s : State) : (widthGrowth s).gceDelay = s.gceDelay := by unfold widthGrowth; split <;> rfl
@[simp] theorem widthGrowth_gceDisposal (s : State) :
    (widthGrowth s).gceDisposal = s.gceDisposal := by unfold widthGrowth; split <;> rfl
@[simp] theorem widthGrowth_gceTflag (s : State) : (widthGrowth s).gceTflag = s.gceTflag := by unfold widthGrowth; split <;> rfl
@[simp] theorem widthGrowth_gceTindex (s : State) :
    (widthGrowth s).gceTindex = s.gceTindex := by unfold widthGrowth; split <;> rfl
@[simp] theorem widthGrowth_prevDisposal (s : State) :
    (widthGrowth s).prevDisposal = s.prevDisposal := by unfold widthGrowth; split <;> rfl
@[simp] theorem widthGrowth_imgLeft (s : State) : (widthGrowth s).imgLeft = s.imgLeft := by unfold widthGrowth; split <;> rfl
@[simp] theorem widthGrowth_imgTop (s : State) : (widthGrowth s).imgTop = s.imgTop := by unfold widthGrowth; split <;> rfl
@[simp] theorem widthGrowth_imgW (s : State) : (widthGrowth s).imgW = s.imgW := by unfold widthGrowth; split <;> rfl
@[simp] theorem widthGrowth_imgH (s : State) : (widthGrowth s).imgH = s.imgH := by unfold widthGrowth; split <;> rfl
@[simp] theorem widthGrowth_imgLct (s : State) : (widthGrowth s).imgLct = s.imgLct := by unfold widthGrowth; split <;> rfl
@[simp] theorem widthGrowth_imgLctSize (s : State) :
    (widthGrowth s).imgLctSize = s.imgLctSize := by unfold widthGrowth; split <;> rfl
@[simp] theorem widthGrowth_imgInterlace (s : State) :
    (widthGrowth s).imgInterlace = s.imgInterlace := by unfold widthGrowth; split <;> rfl
@[simp] theorem widthGrowth_minCodeSize (s : State) :
    (widthGrowth s).minCodeSize = s.minCodeSize := by unfold widthGrowth; split <;> rfl
@[simp] theorem widthGrowth_data (s : State) : (widthGrowth s).data = s.data := by unfold widthGrowth; split <;> rfl
@[simp] theorem widthGrowth_clearCode (s : State) :
    (widthGrowth s).clearCode = s.clearCode := by unfold widthGrowth; split <;> rfl
@[simp] theorem widthGrowth_eoiCode (s : State) : (widthGrowth s).eoiCode = s.eoiCode := by unfold widthGrowth; split <;> rfl
@[simp] theorem widthGrowth_nextCode (s : State) : (widthGrowth s).nextCode = s.nextCode := by unfold widthGrowth; split <;> rfl
@[simp] theorem widthGrowth_prevCode (s : State) : (widthGrowth s).prevCode = s.prevCode := by unfold widthGrowth; split <;> rfl
@[simp] theorem widthGrowth_bitBuf (s : State) : (widthGrowth s).bitBuf = s.bitBuf := by unfold widthGrowth; split <;> rfl
@[simp] theorem widthGrowth_bitCnt (s : State) : (widthGrowth s).bitCnt = s.bitCnt := by unfold widthGrowth; split <;> rfl
@[simp] theorem widthGrowth_rdPtr (s : State) : (widthGrowth s).rdPtr = s.rdPtr := by unfold widthGrowth; split <;> rfl
@[simp] theorem widthGrowth_table (s : State) : (widthGrowth s).table = s.table := by unfold widthGrowth; split <;> rfl
@[simp] theorem widthGrowth_idx (s : State) : (widthGrowth s).idx = s.idx := by unfold widthGrowth; split <;> rfl
@[simp] theorem widthGrowth_canvas (s : State) : (widthGrowth s).canvas = s.canvas := by unfold widthGrowth; split <;> rfl
@[simp] theorem widthGrowth_snap (s : State) : (widthGrowth s).snap = s.snap := by unfold widthGrowth; split <;> rfl
@[simp] theorem widthGrowth_frames (s : State) : (widthGrowth s).frames = s.frames := by unfold widthGrowth; split <;> rfl
@[simp] theorem widthGrowth_frameCount (s : State) :
    (widthGrowth s).frameCount = s.frameCount := by unfold widthGrowth; split <;> rfl
@[simp] theorem widthGrowth_tagLog (s : State) : (widthGrowth s).tagLog = s.tagLog := by unfold widthGrowth; split <;> rfl
@[simp] theorem widthGrowth_tagCount (s : State) : (widthGrowth s).tagCount = s.tagCount := by unfold widthGrowth; split <;> rfl
@[simp] theorem widthGrowth_stage (s : State) : (widthGrowth s).stage = s.stage := by unfold widthGrowth; split <;> rfl
@[simp] theorem widthGrowth_blockEnd (s : State) : (widthGrowth s).blockEnd = s.blockEnd := by unfold widthGrowth; split <;> rfl
@[simp] theorem widthGrowth_host (s : State) : (widthGrowth s).host = s.host := by unfold widthGrowth; split <;> rfl
@[simp] theorem widthGrowth_busData (s : State) : (widthGrowth s).busData = s.busData := by unfold widthGrowth; split <;> rfl
@[simp] theorem widthGrowth_freeIdx (s : State) : (widthGrowth s).freeIdx = s.freeIdx := by unfold widthGrowth; split <;> rfl
@[simp] theorem widthGrowth_srcEpoch (s : State) : (widthGrowth s).srcEpoch = s.srcEpoch := by unfold widthGrowth; split <;> rfl

/-! ## addEntry -/

@[simp] theorem addEntry_cfg (pc : Code) (k : Sym) (s : State) :
    (addEntry pc k s).cfg = s.cfg := by unfold addEntry; split <;> simp
@[simp] theorem addEntry_phase (pc : Code) (k : Sym) (s : State) :
    (addEntry pc k s).phase = s.phase := by unfold addEntry; split <;> simp
@[simp] theorem addEntry_result (pc : Code) (k : Sym) (s : State) :
    (addEntry pc k s).result = s.result := by unfold addEntry; split <;> simp
@[simp] theorem addEntry_faultPos (pc : Code) (k : Sym) (s : State) :
    (addEntry pc k s).faultPos = s.faultPos := by unfold addEntry; split <;> simp
@[simp] theorem addEntry_cur (pc : Code) (k : Sym) (s : State) :
    (addEntry pc k s).cur = s.cur := by unfold addEntry; split <;> simp
@[simp] theorem addEntry_srcLen (pc : Code) (k : Sym) (s : State) :
    (addEntry pc k s).srcLen = s.srcLen := by unfold addEntry; split <;> simp
@[simp] theorem addEntry_src (pc : Code) (k : Sym) (s : State) :
    (addEntry pc k s).src = s.src := by unfold addEntry; split <;> simp
@[simp] theorem addEntry_sig (pc : Code) (k : Sym) (s : State) :
    (addEntry pc k s).sig = s.sig := by unfold addEntry; split <;> simp
@[simp] theorem addEntry_version (pc : Code) (k : Sym) (s : State) :
    (addEntry pc k s).version = s.version := by unfold addEntry; split <;> simp
@[simp] theorem addEntry_canvasW (pc : Code) (k : Sym) (s : State) :
    (addEntry pc k s).canvasW = s.canvasW := by unfold addEntry; split <;> simp
@[simp] theorem addEntry_canvasH (pc : Code) (k : Sym) (s : State) :
    (addEntry pc k s).canvasH = s.canvasH := by unfold addEntry; split <;> simp
@[simp] theorem addEntry_hasGct (pc : Code) (k : Sym) (s : State) :
    (addEntry pc k s).hasGct = s.hasGct := by unfold addEntry; split <;> simp
@[simp] theorem addEntry_gctSize (pc : Code) (k : Sym) (s : State) :
    (addEntry pc k s).gctSize = s.gctSize := by unfold addEntry; split <;> simp
@[simp] theorem addEntry_bgIndex (pc : Code) (k : Sym) (s : State) :
    (addEntry pc k s).bgIndex = s.bgIndex := by unfold addEntry; split <;> simp
@[simp] theorem addEntry_gpal (pc : Code) (k : Sym) (s : State) :
    (addEntry pc k s).gpal = s.gpal := by unfold addEntry; split <;> simp
@[simp] theorem addEntry_apal (pc : Code) (k : Sym) (s : State) :
    (addEntry pc k s).apal = s.apal := by unfold addEntry; split <;> simp
@[simp] theorem addEntry_apalLen (pc : Code) (k : Sym) (s : State) :
    (addEntry pc k s).apalLen = s.apalLen := by unfold addEntry; split <;> simp
@[simp] theorem addEntry_gceDelay (pc : Code) (k : Sym) (s : State) :
    (addEntry pc k s).gceDelay = s.gceDelay := by unfold addEntry; split <;> simp
@[simp] theorem addEntry_gceDisposal (pc : Code) (k : Sym) (s : State) :
    (addEntry pc k s).gceDisposal = s.gceDisposal := by unfold addEntry; split <;> simp
@[simp] theorem addEntry_gceTflag (pc : Code) (k : Sym) (s : State) :
    (addEntry pc k s).gceTflag = s.gceTflag := by unfold addEntry; split <;> simp
@[simp] theorem addEntry_gceTindex (pc : Code) (k : Sym) (s : State) :
    (addEntry pc k s).gceTindex = s.gceTindex := by unfold addEntry; split <;> simp
@[simp] theorem addEntry_prevDisposal (pc : Code) (k : Sym) (s : State) :
    (addEntry pc k s).prevDisposal = s.prevDisposal := by unfold addEntry; split <;> simp
@[simp] theorem addEntry_imgLeft (pc : Code) (k : Sym) (s : State) :
    (addEntry pc k s).imgLeft = s.imgLeft := by unfold addEntry; split <;> simp
@[simp] theorem addEntry_imgTop (pc : Code) (k : Sym) (s : State) :
    (addEntry pc k s).imgTop = s.imgTop := by unfold addEntry; split <;> simp
@[simp] theorem addEntry_imgW (pc : Code) (k : Sym) (s : State) :
    (addEntry pc k s).imgW = s.imgW := by unfold addEntry; split <;> simp
@[simp] theorem addEntry_imgH (pc : Code) (k : Sym) (s : State) :
    (addEntry pc k s).imgH = s.imgH := by unfold addEntry; split <;> simp
@[simp] theorem addEntry_imgLct (pc : Code) (k : Sym) (s : State) :
    (addEntry pc k s).imgLct = s.imgLct := by unfold addEntry; split <;> simp
@[simp] theorem addEntry_imgLctSize (pc : Code) (k : Sym) (s : State) :
    (addEntry pc k s).imgLctSize = s.imgLctSize := by unfold addEntry; split <;> simp
@[simp] theorem addEntry_imgInterlace (pc : Code) (k : Sym) (s : State) :
    (addEntry pc k s).imgInterlace = s.imgInterlace := by unfold addEntry; split <;> simp
@[simp] theorem addEntry_minCodeSize (pc : Code) (k : Sym) (s : State) :
    (addEntry pc k s).minCodeSize = s.minCodeSize := by unfold addEntry; split <;> simp
@[simp] theorem addEntry_data (pc : Code) (k : Sym) (s : State) :
    (addEntry pc k s).data = s.data := by unfold addEntry; split <;> simp
@[simp] theorem addEntry_clearCode (pc : Code) (k : Sym) (s : State) :
    (addEntry pc k s).clearCode = s.clearCode := by unfold addEntry; split <;> simp
@[simp] theorem addEntry_eoiCode (pc : Code) (k : Sym) (s : State) :
    (addEntry pc k s).eoiCode = s.eoiCode := by unfold addEntry; split <;> simp
@[simp] theorem addEntry_prevCode (pc : Code) (k : Sym) (s : State) :
    (addEntry pc k s).prevCode = s.prevCode := by unfold addEntry; split <;> simp
@[simp] theorem addEntry_bitBuf (pc : Code) (k : Sym) (s : State) :
    (addEntry pc k s).bitBuf = s.bitBuf := by unfold addEntry; split <;> simp
@[simp] theorem addEntry_bitCnt (pc : Code) (k : Sym) (s : State) :
    (addEntry pc k s).bitCnt = s.bitCnt := by unfold addEntry; split <;> simp
@[simp] theorem addEntry_rdPtr (pc : Code) (k : Sym) (s : State) :
    (addEntry pc k s).rdPtr = s.rdPtr := by unfold addEntry; split <;> simp
@[simp] theorem addEntry_idx (pc : Code) (k : Sym) (s : State) :
    (addEntry pc k s).idx = s.idx := by unfold addEntry; split <;> simp
@[simp] theorem addEntry_canvas (pc : Code) (k : Sym) (s : State) :
    (addEntry pc k s).canvas = s.canvas := by unfold addEntry; split <;> simp
@[simp] theorem addEntry_snap (pc : Code) (k : Sym) (s : State) :
    (addEntry pc k s).snap = s.snap := by unfold addEntry; split <;> simp
@[simp] theorem addEntry_frames (pc : Code) (k : Sym) (s : State) :
    (addEntry pc k s).frames = s.frames := by unfold addEntry; split <;> simp
@[simp] theorem addEntry_frameCount (pc : Code) (k : Sym) (s : State) :
    (addEntry pc k s).frameCount = s.frameCount := by unfold addEntry; split <;> simp
@[simp] theorem addEntry_tagLog (pc : Code) (k : Sym) (s : State) :
    (addEntry pc k s).tagLog = s.tagLog := by unfold addEntry; split <;> simp
@[simp] theorem addEntry_tagCount (pc : Code) (k : Sym) (s : State) :
    (addEntry pc k s).tagCount = s.tagCount := by unfold addEntry; split <;> simp
@[simp] theorem addEntry_stage (pc : Code) (k : Sym) (s : State) :
    (addEntry pc k s).stage = s.stage := by unfold addEntry; split <;> simp
@[simp] theorem addEntry_blockEnd (pc : Code) (k : Sym) (s : State) :
    (addEntry pc k s).blockEnd = s.blockEnd := by unfold addEntry; split <;> simp
@[simp] theorem addEntry_host (pc : Code) (k : Sym) (s : State) :
    (addEntry pc k s).host = s.host := by unfold addEntry; split <;> simp
@[simp] theorem addEntry_busData (pc : Code) (k : Sym) (s : State) :
    (addEntry pc k s).busData = s.busData := by unfold addEntry; split <;> simp
@[simp] theorem addEntry_freeIdx (pc : Code) (k : Sym) (s : State) :
    (addEntry pc k s).freeIdx = s.freeIdx := by unfold addEntry; split <;> simp
@[simp] theorem addEntry_srcEpoch (pc : Code) (k : Sym) (s : State) :
    (addEntry pc k s).srcEpoch = s.srcEpoch := by unfold addEntry; split <;> simp

/-! ## emitRun -/

@[simp] theorem emitRun_cfg (run : List Sym) (pc : Code) (k : Sym) (c : Code) (s : State) :
    (emitRun run pc k c s).cfg = s.cfg := by simp [emitRun]
@[simp] theorem emitRun_phase (run : List Sym) (pc : Code) (k : Sym) (c : Code) (s : State) :
    (emitRun run pc k c s).phase = s.phase := by simp [emitRun]
@[simp] theorem emitRun_result (run : List Sym) (pc : Code) (k : Sym) (c : Code) (s : State) :
    (emitRun run pc k c s).result = s.result := by simp [emitRun]
@[simp] theorem emitRun_faultPos (run : List Sym) (pc : Code) (k : Sym) (c : Code) (s : State) :
    (emitRun run pc k c s).faultPos = s.faultPos := by simp [emitRun]
@[simp] theorem emitRun_cur (run : List Sym) (pc : Code) (k : Sym) (c : Code) (s : State) :
    (emitRun run pc k c s).cur = s.cur := by simp [emitRun]
@[simp] theorem emitRun_srcLen (run : List Sym) (pc : Code) (k : Sym) (c : Code) (s : State) :
    (emitRun run pc k c s).srcLen = s.srcLen := by simp [emitRun]
@[simp] theorem emitRun_src (run : List Sym) (pc : Code) (k : Sym) (c : Code) (s : State) :
    (emitRun run pc k c s).src = s.src := by simp [emitRun]
@[simp] theorem emitRun_sig (run : List Sym) (pc : Code) (k : Sym) (c : Code) (s : State) :
    (emitRun run pc k c s).sig = s.sig := by simp [emitRun]
@[simp] theorem emitRun_version (run : List Sym) (pc : Code) (k : Sym) (c : Code) (s : State) :
    (emitRun run pc k c s).version = s.version := by simp [emitRun]
@[simp] theorem emitRun_canvasW (run : List Sym) (pc : Code) (k : Sym) (c : Code) (s : State) :
    (emitRun run pc k c s).canvasW = s.canvasW := by simp [emitRun]
@[simp] theorem emitRun_canvasH (run : List Sym) (pc : Code) (k : Sym) (c : Code) (s : State) :
    (emitRun run pc k c s).canvasH = s.canvasH := by simp [emitRun]
@[simp] theorem emitRun_hasGct (run : List Sym) (pc : Code) (k : Sym) (c : Code) (s : State) :
    (emitRun run pc k c s).hasGct = s.hasGct := by simp [emitRun]
@[simp] theorem emitRun_gctSize (run : List Sym) (pc : Code) (k : Sym) (c : Code) (s : State) :
    (emitRun run pc k c s).gctSize = s.gctSize := by simp [emitRun]
@[simp] theorem emitRun_bgIndex (run : List Sym) (pc : Code) (k : Sym) (c : Code) (s : State) :
    (emitRun run pc k c s).bgIndex = s.bgIndex := by simp [emitRun]
@[simp] theorem emitRun_gpal (run : List Sym) (pc : Code) (k : Sym) (c : Code) (s : State) :
    (emitRun run pc k c s).gpal = s.gpal := by simp [emitRun]
@[simp] theorem emitRun_apal (run : List Sym) (pc : Code) (k : Sym) (c : Code) (s : State) :
    (emitRun run pc k c s).apal = s.apal := by simp [emitRun]
@[simp] theorem emitRun_apalLen (run : List Sym) (pc : Code) (k : Sym) (c : Code) (s : State) :
    (emitRun run pc k c s).apalLen = s.apalLen := by simp [emitRun]
@[simp] theorem emitRun_gceDelay (run : List Sym) (pc : Code) (k : Sym) (c : Code) (s : State) :
    (emitRun run pc k c s).gceDelay = s.gceDelay := by simp [emitRun]
@[simp] theorem emitRun_gceDisposal (run : List Sym) (pc : Code) (k : Sym) (c : Code) (s : State) :
    (emitRun run pc k c s).gceDisposal = s.gceDisposal := by simp [emitRun]
@[simp] theorem emitRun_gceTflag (run : List Sym) (pc : Code) (k : Sym) (c : Code) (s : State) :
    (emitRun run pc k c s).gceTflag = s.gceTflag := by simp [emitRun]
@[simp] theorem emitRun_gceTindex (run : List Sym) (pc : Code) (k : Sym) (c : Code) (s : State) :
    (emitRun run pc k c s).gceTindex = s.gceTindex := by simp [emitRun]
@[simp] theorem emitRun_prevDisposal (run : List Sym) (pc : Code) (k : Sym) (c : Code) (s : State) :
    (emitRun run pc k c s).prevDisposal = s.prevDisposal := by simp [emitRun]
@[simp] theorem emitRun_imgLeft (run : List Sym) (pc : Code) (k : Sym) (c : Code) (s : State) :
    (emitRun run pc k c s).imgLeft = s.imgLeft := by simp [emitRun]
@[simp] theorem emitRun_imgTop (run : List Sym) (pc : Code) (k : Sym) (c : Code) (s : State) :
    (emitRun run pc k c s).imgTop = s.imgTop := by simp [emitRun]
@[simp] theorem emitRun_imgW (run : List Sym) (pc : Code) (k : Sym) (c : Code) (s : State) :
    (emitRun run pc k c s).imgW = s.imgW := by simp [emitRun]
@[simp] theorem emitRun_imgH (run : List Sym) (pc : Code) (k : Sym) (c : Code) (s : State) :
    (emitRun run pc k c s).imgH = s.imgH := by simp [emitRun]
@[simp] theorem emitRun_imgLct (run : List Sym) (pc : Code) (k : Sym) (c : Code) (s : State) :
    (emitRun run pc k c s).imgLct = s.imgLct := by simp [emitRun]
@[simp] theorem emitRun_imgLctSize (run : List Sym) (pc : Code) (k : Sym) (c : Code) (s : State) :
    (emitRun run pc k c s).imgLctSize = s.imgLctSize := by simp [emitRun]
@[simp] theorem emitRun_imgInterlace (run : List Sym) (pc : Code) (k : Sym) (c : Code) (s : State) :
    (emitRun run pc k c s).imgInterlace = s.imgInterlace := by simp [emitRun]
@[simp] theorem emitRun_minCodeSize (run : List Sym) (pc : Code) (k : Sym) (c : Code) (s : State) :
    (emitRun run pc k c s).minCodeSize = s.minCodeSize := by simp [emitRun]
@[simp] theorem emitRun_data (run : List Sym) (pc : Code) (k : Sym) (c : Code) (s : State) :
    (emitRun run pc k c s).data = s.data := by simp [emitRun]
@[simp] theorem emitRun_clearCode (run : List Sym) (pc : Code) (k : Sym) (c : Code) (s : State) :
    (emitRun run pc k c s).clearCode = s.clearCode := by simp [emitRun]
@[simp] theorem emitRun_eoiCode (run : List Sym) (pc : Code) (k : Sym) (c : Code) (s : State) :
    (emitRun run pc k c s).eoiCode = s.eoiCode := by simp [emitRun]
@[simp] theorem emitRun_prevCode (run : List Sym) (pc : Code) (k : Sym) (c : Code) (s : State) :
    (emitRun run pc k c s).prevCode = some c := rfl
@[simp] theorem emitRun_bitBuf (run : List Sym) (pc : Code) (k : Sym) (c : Code) (s : State) :
    (emitRun run pc k c s).bitBuf = s.bitBuf := by simp [emitRun]
@[simp] theorem emitRun_bitCnt (run : List Sym) (pc : Code) (k : Sym) (c : Code) (s : State) :
    (emitRun run pc k c s).bitCnt = s.bitCnt := by simp [emitRun]
@[simp] theorem emitRun_rdPtr (run : List Sym) (pc : Code) (k : Sym) (c : Code) (s : State) :
    (emitRun run pc k c s).rdPtr = s.rdPtr := by simp [emitRun]
@[simp] theorem emitRun_idx (run : List Sym) (pc : Code) (k : Sym) (c : Code) (s : State) :
    (emitRun run pc k c s).idx = s.idx ++ run := by simp [emitRun]
@[simp] theorem emitRun_canvas (run : List Sym) (pc : Code) (k : Sym) (c : Code) (s : State) :
    (emitRun run pc k c s).canvas = s.canvas := by simp [emitRun]
@[simp] theorem emitRun_snap (run : List Sym) (pc : Code) (k : Sym) (c : Code) (s : State) :
    (emitRun run pc k c s).snap = s.snap := by simp [emitRun]
@[simp] theorem emitRun_frames (run : List Sym) (pc : Code) (k : Sym) (c : Code) (s : State) :
    (emitRun run pc k c s).frames = s.frames := by simp [emitRun]
@[simp] theorem emitRun_frameCount (run : List Sym) (pc : Code) (k : Sym) (c : Code) (s : State) :
    (emitRun run pc k c s).frameCount = s.frameCount := by simp [emitRun]
@[simp] theorem emitRun_tagLog (run : List Sym) (pc : Code) (k : Sym) (c : Code) (s : State) :
    (emitRun run pc k c s).tagLog = s.tagLog := by simp [emitRun]
@[simp] theorem emitRun_tagCount (run : List Sym) (pc : Code) (k : Sym) (c : Code) (s : State) :
    (emitRun run pc k c s).tagCount = s.tagCount := by simp [emitRun]
@[simp] theorem emitRun_stage (run : List Sym) (pc : Code) (k : Sym) (c : Code) (s : State) :
    (emitRun run pc k c s).stage = s.stage := by simp [emitRun]
@[simp] theorem emitRun_blockEnd (run : List Sym) (pc : Code) (k : Sym) (c : Code) (s : State) :
    (emitRun run pc k c s).blockEnd = s.blockEnd := by simp [emitRun]
@[simp] theorem emitRun_host (run : List Sym) (pc : Code) (k : Sym) (c : Code) (s : State) :
    (emitRun run pc k c s).host = s.host := by simp [emitRun]
@[simp] theorem emitRun_busData (run : List Sym) (pc : Code) (k : Sym) (c : Code) (s : State) :
    (emitRun run pc k c s).busData = s.busData := by simp [emitRun]
@[simp] theorem emitRun_freeIdx (run : List Sym) (pc : Code) (k : Sym) (c : Code) (s : State) :
    (emitRun run pc k c s).freeIdx = s.freeIdx := by simp [emitRun]
@[simp] theorem emitRun_srcEpoch (run : List Sym) (pc : Code) (k : Sym) (c : Code) (s : State) :
    (emitRun run pc k c s).srcEpoch = s.srcEpoch := by simp [emitRun]

/-! ## toNextBlock -/

@[simp] theorem toNextBlock_cfg (q : Nat) (s : State) : (toNextBlock q s).cfg = s.cfg := rfl
@[simp] theorem toNextBlock_phase (q : Nat) (s : State) : (toNextBlock q s).phase = s.phase := rfl
@[simp] theorem toNextBlock_result (q : Nat) (s : State) : (toNextBlock q s).result = s.result := rfl
@[simp] theorem toNextBlock_faultPos (q : Nat) (s : State) : (toNextBlock q s).faultPos = s.faultPos := rfl
@[simp] theorem toNextBlock_cur (q : Nat) (s : State) : (toNextBlock q s).cur = BitVec.ofNat 32 q := rfl
@[simp] theorem toNextBlock_srcLen (q : Nat) (s : State) : (toNextBlock q s).srcLen = s.srcLen := rfl
@[simp] theorem toNextBlock_src (q : Nat) (s : State) : (toNextBlock q s).src = s.src := rfl
@[simp] theorem toNextBlock_sig (q : Nat) (s : State) : (toNextBlock q s).sig = s.sig := rfl
@[simp] theorem toNextBlock_version (q : Nat) (s : State) : (toNextBlock q s).version = s.version := rfl
@[simp] theorem toNextBlock_canvasW (q : Nat) (s : State) : (toNextBlock q s).canvasW = s.canvasW := rfl
@[simp] theorem toNextBlock_canvasH (q : Nat) (s : State) : (toNextBlock q s).canvasH = s.canvasH := rfl
@[simp] theorem toNextBlock_hasGct (q : Nat) (s : State) : (toNextBlock q s).hasGct = s.hasGct := rfl
@[simp] theorem toNextBlock_gctSize (q : Nat) (s : State) : (toNextBlock q s).gctSize = s.gctSize := rfl
@[simp] theorem toNextBlock_bgIndex (q : Nat) (s : State) : (toNextBlock q s).bgIndex = s.bgIndex := rfl
@[simp] theorem toNextBlock_gpal (q : Nat) (s : State) : (toNextBlock q s).gpal = s.gpal := rfl
@[simp] theorem toNextBlock_apal (q : Nat) (s : State) : (toNextBlock q s).apal = s.apal := rfl
@[simp] theorem toNextBlock_apalLen (q : Nat) (s : State) : (toNextBlock q s).apalLen = s.apalLen := rfl
@[simp] theorem toNextBlock_gceDelay (q : Nat) (s : State) : (toNextBlock q s).gceDelay = s.gceDelay := rfl
@[simp] theorem toNextBlock_gceDisposal (q : Nat) (s : State) : (toNextBlock q s).gceDisposal = s.gceDisposal := rfl
@[simp] theorem toNextBlock_gceTflag (q : Nat) (s : State) : (toNextBlock q s).gceTflag = s.gceTflag := rfl
@[simp] theorem toNextBlock_gceTindex (q : Nat) (s : State) : (toNextBlock q s).gceTindex = s.gceTindex := rfl
@[simp] theorem toNextBlock_prevDisposal (q : Nat) (s : State) : (toNextBlock q s).prevDisposal = s.prevDisposal := rfl
@[simp] theorem toNextBlock_imgLeft (q : Nat) (s : State) : (toNextBlock q s).imgLeft = s.imgLeft := rfl
@[simp] theorem toNextBlock_imgTop (q : Nat) (s : State) : (toNextBlock q s).imgTop = s.imgTop := rfl
@[simp] theorem toNextBlock_imgW (q : Nat) (s : State) : (toNextBlock q s).imgW = s.imgW := rfl
@[simp] theorem toNextBlock_imgH (q : Nat) (s : State) : (toNextBlock q s).imgH = s.imgH := rfl
@[simp] theorem toNextBlock_imgLct (q : Nat) (s : State) : (toNextBlock q s).imgLct = s.imgLct := rfl
@[simp] theorem toNextBlock_imgLctSize (q : Nat) (s : State) : (toNextBlock q s).imgLctSize = s.imgLctSize := rfl
@[simp] theorem toNextBlock_imgInterlace (q : Nat) (s : State) : (toNextBlock q s).imgInterlace = s.imgInterlace := rfl
@[simp] theorem toNextBlock_minCodeSize (q : Nat) (s : State) : (toNextBlock q s).minCodeSize = s.minCodeSize := rfl
@[simp] theorem toNextBlock_data (q : Nat) (s : State) : (toNextBlock q s).data = s.data := rfl
@[simp] theorem toNextBlock_clearCode (q : Nat) (s : State) : (toNextBlock q s).clearCode = s.clearCode := rfl
@[simp] theorem toNextBlock_eoiCode (q : Nat) (s : State) : (toNextBlock q s).eoiCode = s.eoiCode := rfl
@[simp] theorem toNextBlock_codeSize (q : Nat) (s : State) : (toNextBlock q s).codeSize = s.codeSize := rfl
@[simp] theorem toNextBlock_codeMask (q : Nat) (s : State) : (toNextBlock q s).codeMask = s.codeMask := rfl
@[simp] theorem toNextBlock_nextCode (q : Nat) (s : State) : (toNextBlock q s).nextCode = s.nextCode := rfl
@[simp] theorem toNextBlock_prevCode (q : Nat) (s : State) : (toNextBlock q s).prevCode = s.prevCode := rfl
@[simp] theorem toNextBlock_bitBuf (q : Nat) (s : State) : (toNextBlock q s).bitBuf = s.bitBuf := rfl
@[simp] theorem toNextBlock_bitCnt (q : Nat) (s : State) : (toNextBlock q s).bitCnt = s.bitCnt := rfl
@[simp] theorem toNextBlock_rdPtr (q : Nat) (s : State) : (toNextBlock q s).rdPtr = s.rdPtr := rfl
@[simp] theorem toNextBlock_table (q : Nat) (s : State) : (toNextBlock q s).table = s.table := rfl
@[simp] theorem toNextBlock_idx (q : Nat) (s : State) : (toNextBlock q s).idx = s.idx := rfl
@[simp] theorem toNextBlock_canvas (q : Nat) (s : State) : (toNextBlock q s).canvas = s.canvas := rfl
@[simp] theorem toNextBlock_snap (q : Nat) (s : State) : (toNextBlock q s).snap = s.snap := rfl
@[simp] theorem toNextBlock_frames (q : Nat) (s : State) : (toNextBlock q s).frames = s.frames := rfl
@[simp] theorem toNextBlock_frameCount (q : Nat) (s : State) : (toNextBlock q s).frameCount = s.frameCount := rfl
@[simp] theorem toNextBlock_tagLog (q : Nat) (s : State) : (toNextBlock q s).tagLog = s.tagLog := rfl
@[simp] theorem toNextBlock_tagCount (q : Nat) (s : State) : (toNextBlock q s).tagCount = s.tagCount := rfl
@[simp] theorem toNextBlock_stage (q : Nat) (s : State) : (toNextBlock q s).stage = .walker := rfl
@[simp] theorem toNextBlock_blockEnd (q : Nat) (s : State) : (toNextBlock q s).blockEnd = s.blockEnd := rfl
@[simp] theorem toNextBlock_host (q : Nat) (s : State) : (toNextBlock q s).host = s.host := rfl
@[simp] theorem toNextBlock_busData (q : Nat) (s : State) : (toNextBlock q s).busData = s.busData := rfl
@[simp] theorem toNextBlock_freeIdx (q : Nat) (s : State) : (toNextBlock q s).freeIdx = s.freeIdx := rfl
@[simp] theorem toNextBlock_srcEpoch (q : Nat) (s : State) : (toNextBlock q s).srcEpoch = s.srcEpoch := rfl

/-! ## toRetire -/

@[simp] theorem toRetire_cfg (s : State) : (toRetire s).cfg = s.cfg := rfl
@[simp] theorem toRetire_phase (s : State) : (toRetire s).phase = s.phase := rfl
@[simp] theorem toRetire_result (s : State) : (toRetire s).result = s.result := rfl
@[simp] theorem toRetire_faultPos (s : State) : (toRetire s).faultPos = s.faultPos := rfl
@[simp] theorem toRetire_cur (s : State) : (toRetire s).cur = s.cur := rfl
@[simp] theorem toRetire_srcLen (s : State) : (toRetire s).srcLen = s.srcLen := rfl
@[simp] theorem toRetire_src (s : State) : (toRetire s).src = s.src := rfl
@[simp] theorem toRetire_sig (s : State) : (toRetire s).sig = s.sig := rfl
@[simp] theorem toRetire_version (s : State) : (toRetire s).version = s.version := rfl
@[simp] theorem toRetire_canvasW (s : State) : (toRetire s).canvasW = s.canvasW := rfl
@[simp] theorem toRetire_canvasH (s : State) : (toRetire s).canvasH = s.canvasH := rfl
@[simp] theorem toRetire_hasGct (s : State) : (toRetire s).hasGct = s.hasGct := rfl
@[simp] theorem toRetire_gctSize (s : State) : (toRetire s).gctSize = s.gctSize := rfl
@[simp] theorem toRetire_bgIndex (s : State) : (toRetire s).bgIndex = s.bgIndex := rfl
@[simp] theorem toRetire_gpal (s : State) : (toRetire s).gpal = s.gpal := rfl
@[simp] theorem toRetire_apal (s : State) : (toRetire s).apal = s.apal := rfl
@[simp] theorem toRetire_apalLen (s : State) : (toRetire s).apalLen = s.apalLen := rfl
@[simp] theorem toRetire_gceDelay (s : State) : (toRetire s).gceDelay = s.gceDelay := rfl
@[simp] theorem toRetire_gceDisposal (s : State) : (toRetire s).gceDisposal = s.gceDisposal := rfl
@[simp] theorem toRetire_gceTflag (s : State) : (toRetire s).gceTflag = s.gceTflag := rfl
@[simp] theorem toRetire_gceTindex (s : State) : (toRetire s).gceTindex = s.gceTindex := rfl
@[simp] theorem toRetire_prevDisposal (s : State) : (toRetire s).prevDisposal = s.prevDisposal := rfl
@[simp] theorem toRetire_imgLeft (s : State) : (toRetire s).imgLeft = s.imgLeft := rfl
@[simp] theorem toRetire_imgTop (s : State) : (toRetire s).imgTop = s.imgTop := rfl
@[simp] theorem toRetire_imgW (s : State) : (toRetire s).imgW = s.imgW := rfl
@[simp] theorem toRetire_imgH (s : State) : (toRetire s).imgH = s.imgH := rfl
@[simp] theorem toRetire_imgLct (s : State) : (toRetire s).imgLct = s.imgLct := rfl
@[simp] theorem toRetire_imgLctSize (s : State) : (toRetire s).imgLctSize = s.imgLctSize := rfl
@[simp] theorem toRetire_imgInterlace (s : State) : (toRetire s).imgInterlace = s.imgInterlace := rfl
@[simp] theorem toRetire_minCodeSize (s : State) : (toRetire s).minCodeSize = s.minCodeSize := rfl
@[simp] theorem toRetire_data (s : State) : (toRetire s).data = s.data := rfl
@[simp] theorem toRetire_clearCode (s : State) : (toRetire s).clearCode = s.clearCode := rfl
@[simp] theorem toRetire_eoiCode (s : State) : (toRetire s).eoiCode = s.eoiCode := rfl
@[simp] theorem toRetire_codeSize (s : State) : (toRetire s).codeSize = s.codeSize := rfl
@[simp] theorem toRetire_codeMask (s : State) : (toRetire s).codeMask = s.codeMask := rfl
@[simp] theorem toRetire_nextCode (s : State) : (toRetire s).nextCode = s.nextCode := rfl
@[simp] theorem toRetire_prevCode (s : State) : (toRetire s).prevCode = s.prevCode := rfl
@[simp] theorem toRetire_bitBuf (s : State) : (toRetire s).bitBuf = s.bitBuf := rfl
@[simp] theorem toRetire_bitCnt (s : State) : (toRetire s).bitCnt = s.bitCnt := rfl
@[simp] theorem toRetire_rdPtr (s : State) : (toRetire s).rdPtr = s.rdPtr := rfl
@[simp] theorem toRetire_table (s : State) : (toRetire s).table = s.table := rfl
@[simp] theorem toRetire_idx (s : State) : (toRetire s).idx = s.idx := rfl
@[simp] theorem toRetire_canvas (s : State) : (toRetire s).canvas = s.canvas := rfl
@[simp] theorem toRetire_snap (s : State) : (toRetire s).snap = s.snap := rfl
@[simp] theorem toRetire_frames (s : State) : (toRetire s).frames = s.frames := rfl
@[simp] theorem toRetire_frameCount (s : State) : (toRetire s).frameCount = s.frameCount := rfl
@[simp] theorem toRetire_tagLog (s : State) : (toRetire s).tagLog = s.tagLog := rfl
@[simp] theorem toRetire_tagCount (s : State) : (toRetire s).tagCount = s.tagCount := rfl
@[simp] theorem toRetire_stage (s : State) : (toRetire s).stage = .retire := rfl
@[simp] theorem toRetire_blockEnd (s : State) : (toRetire s).blockEnd = s.blockEnd := rfl
@[simp] theorem toRetire_host (s : State) : (toRetire s).host = s.host := rfl
@[simp] theorem toRetire_busData (s : State) : (toRetire s).busData = s.busData := rfl
@[simp] theorem toRetire_freeIdx (s : State) : (toRetire s).freeIdx = s.freeIdx := rfl
@[simp] theorem toRetire_srcEpoch (s : State) : (toRetire s).srcEpoch = s.srcEpoch := rfl

/-! ## retireImage -/

@[simp] theorem retireImage_cfg (s : State) : (retireImage s).cfg = s.cfg := rfl
@[simp] theorem retireImage_phase (s : State) : (retireImage s).phase = s.phase := rfl
@[simp] theorem retireImage_result (s : State) : (retireImage s).result = s.result := rfl
@[simp] theorem retireImage_faultPos (s : State) : (retireImage s).faultPos = s.faultPos := rfl
@[simp] theorem retireImage_cur (s : State) : (retireImage s).cur = s.blockEnd := rfl
@[simp] theorem retireImage_srcLen (s : State) : (retireImage s).srcLen = s.srcLen := rfl
@[simp] theorem retireImage_src (s : State) : (retireImage s).src = s.src := rfl
@[simp] theorem retireImage_sig (s : State) : (retireImage s).sig = s.sig := rfl
@[simp] theorem retireImage_version (s : State) : (retireImage s).version = s.version := rfl
@[simp] theorem retireImage_canvasW (s : State) : (retireImage s).canvasW = s.canvasW := rfl
@[simp] theorem retireImage_canvasH (s : State) : (retireImage s).canvasH = s.canvasH := rfl
@[simp] theorem retireImage_hasGct (s : State) : (retireImage s).hasGct = s.hasGct := rfl
@[simp] theorem retireImage_gctSize (s : State) : (retireImage s).gctSize = s.gctSize := rfl
@[simp] theorem retireImage_bgIndex (s : State) : (retireImage s).bgIndex = s.bgIndex := rfl
@[simp] theorem retireImage_gpal (s : State) : (retireImage s).gpal = s.gpal := rfl
@[simp] theorem retireImage_apal (s : State) : (retireImage s).apal = s.apal := rfl
@[simp] theorem retireImage_apalLen (s : State) : (retireImage s).apalLen = s.apalLen := rfl
@[simp] theorem retireImage_gceDelay (s : State) : (retireImage s).gceDelay = 0 := rfl
@[simp] theorem retireImage_gceDisposal (s : State) : (retireImage s).gceDisposal = 0 := rfl
@[simp] theorem retireImage_gceTflag (s : State) : (retireImage s).gceTflag = false := rfl
@[simp] theorem retireImage_gceTindex (s : State) : (retireImage s).gceTindex = 0 := rfl
@[simp] theorem retireImage_prevDisposal (s : State) : (retireImage s).prevDisposal = s.gceDisposal := rfl
@[simp] theorem retireImage_imgLeft (s : State) : (retireImage s).imgLeft = s.imgLeft := rfl
@[simp] theorem retireImage_imgTop (s : State) : (retireImage s).imgTop = s.imgTop := rfl
@[simp] theorem retireImage_imgW (s : State) : (retireImage s).imgW = s.imgW := rfl
@[simp] theorem retireImage_imgH (s : State) : (retireImage s).imgH = s.imgH := rfl
@[simp] theorem retireImage_imgLct (s : State) : (retireImage s).imgLct = s.imgLct := rfl
@[simp] theorem retireImage_imgLctSize (s : State) : (retireImage s).imgLctSize = s.imgLctSize := rfl
@[simp] theorem retireImage_imgInterlace (s : State) : (retireImage s).imgInterlace = s.imgInterlace := rfl
@[simp] theorem retireImage_minCodeSize (s : State) : (retireImage s).minCodeSize = s.minCodeSize := rfl
@[simp] theorem retireImage_data (s : State) : (retireImage s).data = s.data := rfl
@[simp] theorem retireImage_clearCode (s : State) : (retireImage s).clearCode = s.clearCode := rfl
@[simp] theorem retireImage_eoiCode (s : State) : (retireImage s).eoiCode = s.eoiCode := rfl
@[simp] theorem retireImage_codeSize (s : State) : (retireImage s).codeSize = s.codeSize := rfl
@[simp] theorem retireImage_codeMask (s : State) : (retireImage s).codeMask = s.codeMask := rfl
@[simp] theorem retireImage_nextCode (s : State) : (retireImage s).nextCode = s.nextCode := rfl
@[simp] theorem retireImage_prevCode (s : State) : (retireImage s).prevCode = s.prevCode := rfl
@[simp] theorem retireImage_bitBuf (s : State) : (retireImage s).bitBuf = s.bitBuf := rfl
@[simp] theorem retireImage_bitCnt (s : State) : (retireImage s).bitCnt = s.bitCnt := rfl
@[simp] theorem retireImage_rdPtr (s : State) : (retireImage s).rdPtr = s.rdPtr := rfl
@[simp] theorem retireImage_table (s : State) : (retireImage s).table = s.table := rfl
@[simp] theorem retireImage_idx (s : State) : (retireImage s).idx = s.idx := rfl
@[simp] theorem retireImage_canvas (s : State) : (retireImage s).canvas = s.canvas := rfl
@[simp] theorem retireImage_snap (s : State) : (retireImage s).snap = s.snap := rfl
@[simp] theorem retireImage_frames (s : State) : (retireImage s).frames = s.frames := rfl
@[simp] theorem retireImage_frameCount (s : State) : (retireImage s).frameCount = s.frameCount := rfl
@[simp] theorem retireImage_tagLog (s : State) : (retireImage s).tagLog = s.tagLog := rfl
@[simp] theorem retireImage_tagCount (s : State) : (retireImage s).tagCount = s.tagCount := rfl
@[simp] theorem retireImage_stage (s : State) : (retireImage s).stage = .walker := rfl
@[simp] theorem retireImage_blockEnd (s : State) : (retireImage s).blockEnd = s.blockEnd := rfl
@[simp] theorem retireImage_host (s : State) : (retireImage s).host = s.host := rfl
@[simp] theorem retireImage_busData (s : State) : (retireImage s).busData = s.busData := rfl
@[simp] theorem retireImage_freeIdx (s : State) : (retireImage s).freeIdx = s.freeIdx := rfl
@[simp] theorem retireImage_srcEpoch (s : State) : (retireImage s).srcEpoch = s.srcEpoch := rfl

/-! ## clearDecode -/

@[simp] theorem clearDecode_cfg (s : State) : (clearDecode s).cfg = s.cfg := rfl
@[simp] theorem clearDecode_phase (s : State) : (clearDecode s).phase = State.reset.phase := rfl
@[simp] theorem clearDecode_result (s : State) : (clearDecode s).result = State.reset.result := rfl
@[simp] theorem clearDecode_faultPos (s : State) : (clearDecode s).faultPos = State.reset.faultPos := rfl
@[simp] theorem clearDecode_cur (s : State) : (clearDecode s).cur = State.reset.cur := rfl
@[simp] theorem clearDecode_srcLen (s : State) : (clearDecode s).srcLen = s.srcLen := rfl
@[simp] theorem clearDecode_src (s : State) : (clearDecode s).src = s.src := rfl
@[simp] theorem clearDecode_sig (s : State) : (clearDecode s).sig = State.reset.sig := rfl
@[simp] theorem clearDecode_version (s : State) : (clearDecode s).version = State.reset.version := rfl
@[simp] theorem clearDecode_canvasW (s : State) : (clearDecode s).canvasW = State.reset.canvasW := rfl
@[simp] theorem clearDecode_canvasH (s : State) : (clearDecode s).canvasH = State.reset.canvasH := rfl
@[simp] theorem clearDecode_hasGct (s : State) : (clearDecode s).hasGct = State.reset.hasGct := rfl
@[simp] theorem clearDecode_gctSize (s : State) : (clearDecode s).gctSize = State.reset.gctSize := rfl
@[simp] theorem clearDecode_bgIndex (s : State) : (clearDecode s).bgIndex = State.reset.bgIndex := rfl
@[simp] theorem clearDecode_gpal (s : State) : (clearDecode s).gpal = State.reset.gpal := rfl
@[simp] theorem clearDecode_apal (s : State) : (clearDecode s).apal = State.reset.apal := rfl
@[simp] theorem clearDecode_apalLen (s : State) : (clearDecode s).apalLen = State.reset.apalLen := rfl
@[simp] theorem clearDecode_gceDelay (s : State) : (clearDecode s).gceDelay = State.reset.gceDelay := rfl
@[simp] theorem clearDecode_gceDisposal (s : State) : (clearDecode s).gceDisposal = State.reset.gceDisposal := rfl
@[simp] theorem clearDecode_gceTflag (s : State) : (clearDecode s).gceTflag = State.reset.gceTflag := rfl
@[simp] theorem clearDecode_gceTindex (s : State) : (clearDecode s).gceTindex = State.reset.gceTindex := rfl
@[simp] theorem clearDecode_prevDisposal (s : State) : (clearDecode s).prevDisposal = State.reset.prevDisposal := rfl
@[simp] theorem clearDecode_imgLeft (s : State) : (clearDecode s).imgLeft = State.reset.imgLeft := rfl
@[simp] theorem clearDecode_imgTop (s : State) : (clearDecode s).imgTop = State.reset.imgTop := rfl
@[simp] theorem clearDecode_imgW (s : State) : (clearDecode s).imgW = State.reset.imgW := rfl
@[simp] theorem clearDecode_imgH (s : State) : (clearDecode s).imgH = State.reset.imgH := rfl
@[simp] theorem clearDecode_imgLct (s : State) : (clearDecode s).imgLct = State.reset.imgLct := rfl
@[simp] theorem clearDecode_imgLctSize (s : State) : (clearDecode s).imgLctSize = State.reset.imgLctSize := rfl
@[simp] theorem clearDecode_imgInterlace (s : State) : (clearDecode s).imgInterlace = State.reset.imgInterlace := rfl
@[simp] theorem clearDecode_minCodeSize (s : State) : (clearDecode s).minCodeSize = State.reset.minCodeSize := rfl
@[simp] theorem clearDecode_data (s : State) : (clearDecode s).data = State.reset.data := rfl
@[simp] theorem clearDecode_clearCode (s : State) : (clearDecode s).clearCode = State.reset.clearCode := rfl
@[simp] theorem clearDecode_eoiCode (s : State) : (clearDecode s).eoiCode = State.reset.eoiCode := rfl
@[simp] theorem clearDecode_codeSize (s : State) : (clearDecode s).codeSize = State.reset.codeSize := rfl
@[simp] theorem clearDecode_codeMask (s : State) : (clearDecode s).codeMask = State.reset.codeMask := rfl
@[simp] theorem clearDecode_nextCode (s : State) : (clearDecode s).nextCode = State.reset.nextCode := rfl
@[simp] theorem clearDecode_prevCode (s : State) : (clearDecode s).prevCode = State.reset.prevCode := rfl
@[simp] theorem clearDecode_bitBuf (s : State) : (clearDecode s).bitBuf = State.reset.bitBuf := rfl
@[simp] theorem clearDecode_bitCnt (s : State) : (clearDecode s).bitCnt = State.reset.bitCnt := rfl
@[simp] theorem clearDecode_rdPtr (s : State) : (clearDecode s).rdPtr = State.reset.rdPtr := rfl
@[simp] theorem clearDecode_table (s : State) : (clearDecode s).table = State.reset.table := rfl
@[simp] theorem clearDecode_idx (s : State) : (clearDecode s).idx = State.reset.idx := rfl
@[simp] theorem clearDecode_canvas (s : State) : (clearDecode s).canvas = State.reset.canvas := rfl
@[simp] theorem clearDecode_snap (s : State) : (clearDecode s).snap = State.reset.snap := rfl
@[simp] theorem clearDecode_frames (s : State) : (clearDecode s).frames = State.reset.frames := rfl
@[simp] theorem clearDecode_frameCount (s : State) : (clearDecode s).frameCount = State.reset.frameCount := rfl
@[simp] theorem clearDecode_tagLog (s : State) : (clearDecode s).tagLog = State.reset.tagLog := rfl
@[simp] theorem clearDecode_tagCount (s : State) : (clearDecode s).tagCount = State.reset.tagCount := rfl
@[simp] theorem clearDecode_stage (s : State) : (clearDecode s).stage = State.reset.stage := rfl
@[simp] theorem clearDecode_blockEnd (s : State) : (clearDecode s).blockEnd = State.reset.blockEnd := rfl
@[simp] theorem clearDecode_host (s : State) : (clearDecode s).host = s.host := rfl
@[simp] theorem clearDecode_busData (s : State) : (clearDecode s).busData = s.busData := rfl
@[simp] theorem clearDecode_freeIdx (s : State) : (clearDecode s).freeIdx = s.freeIdx := rfl
@[simp] theorem clearDecode_srcEpoch (s : State) : (clearDecode s).srcEpoch = s.srcEpoch := rfl

/-! ## startDecode -/

@[simp] theorem startDecode_cfg (s : State) : (startDecode s).cfg = s.cfg := rfl
@[simp] theorem startDecode_phase (s : State) : (startDecode s).phase = .busy := rfl
@[simp] theorem startDecode_result (s : State) : (startDecode s).result = State.reset.result := rfl
@[simp] theorem startDecode_faultPos (s : State) : (startDecode s).faultPos = State.reset.faultPos := rfl
@[simp] theorem startDecode_cur (s : State) : (startDecode s).cur = State.reset.cur := rfl
@[simp] theorem startDecode_srcLen (s : State) : (startDecode s).srcLen = s.srcLen := rfl
@[simp] theorem startDecode_src (s : State) : (startDecode s).src = s.src := rfl
@[simp] theorem startDecode_sig (s : State) : (startDecode s).sig = State.reset.sig := rfl
@[simp] theorem startDecode_version (s : State) : (startDecode s).version = State.reset.version := rfl
@[simp] theorem startDecode_canvasW (s : State) : (startDecode s).canvasW = State.reset.canvasW := rfl
@[simp] theorem startDecode_canvasH (s : State) : (startDecode s).canvasH = State.reset.canvasH := rfl
@[simp] theorem startDecode_hasGct (s : State) : (startDecode s).hasGct = State.reset.hasGct := rfl
@[simp] theorem startDecode_gctSize (s : State) : (startDecode s).gctSize = State.reset.gctSize := rfl
@[simp] theorem startDecode_bgIndex (s : State) : (startDecode s).bgIndex = State.reset.bgIndex := rfl
@[simp] theorem startDecode_gpal (s : State) : (startDecode s).gpal = State.reset.gpal := rfl
@[simp] theorem startDecode_apal (s : State) : (startDecode s).apal = State.reset.apal := rfl
@[simp] theorem startDecode_apalLen (s : State) : (startDecode s).apalLen = State.reset.apalLen := rfl
@[simp] theorem startDecode_gceDelay (s : State) : (startDecode s).gceDelay = State.reset.gceDelay := rfl
@[simp] theorem startDecode_gceDisposal (s : State) : (startDecode s).gceDisposal = State.reset.gceDisposal := rfl
@[simp] theorem startDecode_gceTflag (s : State) : (startDecode s).gceTflag = State.reset.gceTflag := rfl
@[simp] theorem startDecode_gceTindex (s : State) : (startDecode s).gceTindex = State.reset.gceTindex := rfl
@[simp] theorem startDecode_prevDisposal (s : State) : (startDecode s).prevDisposal = State.reset.prevDisposal := rfl
@[simp] theorem startDecode_imgLeft (s : State) : (startDecode s).imgLeft = State.reset.imgLeft := rfl
@[simp] theorem startDecode_imgTop (s : State) : (startDecode s).imgTop = State.reset.imgTop := rfl
@[simp] theorem startDecode_imgW (s : State) : (startDecode s).imgW = State.reset.imgW := rfl
@[simp] theorem startDecode_imgH (s : State) : (startDecode s).imgH = State.reset.imgH := rfl
@[simp] theorem startDecode_imgLct (s : State) : (startDecode s).imgLct = State.reset.imgLct := rfl
@[simp] theorem startDecode_imgLctSize (s : State) : (startDecode s).imgLctSize = State.reset.imgLctSize := rfl
@[simp] theorem startDecode_imgInterlace (s : State) : (startDecode s).imgInterlace = State.reset.imgInterlace := rfl
@[simp] theorem startDecode_minCodeSize (s : State) : (startDecode s).minCodeSize = State.reset.minCodeSize := rfl
@[simp] theorem startDecode_data (s : State) : (startDecode s).data = State.reset.data := rfl
@[simp] theorem startDecode_clearCode (s : State) : (startDecode s).clearCode = State.reset.clearCode := rfl
@[simp] theorem startDecode_eoiCode (s : State) : (startDecode s).eoiCode = State.reset.eoiCode := rfl
@[simp] theorem startDecode_codeSize (s : State) : (startDecode s).codeSize = State.reset.codeSize := rfl
@[simp] theorem startDecode_codeMask (s : State) : (startDecode s).codeMask = State.reset.codeMask := rfl
@[simp] theorem startDecode_nextCode (s : State) : (startDecode s).nextCode = State.reset.nextCode := rfl
@[simp] theorem startDecode_prevCode (s : State) : (startDecode s).prevCode = State.reset.prevCode := rfl
@[simp] theorem startDecode_bitBuf (s : State) : (startDecode s).bitBuf = State.reset.bitBuf := rfl
@[simp] theorem startDecode_bitCnt (s : State) : (startDecode s).bitCnt = State.reset.bitCnt := rfl
@[simp] theorem startDecode_rdPtr (s : State) : (startDecode s).rdPtr = State.reset.rdPtr := rfl
@[simp] theorem startDecode_table (s : State) : (startDecode s).table = State.reset.table := rfl
@[simp] theorem startDecode_idx (s : State) : (startDecode s).idx = State.reset.idx := rfl
@[simp] theorem startDecode_canvas (s : State) : (startDecode s).canvas = State.reset.canvas := rfl
@[simp] theorem startDecode_snap (s : State) : (startDecode s).snap = State.reset.snap := rfl
@[simp] theorem startDecode_frames (s : State) : (startDecode s).frames = State.reset.frames := rfl
@[simp] theorem startDecode_frameCount (s : State) : (startDecode s).frameCount = State.reset.frameCount := rfl
@[simp] theorem startDecode_tagLog (s : State) : (startDecode s).tagLog = State.reset.tagLog := rfl
@[simp] theorem startDecode_tagCount (s : State) : (startDecode s).tagCount = State.reset.tagCount := rfl
@[simp] theorem startDecode_stage (s : State) : (startDecode s).stage = State.reset.stage := rfl
@[simp] theorem startDecode_blockEnd (s : State) : (startDecode s).blockEnd = State.reset.blockEnd := rfl
@[simp] theorem startDecode_host (s : State) : (startDecode s).host = s.host := rfl
@[simp] theorem startDecode_busData (s : State) : (startDecode s).busData = s.busData := rfl
@[simp] theorem startDecode_freeIdx (s : State) : (startDecode s).freeIdx = s.freeIdx := rfl
@[simp] theorem startDecode_srcEpoch (s : State) : (startDecode s).srcEpoch = s.srcEpoch := rfl

/-! ## hardReset -/

@[simp] theorem hardReset_cfg (s : State) : (hardReset s).cfg = s.cfg := rfl
@[simp] theorem hardReset_phase (s : State) : (hardReset s).phase = State.reset.phase := rfl
@[simp] theorem hardReset_result (s : State) : (hardReset s).result = State.reset.result := rfl
@[simp] theorem hardReset_faultPos (s : State) : (hardReset s).faultPos = State.reset.faultPos := rfl
@[simp] theorem hardReset_cur (s : State) : (hardReset s).cur = State.reset.cur := rfl
@[simp] theorem hardReset_srcLen (s : State) : (hardReset s).srcLen = State.reset.srcLen := rfl
@[simp] theorem hardReset_src (s : State) : (hardReset s).src = State.reset.src := rfl
@[simp] theorem hardReset_sig (s : State) : (hardReset s).sig = State.reset.sig := rfl
@[simp] theorem hardReset_version (s : State) : (hardReset s).version = State.reset.version := rfl
@[simp] theorem hardReset_canvasW (s : State) : (hardReset s).canvasW = State.reset.canvasW := rfl
@[simp] theorem hardReset_canvasH (s : State) : (hardReset s).canvasH = State.reset.canvasH := rfl
@[simp] theorem hardReset_hasGct (s : State) : (hardReset s).hasGct = State.reset.hasGct := rfl
@[simp] theorem hardReset_gctSize (s : State) : (hardReset s).gctSize = State.reset.gctSize := rfl
@[simp] theorem hardReset_bgIndex (s : State) : (hardReset s).bgIndex = State.reset.bgIndex := rfl
@[simp] theorem hardReset_gpal (s : State) : (hardReset s).gpal = State.reset.gpal := rfl
@[simp] theorem hardReset_apal (s : State) : (hardReset s).apal = State.reset.apal := rfl
@[simp] theorem hardReset_apalLen (s : State) : (hardReset s).apalLen = State.reset.apalLen := rfl
@[simp] theorem hardReset_gceDelay (s : State) : (hardReset s).gceDelay = State.reset.gceDelay := rfl
@[simp] theorem hardReset_gceDisposal (s : State) : (hardReset s).gceDisposal = State.reset.gceDisposal := rfl
@[simp] theorem hardReset_gceTflag (s : State) : (hardReset s).gceTflag = State.reset.gceTflag := rfl
@[simp] theorem hardReset_gceTindex (s : State) : (hardReset s).gceTindex = State.reset.gceTindex := rfl
@[simp] theorem hardReset_prevDisposal (s : State) : (hardReset s).prevDisposal = State.reset.prevDisposal := rfl
@[simp] theorem hardReset_imgLeft (s : State) : (hardReset s).imgLeft = State.reset.imgLeft := rfl
@[simp] theorem hardReset_imgTop (s : State) : (hardReset s).imgTop = State.reset.imgTop := rfl
@[simp] theorem hardReset_imgW (s : State) : (hardReset s).imgW = State.reset.imgW := rfl
@[simp] theorem hardReset_imgH (s : State) : (hardReset s).imgH = State.reset.imgH := rfl
@[simp] theorem hardReset_imgLct (s : State) : (hardReset s).imgLct = State.reset.imgLct := rfl
@[simp] theorem hardReset_imgLctSize (s : State) : (hardReset s).imgLctSize = State.reset.imgLctSize := rfl
@[simp] theorem hardReset_imgInterlace (s : State) : (hardReset s).imgInterlace = State.reset.imgInterlace := rfl
@[simp] theorem hardReset_minCodeSize (s : State) : (hardReset s).minCodeSize = State.reset.minCodeSize := rfl
@[simp] theorem hardReset_data (s : State) : (hardReset s).data = State.reset.data := rfl
@[simp] theorem hardReset_clearCode (s : State) : (hardReset s).clearCode = State.reset.clearCode := rfl
@[simp] theorem hardReset_eoiCode (s : State) : (hardReset s).eoiCode = State.reset.eoiCode := rfl
@[simp] theorem hardReset_codeSize (s : State) : (hardReset s).codeSize = State.reset.codeSize := rfl
@[simp] theorem hardReset_codeMask (s : State) : (hardReset s).codeMask = State.reset.codeMask := rfl
@[simp] theorem hardReset_nextCode (s : State) : (hardReset s).nextCode = State.reset.nextCode := rfl
@[simp] theorem hardReset_prevCode (s : State) : (hardReset s).prevCode = State.reset.prevCode := rfl
@[simp] theorem hardReset_bitBuf (s : State) : (hardReset s).bitBuf = State.reset.bitBuf := rfl
@[simp] theorem hardReset_bitCnt (s : State) : (hardReset s).bitCnt = State.reset.bitCnt := rfl
@[simp] theorem hardReset_rdPtr (s : State) : (hardReset s).rdPtr = State.reset.rdPtr := rfl
@[simp] theorem hardReset_table (s : State) : (hardReset s).table = State.reset.table := rfl
@[simp] theorem hardReset_idx (s : State) : (hardReset s).idx = State.reset.idx := rfl
@[simp] theorem hardReset_canvas (s : State) : (hardReset s).canvas = State.reset.canvas := rfl
@[simp] theorem hardReset_snap (s : State) : (hardReset s).snap = State.reset.snap := rfl
@[simp] theorem hardReset_frames (s : State) : (hardReset s).frames = State.reset.frames := rfl
@[simp] theorem hardReset_frameCount (s : State) : (hardReset s).frameCount = State.reset.frameCount := rfl
@[simp] theorem hardReset_tagLog (s : State) : (hardReset s).tagLog = State.reset.tagLog := rfl
@[simp] theorem hardReset_tagCount (s : State) : (hardReset s).tagCount = State.reset.tagCount := rfl
@[simp] theorem hardReset_stage (s : State) : (hardReset s).stage = State.reset.stage := rfl
@[simp] theorem hardReset_blockEnd (s : State) : (hardReset s).blockEnd = State.reset.blockEnd := rfl
@[simp] theorem hardReset_host (s : State) : (hardReset s).host = s.host := rfl
@[simp] theorem hardReset_busData (s : State) : (hardReset s).busData = s.busData := rfl
@[simp] theorem hardReset_freeIdx (s : State) : (hardReset s).freeIdx = s.freeIdx := rfl
@[simp] theorem hardReset_srcEpoch (s : State) : (hardReset s).srcEpoch = s.srcEpoch + 1 := rfl

end Sys2Proof.Machine
end

