-- ==== Sys2Proof/Laws/Compositor.lean ====
section
/-! SUPPORT. The laws of the pixel loops (43_compositor R212 to R215). -/

namespace Sys2Proof.Machine

/-! ## One pixel -/

theorem paletteEntry_eq_some {s : State} {i : Nat} {e : PalEntry} (hi : i < s.apalLen.toNat) (he : s.apal[i]? = some e) :
    paletteEntry s i = some e := by
  rw [paletteEntry, if_pos hi, he]

theorem paletteEntry_eq_none {s : State} {i : Nat} (hi : s.apalLen.toNat ≤ i) : paletteEntry s i = none := by
  rw [paletteEntry, if_neg (by omega)]

theorem paletteEntry_isSome {s : State} (hl : s.apal.length = 256) (hn : s.apalLen.toNat ≤ 256) {i : Nat}
    (hi : i < s.apalLen.toNat) : ∃ e, paletteEntry s i = some e :=
  ⟨_, paletteEntry_eq_some hi (List.getElem?_eq_getElem (by omega))⟩

theorem paintPixel_none {s : State} {k : Nat} (h : paletteEntry s (pixelIndex s k) = none) (canvas : List Pixel) :
    paintPixel s k canvas = none := by
  simp only [paintPixel, h]

theorem paintPixel_some {s : State} {k : Nat} {e : PalEntry} (h : paletteEntry s (pixelIndex s k) = some e) (canvas : List Pixel) :
    paintPixel s k canvas =
      some (if e.t ∧ s.prevDisposal ≠ 2#3 then canvas else canvas.set (pixelTarget s k) (entryPixel e)) := by
  simp only [paintPixel, h]
  split <;> rfl

theorem paintPixel_length {s : State} {k : Nat} {canvas canvas' : List Pixel} (h : paintPixel s k canvas = some canvas') :
    canvas'.length = canvas.length := by
  unfold paintPixel at h
  split at h
  · cases h
  · split at h <;> cases h
    · rfl
    · exact List.length_set

/-- A pixel leaves every canvas index but its target. -/
theorem paintPixel_other {s : State} {k i : Nat} {canvas canvas' : List Pixel} (h : paintPixel s k canvas = some canvas')
    (hi : pixelTarget s k ≠ i) : canvas'[i]? = canvas[i]? := by
  unfold paintPixel at h
  split at h
  · cases h
  · split at h <;> cases h
    · rfl
    · exact List.getElem?_set_ne hi

/-! ## The loops -/

theorem paint_length (s : State) (n k : Nat) (canvas : List Pixel) : (paint s n k canvas).1.length = canvas.length := by
  induction n generalizing k canvas with
  | zero => rfl
  | succ n ih =>
    simp only [paint]
    split
    · rfl
    · rename_i h
      rw [ih, paintPixel_length h]

/-- The loops stop at the first pixel whose index is past the palette, and keep what was painted before it. -/
theorem paint_stops {s : State} {n m k : Nat} (canvas : List Pixel)
    (hok : ∀ j, k ≤ j → j < k + n → ∃ e, paletteEntry s (pixelIndex s j) = some e)
    (hstop : paletteEntry s (pixelIndex s (k + n)) = none) :
    paint s (n + 1 + m) k canvas = ((paint s n k canvas).1, false) := by
  induction n generalizing k canvas with
  | zero =>
    rw [show 0 + 1 + m = m + 1 by omega]
    rw [Nat.add_zero] at hstop
    simp only [paint, paintPixel_none hstop canvas]
  | succ n ih =>
    obtain ⟨e, he⟩ := hok k (Nat.le_refl _) (by omega)
    rw [show n + 1 + 1 + m = (n + 1 + m) + 1 by omega]
    simp only [paint, paintPixel_some he canvas]
    exact ih _ (fun j h1 h2 => hok j (by omega) (by omega)) (by rw [show k + 1 + n = k + (n + 1) by omega]; exact hstop)

/-- The loops complete when every index is in the palette. -/
theorem paint_completes {s : State} {n k : Nat} (canvas : List Pixel)
    (hok : ∀ j, k ≤ j → j < k + n → ∃ e, paletteEntry s (pixelIndex s j) = some e) : (paint s n k canvas).2 = true := by
  induction n generalizing k canvas with
  | zero => rfl
  | succ n ih =>
    obtain ⟨e, he⟩ := hok k (Nat.le_refl _) (by omega)
    simp only [paint, paintPixel_some he canvas]
    exact ih _ fun j h1 h2 => hok j (by omega) (by omega)

/-- The loops leave every canvas index that is no pixel's target. -/
theorem paint_other {s : State} {n k i : Nat} {canvas : List Pixel}
    (hi : ∀ j, k ≤ j → j < k + n → pixelTarget s j ≠ i) : (paint s n k canvas).1[i]? = canvas[i]? := by
  induction n generalizing k canvas with
  | zero => rfl
  | succ n ih =>
    simp only [paint]
    split
    · rfl
    · rename_i h
      rw [ih fun j h1 h2 => hi j (by omega) (by omega), paintPixel_other h (hi k (Nat.le_refl _) (by omega))]

/-- What a pixel's target holds after the loops, when no other pixel has the same target. -/
theorem paint_target {s : State} {n k j : Nat} {canvas : List Pixel} {e : PalEntry}
    (hok : ∀ j, k ≤ j → j < k + n → ∃ e, paletteEntry s (pixelIndex s j) = some e)
    (hinj : ∀ a b, k ≤ a → a < k + n → k ≤ b → b < k + n → pixelTarget s a = pixelTarget s b → a = b)
    (hj : k ≤ j ∧ j < k + n) (hlen : pixelTarget s j < canvas.length) (he : paletteEntry s (pixelIndex s j) = some e) :
    (paint s n k canvas).1[pixelTarget s j]? =
      if e.t ∧ s.prevDisposal ≠ 2#3 then canvas[pixelTarget s j]? else some (entryPixel e) := by
  induction n generalizing k canvas with
  | zero => omega
  | succ n ih =>
    obtain ⟨e', he'⟩ := hok k (Nat.le_refl _) (by omega)
    simp only [paint, paintPixel_some he' canvas]
    have hlen' : pixelTarget s j < (if e'.t ∧ s.prevDisposal ≠ 2#3 then canvas else
        canvas.set (pixelTarget s k) (entryPixel e')).length := by
      split
      · exact hlen
      · rw [List.length_set]; exact hlen
    by_cases hjk : j = k
    · subst hjk
      have hee : e' = e := by rw [he] at he'; exact (Option.some.inj he').symm
      subst hee
      rw [paint_other fun a h1 h2 heq => absurd (hinj a j (by omega) (by omega) (Nat.le_refl _) (by omega) heq) (by omega)]
      split
      · rfl
      · rw [List.getElem?_set_self hlen]
    · rw [ih (fun a h1 h2 => hok a (by omega) (by omega))
        (fun a b h1 h2 h3 h4 => hinj a b (by omega) (by omega) (by omega) (by omega)) ⟨by omega, by omega⟩ hlen']
      have hne : pixelTarget s k ≠ pixelTarget s j := fun heq =>
        hjk (hinj k j (Nat.le_refl _) (by omega) hj.1 hj.2 heq).symm
      split
      · split
        · rfl
        · rw [List.getElem?_set_ne hne]
      · rfl

/-- Two states that paint alike: the fields the loops read are the same. -/
structure PaintsAlike (s t : State) : Prop where
  idx : t.idx = s.idx
  bgIndex : t.bgIndex = s.bgIndex
  apal : t.apal = s.apal
  apalLen : t.apalLen = s.apalLen
  imgTop : t.imgTop = s.imgTop
  imgLeft : t.imgLeft = s.imgLeft
  imgW : t.imgW = s.imgW
  canvasW : t.canvasW = s.canvasW
  prevDisposal : t.prevDisposal = s.prevDisposal

theorem paint_congr {s t : State} (h : PaintsAlike s t) (n k : Nat) (canvas : List Pixel) :
    paint t n k canvas = paint s n k canvas := by
  have hpixel : ∀ k canvas, paintPixel t k canvas = paintPixel s k canvas := by
    intro k canvas
    simp only [paintPixel, paletteEntry, pixelIndex, pixelTarget, h.idx, h.bgIndex, h.apal, h.apalLen, h.imgTop, h.imgLeft, h.imgW,
      h.canvasW, h.prevDisposal]
    rfl
  induction n generalizing k canvas with
  | zero => rfl
  | succ n ih => simp only [paint, hpixel, ih]

/-! ## Targets (R215, 20_memory R67) -/

/-- Row-major indices with a column below the width are equal only for equal rows and columns. -/
theorem rowMajor_inj {w a b c d : Nat} (hb : b < w) (hd : d < w) (h : a * w + b = c * w + d) : a = c ∧ b = d := by
  have hpos : 0 < w := by omega
  have h1 : (a * w + b) / w = (c * w + d) / w := by rw [h]
  rw [Nat.mul_comm a, Nat.mul_comm c, Nat.mul_add_div hpos, Nat.mul_add_div hpos, Nat.div_eq_of_lt hb, Nat.div_eq_of_lt hd] at h1
  have : a = c := by omega
  subst this
  exact ⟨rfl, by omega⟩

theorem rowMajor_lt {w h r c : Nat} (hc : c < w) (hr : r < h) : r * w + c < w * h := by
  calc r * w + c < r * w + w := by omega
    _ = (r + 1) * w := by ring
    _ ≤ h * w := Nat.mul_le_mul_right _ hr
    _ = w * h := Nat.mul_comm ..

/-- The rectangle is inside the canvas (R211). -/
abbrev RectInside (s : State) : Prop :=
  s.imgLeft.toNat + s.imgW.toNat ≤ s.canvasW.toNat ∧ s.imgTop.toNat + s.imgH.toNat ≤ s.canvasH.toNat

theorem rectOutside_eq_false {s : State} : rectOutside s = false ↔ RectInside s := by
  simp only [rectOutside, decide_eq_false_iff_not, RectInside]; omega

theorem rectOutside_eq_true {s : State} : rectOutside s = true ↔ ¬RectInside s := by
  rw [← rectOutside_eq_false, Bool.not_eq_false]

/-- The column and the row of the k-th pixel of the rectangle. -/
theorem pixel_coordinates {s : State} {k : Nat} (hk : k < s.imgW.toNat * s.imgH.toNat) :
    k % s.imgW.toNat < s.imgW.toNat ∧ k / s.imgW.toNat < s.imgH.toNat := by
  have hw : 0 < s.imgW.toNat := by
    rcases Nat.eq_zero_or_pos s.imgW.toNat with h | h
    · rw [h] at hk; omega
    · exact h
  exact ⟨Nat.mod_lt _ hw, Nat.div_lt_of_lt_mul hk⟩

/-- Every target is a canvas index. -/
theorem pixelTarget_lt {s : State} (hr : RectInside s) {k : Nat} (hk : k < s.imgW.toNat * s.imgH.toNat) :
    pixelTarget s k < canvasPixels s := by
  obtain ⟨hcol, hrow⟩ := pixel_coordinates hk
  obtain ⟨hx, hy⟩ := hr
  rw [pixelTarget, canvasPixels, Nat.add_assoc]
  exact rowMajor_lt (by omega) (by omega)

/-- No two pixels of the rectangle have one target (R215: "written at most once per frame"). -/
theorem pixelTarget_inj {s : State} (hr : RectInside s) {a b : Nat} (ha : a < s.imgW.toNat * s.imgH.toNat)
    (hb : b < s.imgW.toNat * s.imgH.toNat) (h : pixelTarget s a = pixelTarget s b) : a = b := by
  obtain ⟨hac, -⟩ := pixel_coordinates ha
  obtain ⟨hbc, -⟩ := pixel_coordinates hb
  obtain ⟨hx, -⟩ := hr
  rw [pixelTarget, pixelTarget, Nat.add_assoc, Nat.add_assoc] at h
  obtain ⟨hrow, hcol⟩ := rowMajor_inj (by omega) (by omega) h
  rw [← Nat.div_add_mod a s.imgW.toNat, ← Nat.div_add_mod b s.imgW.toNat, show a / s.imgW.toNat = b / s.imgW.toNat by omega,
    show a % s.imgW.toNat = b % s.imgW.toNat by omega]

/-- The pixel of a row and a column, and its target. -/
theorem pixel_of_row_col {s : State} {row col : Nat} (hc : col < s.imgW.toNat) (hr : row < s.imgH.toNat) :
    row * s.imgW.toNat + col < s.imgW.toNat * s.imgH.toNat ∧
      pixelTarget s (row * s.imgW.toNat + col) = (s.imgTop.toNat + row) * s.canvasW.toNat + s.imgLeft.toNat + col := by
  have hw : 0 < s.imgW.toNat := by omega
  refine ⟨rowMajor_lt hc hr, ?_⟩
  rw [pixelTarget, Nat.mul_comm row, Nat.mul_add_div hw, Nat.div_eq_of_lt hc, Nat.mul_add_mod, Nat.mod_eq_of_lt hc, Nat.add_zero]

/-! ## The transparency test (R214, R222) -/

/-- On a canvas whose targets are transparent the test never matters. -/
theorem paint_prevDisposal {s : State} {d : BitVec 3} (hd : d ≠ 2#3) {n k : Nat} {canvas : List Pixel}
    (hinj : ∀ a b, k ≤ a → a < k + n → k ≤ b → b < k + n → pixelTarget s a = pixelTarget s b → a = b)
    (hclear : s.prevDisposal = 2#3 → ∀ j, k ≤ j → j < k + n → ∀ px, canvas[pixelTarget s j]? = some px → px = .transparent) :
    paint { s with prevDisposal := d } n k canvas = paint s n k canvas := by
  induction n generalizing k canvas with
  | zero => rfl
  | succ n ih =>
    simp only [paint]
    cases hentry : paletteEntry s (pixelIndex s k) with
    | none =>
      rw [paintPixel_none (s := { s with prevDisposal := d }) hentry, paintPixel_none hentry]
    | some e =>
      rw [paintPixel_some (s := { s with prevDisposal := d }) hentry, paintPixel_some hentry]
      have hsame : (if e.t ∧ d ≠ 2#3 then canvas else canvas.set (pixelTarget s k) (entryPixel e)) =
          if e.t ∧ s.prevDisposal ≠ 2#3 then canvas else canvas.set (pixelTarget s k) (entryPixel e) := by
        by_cases ht : e.t = true
        · by_cases hp : s.prevDisposal = 2#3
          · simp only [ht, hd, hp, ne_eq, not_true_eq_false, not_false_eq_true, and_self, and_false, if_true, if_false]
            refine (List.ext_getElem? fun i => ?_)
            by_cases hi : pixelTarget s k = i
            · subst hi
              by_cases hlen : pixelTarget s k < canvas.length
              · rw [List.getElem?_set_self hlen, List.getElem?_eq_getElem hlen]
                rw [hclear hp k (Nat.le_refl _) (by omega) _ (List.getElem?_eq_getElem hlen)]
                simp [entryPixel, ht]
              · rw [List.set_eq_of_length_le (by omega)]
            · rw [List.getElem?_set_ne hi]
          · simp [hd, hp]
        · simp [ht]
      have htarget : pixelTarget { s with prevDisposal := d } k = pixelTarget s k := rfl
      simp only [htarget, hsame]
      refine ih (fun a b h1 h2 h3 h4 => hinj a b (by omega) (by omega) (by omega) (by omega)) ?_
      intro hp j h1 h2 px hpx
      have hne : pixelTarget s k ≠ pixelTarget s j := fun heq =>
        absurd (hinj k j (Nat.le_refl _) (by omega) (by omega) (by omega) heq) (by omega)
      refine hclear hp j (by omega) (by omega) px ?_
      rw [← hpx]
      split
      · rfl
      · rw [List.getElem?_set_ne hne]

end Sys2Proof.Machine
end

