-- ==== Sys2Proof/Laws/Memory.lean ====
section
/-! SUPPORT. The laws of the sparse memories: a read after a write, and that a write keeps the canonical form. -/

namespace Sys2Proof.Machine

variable {α : Type}

theorem cellLookup_insert_same (m : List (Nat × α)) (a : Nat) (v : α) : cellLookup (cellInsert m a v) a = some v := by
  induction m with
  | nil => simp [cellInsert, cellLookup]
  | cons c r ih =>
    obtain ⟨b, x⟩ := c
    simp only [cellInsert]
    split
    · simp [cellLookup]
    · split
      · simp [cellLookup]
      · rename_i h1 h2
        simp [cellLookup, h2, ih]

theorem cellLookup_insert_other (m : List (Nat × α)) {a p : Nat} (v : α) (h : p ≠ a) :
    cellLookup (cellInsert m a v) p = cellLookup m p := by
  induction m with
  | nil => simp [cellInsert, cellLookup, h]
  | cons c r ih =>
    obtain ⟨b, x⟩ := c
    simp only [cellInsert]
    split
    · simp [cellLookup, h]
    · split
      · rename_i h1 h2
        subst h2
        simp [cellLookup, h]
      · simp [cellLookup, ih]

/-- The keys after a write are the keys before it and the key written. -/
theorem mem_cellInsert {m : List (Nat × α)} {a : Nat} {v : α} {c : Nat × α} (h : c ∈ cellInsert m a v) : c = (a, v) ∨ c ∈ m := by
  induction m with
  | nil => simpa [cellInsert] using h
  | cons d r ih =>
    obtain ⟨b, x⟩ := d
    simp only [cellInsert] at h
    split at h
    · simpa using h
    · split at h
      · rcases List.mem_cons.mp h with h | h
        · exact .inl h
        · exact .inr (List.mem_cons_of_mem _ h)
      · rcases List.mem_cons.mp h with h | h
        · exact .inr (h ▸ List.mem_cons_self ..)
        · rcases ih h with h | h
          · exact .inl h
          · exact .inr (List.mem_cons_of_mem _ h)

/-- A write keeps the keys strictly rising. -/
theorem cellInsert_rising {m : List (Nat × α)} (a : Nat) (v : α) (h : CellsRising m) : CellsRising (cellInsert m a v) := by
  induction m with
  | nil => simp [cellInsert]
  | cons d r ih =>
    obtain ⟨b, x⟩ := d
    obtain ⟨hb, hr⟩ := List.pairwise_cons.mp h
    simp only [cellInsert]
    split
    · rename_i hab
      refine List.pairwise_cons.mpr ⟨fun c hc => ?_, h⟩
      rcases List.mem_cons.mp hc with rfl | hc
      · exact hab
      · exact Nat.lt_trans hab (hb c hc)
    · split
      · rename_i h1 h2
        subst h2
        exact List.pairwise_cons.mpr ⟨hb, hr⟩
      · rename_i h1 h2
        refine List.pairwise_cons.mpr ⟨fun c hc => ?_, ih hr⟩
        rcases mem_cellInsert hc with rfl | hc
        · exact Nat.lt_of_le_of_ne (Nat.le_of_not_lt h1) (fun e => h2 e.symm)
        · exact hb c hc

/-- A write inside the space keeps the canonical form of `SRC`. -/
theorem memory_wf_insert {m : List Host.Cell} {a : Nat} (b : Byte) (h : Memory.wf m) (ha : a < srcSpace) :
    Memory.wf (cellInsert m a b) := by
  refine ⟨cellInsert_rising a b h.1, fun c hc => ?_⟩
  rcases mem_cellInsert hc with rfl | hc
  · exact ha
  · exact h.2 c hc

/-- Canonical memories that read alike are equal. -/
theorem cells_ext {m n : List (Nat × α)} (hm : CellsRising m) (hn : CellsRising n)
    (h : ∀ a, cellLookup m a = cellLookup n a) : m = n := by
  have notin : ∀ {r : List (Nat × α)} {b : Nat}, (∀ c ∈ r, b < c.1) → cellLookup r b = none := by
    intro r b hr
    induction r with
    | nil => rfl
    | cons d r ih =>
      have hd := hr d (List.mem_cons_self ..)
      simp only [cellLookup, if_neg (Nat.ne_of_lt hd)]
      exact ih fun c hc => hr c (List.mem_cons_of_mem _ hc)
  induction m generalizing n with
  | nil =>
    cases n with
    | nil => rfl
    | cons d r => have := h d.1; simp [cellLookup] at this
  | cons c r ih =>
    obtain ⟨hc, hr⟩ := List.pairwise_cons.mp hm
    cases n with
    | nil => have := h c.1; simp [cellLookup] at this
    | cons d r' =>
      obtain ⟨hd, hr'⟩ := List.pairwise_cons.mp hn
      have key : c.1 = d.1 := by
        rcases Nat.lt_trichotomy c.1 d.1 with hlt | heq | hgt
        · have := h c.1
          simp only [cellLookup, if_neg (Nat.ne_of_lt hlt)] at this
          rw [notin fun e he => Nat.lt_trans hlt (hd e he)] at this
          cases this
        · exact heq
        · have := h d.1
          simp only [cellLookup, if_neg (Nat.ne_of_lt hgt)] at this
          rw [notin fun e he => Nat.lt_trans hgt (hc e he)] at this
          cases this
      have val : c.2 = d.2 := by
        have := h c.1
        simpa [cellLookup, key] using this
      have tail : r = r' := ih hr hr' fun a => by
        have ha := h a
        by_cases e : a = c.1
        · subst e
          rw [notin hc, notin fun e he => key ▸ hd e he]
        · simpa [cellLookup, e, key ▸ e] using ha
      rw [tail, Prod.ext key val]

/-! ## Source reads -/

/-- A source byte depends on `SRC` and the reset count alone. -/
theorem srcByte_congr {s t : State} (hsrc : t.src = s.src) (he : t.srcEpoch = s.srcEpoch) (p : Nat) : srcByte t p = srcByte s p := by
  simp [srcByte, hsrc, he]

theorem srcU16_congr {s t : State} (hsrc : t.src = s.src) (he : t.srcEpoch = s.srcEpoch) (p : Nat) : srcU16 t p = srcU16 s p := by
  simp [srcU16, srcByte_congr hsrc he]

/-- The little-endian u16 as a number (20_memory R62). -/
theorem srcU16_toNat (s : State) (p : Nat) : (srcU16 s p).toNat = (srcByte s p).toNat + 256 * (srcByte s (p + 1)).toNat := by
  simp only [srcU16]
  generalize srcByte s p = a
  generalize srcByte s (p + 1) = b
  have hb := b.isLt
  have ha := a.isLt
  simp only [BitVec.toNat_or, BitVec.toNat_setWidth, BitVec.toNat_shiftLeft]
  rw [Nat.mod_eq_of_lt (by omega), Nat.mod_eq_of_lt (a := b.toNat) (by omega), Nat.mod_eq_of_lt (by rw [Nat.shiftLeft_eq]; omega),
    Nat.or_comm, ← Nat.shiftLeft_add_eq_or_of_lt (by omega), Nat.shiftLeft_eq]
  omega

theorem srcBytes_length (s : State) (p n : Nat) : (srcBytes s p n).length = n := by
  induction n generalizing p with
  | zero => rfl
  | succ n ih => simp [srcBytes, ih]

theorem srcBytes_congr {s t : State} (hsrc : t.src = s.src) (he : t.srcEpoch = s.srcEpoch) (p n : Nat) :
    srcBytes t p n = srcBytes s p n := by
  induction n generalizing p with
  | zero => rfl
  | succ n ih => simp [srcBytes, ih, srcByte_congr hsrc he]

theorem srcBytes_append (s : State) (p m n : Nat) : srcBytes s p (m + n) = srcBytes s p m ++ srcBytes s (p + m) n := by
  induction m generalizing p with
  | zero => simp [srcBytes]
  | succ m ih =>
    rw [Nat.succ_add]
    simp [srcBytes, ih, Nat.add_assoc, Nat.add_comm 1 m]

/-- Bytes held by `SRC`, split. -/
theorem holdsBytes_append {s : State} {p : Nat} {a b : List Byte} (h : holdsBytes s p (a ++ b)) :
    holdsBytes s p a ∧ holdsBytes s (p + a.length) b := by
  obtain ⟨hb, he⟩ := h
  rw [List.length_append, srcBytes_append] at hb
  have := List.append_inj hb (by rw [srcBytes_length])
  rw [List.length_append] at he
  exact ⟨⟨this.1, by omega⟩, ⟨this.2, by omega⟩⟩

/-- The first byte of those held. -/
theorem holdsBytes_cons {s : State} {p : Nat} {a : Byte} {b : List Byte} (h : holdsBytes s p (a :: b)) :
    srcByte s p = a ∧ p < srcEnd s ∧ holdsBytes s (p + 1) b := by
  obtain ⟨hb, he⟩ := h
  simp only [List.length_cons, srcBytes, List.cons.injEq] at hb he
  exact ⟨hb.1, by omega, hb.2, by omega⟩

theorem holdsBytes_cons_mk {s : State} {p : Nat} {a : Byte} {b : List Byte} (ha : srcByte s p = a)
    (h : holdsBytes s (p + 1) b) : holdsBytes s p (a :: b) := by
  obtain ⟨hb, he⟩ := h
  refine ⟨?_, by simp only [List.length_cons]; omega⟩
  simp only [List.length_cons, srcBytes, ha, hb]

theorem holdsBytes_append_mk {s : State} {p : Nat} {a b : List Byte} (ha : holdsBytes s p a)
    (hb : holdsBytes s (p + a.length) b) : holdsBytes s p (a ++ b) := by
  refine ⟨?_, by have := hb.2; simp only [List.length_append]; omega⟩
  rw [List.length_append, srcBytes_append, ha.1, hb.1]

end Sys2Proof.Machine
end

