-- ==== Sys2Proof/Laws/Encoding.lean ====
section
/-! SUPPORT. The laws of the decoder: which word spells which instruction, class by class, and how packed numbers are read back. -/

namespace Sys2Proof

/-! ## The decoder on a word in range -/

theorem decode_tag8 (t : Byte) : decode .tag8 t.toNat = .ok (decodeTag t) := by
  simp [decode, t.isLt]

theorem decode_ext16 (l : Byte) : decode .ext16 (0x2100 + l.toNat) = .ok (decodeLabel l) := by
  have := l.isLt
  simp only [decode]
  rw [if_neg (by omega), if_pos (by omega)]
  congr 2
  apply BitVec.eq_of_toNat_eq
  simp only [BitVec.toNat_ofNat]
  omega

theorem decode_lzwCode {k : LzwCtx} {c : Code} (h : c.toNat < 2 ^ k.size) : decode (.lzwCode k) c.toNat = classifyCode k c := by
  have := c.isLt
  simp [decode, h, this]

theorem decode_disposal3 (v : BitVec 3) : decode .disposal3 v.toNat = .ok (decodeDisposal v) := by
  simp [decode, v.isLt]

/-! ## Catch-all rows -/

theorem decodeTag_unknown {t : Byte} (h : (Instr.tagUnknown t).wf = true) : decodeTag t = .tagUnknown t := by
  simp only [Instr.wf, Bool.and_eq_true, bne_iff_ne, ne_eq] at h
  simp [decodeTag, h.1.1, h.1.2, h.2]

theorem decodeLabel_unknown {l : Byte} (h : (Instr.extUnknown l).wf = true) : decodeLabel l = .extUnknown l := by
  simp only [Instr.wf, Bool.and_eq_true, bne_iff_ne, ne_eq] at h
  simp [decodeLabel, h.1.1.1, h.1.1.2, h.1.2, h.2]

theorem decodeDisposal_reserved {v : BitVec 3} (h : (Instr.disposeReserved v).wf = true) :
    decodeDisposal v = .disposeReserved v := by
  revert h; revert v; decide

/-! ## Contexts -/

/-- What a well-formed context gives, as facts about numbers. -/
theorem LzwCtx.wf_iff (k : LzwCtx) : k.wf = true ↔
    4 ≤ k.clear ∧ k.clear ≤ 2048 ∧ k.eoi = k.clear + 1 ∧ k.clear + 2 ≤ k.next ∧ k.next ≤ 2 ^ k.size ∧ k.size ≤ 12 ∧
      (k.prev = none → k.next = k.clear + 2) := by
  cases hp : k.prev <;> simp [LzwCtx.wf, hp, and_assoc]

/-- A code that fits a width of at most 12 bits. -/
theorem code_lt_of_size {n size : Nat} (h : n < 2 ^ size) (hs : size ≤ 12) : n < 4096 :=
  Nat.lt_of_lt_of_le h (Nat.pow_le_pow_right (by omega) hs)

/-- What R100 makes of a code that fits its width, in a context an image block reaches. -/
theorem classifyCode_cases {k : LzwCtx} (hk : k.wf = true) (c : Code) :
    (k.next < c.toNat ∧ classifyCode k c = .ok (.invalid c)) ∨
    (c.toNat = k.eoi ∧ classifyCode k c = .ok .eoi) ∨
    (c.toNat = k.clear ∧ classifyCode k c = .ok .clear) ∨
    (k.prev = none ∧ c.toNat < k.clear ∧ classifyCode k c = .ok (.first c)) ∨
    (k.prev = none ∧ c.toNat = k.next ∧ classifyCode k c = .ok (.firstNonliteral c)) ∨
    (k.prev ≠ none ∧ c.toNat < k.clear ∧ classifyCode k c = .ok (.literal c)) ∨
    (k.prev ≠ none ∧ (k.clear + 2 ≤ c.toNat ∧ c.toNat < k.next) ∧ classifyCode k c = .ok (.table c)) ∨
    (k.prev ≠ none ∧ c.toNat = k.next ∧ classifyCode k c = .ok (.kwkwk c)) := by
  obtain ⟨h4, h2048, heoi, hnext, hsz, h12, hprev⟩ := k.wf_iff.mp hk
  unfold classifyCode
  by_cases h1 : k.next < c.toNat
  · exact .inl ⟨h1, if_pos h1⟩
  rw [if_neg h1]
  by_cases h2 : c.toNat = k.eoi
  · exact .inr (.inl ⟨h2, if_pos h2⟩)
  rw [if_neg h2]
  by_cases h3 : c.toNat = k.clear
  · exact .inr (.inr (.inl ⟨h3, if_pos h3⟩))
  rw [if_neg h3]
  refine .inr (.inr (.inr ?_))
  by_cases hp : k.prev = none
  · by_cases h5 : c.toNat < k.clear
    · exact .inl ⟨hp, h5, if_pos ⟨hp, h5⟩⟩
    · have := hprev hp
      exact .inr (.inl ⟨hp, by omega, by rw [if_neg (by simp [h5]), if_pos hp]⟩)
  · rw [if_neg (by simp [hp]), if_neg hp]
    refine .inr (.inr ?_)
    by_cases h5 : c.toNat < k.clear
    · exact .inl ⟨hp, h5, if_pos h5⟩
    rw [if_neg h5]
    by_cases h6 : k.clear + 2 ≤ c.toNat ∧ c.toNat < k.next
    · exact .inr (.inl ⟨hp, h6, if_pos h6⟩)
    · exact .inr (.inr ⟨hp, by omega, by rw [if_neg h6, if_pos (by omega)]⟩)

/-! ## Packed numbers -/

theorem leBytes_length (n v : Nat) : (leBytes n v).length = n := by
  induction n generalizing v with
  | zero => rfl
  | succ n ih => simp [leBytes, ih]

theorem leBytes_getElem? {n v i : Nat} (h : i < n) : (leBytes n v)[i]? = some (BitVec.ofNat 8 (v / 2 ^ (8 * i))) := by
  induction n generalizing v i with
  | zero => omega
  | succ n ih =>
    cases i with
    | zero => simp [leBytes]
    | succ i =>
      simp only [leBytes, List.getElem?_cons_succ]
      rw [ih (by omega), Nat.div_div_eq_div_mul, ← Nat.pow_add, show 8 + 8 * i = 8 * (i + 1) by omega]

theorem leNat_leBytes (n v : Nat) : leNat (leBytes n v) = v % 2 ^ (8 * n) := by
  induction n generalizing v with
  | zero => simp [leBytes, leNat, Nat.mod_one]
  | succ n ih =>
    simp only [leBytes, leNat, ih, BitVec.toNat_ofNat]
    rw [show 8 * (n + 1) = 8 + 8 * n by omega, Nat.pow_add, Nat.mod_mul]

theorem packValue_lt (cs : List (Nat × Nat)) : packValue cs < 2 ^ packBits cs := by
  induction cs with
  | nil => simp [packValue, packBits]
  | cons c r ih =>
    obtain ⟨c, w⟩ := c
    simp only [packValue, packBits, Nat.pow_add]
    have hc : c % 2 ^ w < 2 ^ w := Nat.mod_lt _ (Nat.two_pow_pos w)
    calc c % 2 ^ w + 2 ^ w * packValue r < 2 ^ w + 2 ^ w * packValue r := by omega
      _ = 2 ^ w * (packValue r + 1) := by ring
      _ ≤ 2 ^ w * 2 ^ packBits r := Nat.mul_le_mul_left _ ih

/-! ## Sub-block chains -/

theorem cutChunks_sizes {fuel : Nat} {data : List Byte} : ∀ c ∈ cutChunks fuel data, 1 ≤ c.length ∧ c.length ≤ 255 := by
  induction fuel generalizing data with
  | zero => simp [cutChunks]
  | succ fuel ih =>
    cases data with
    | nil => simp [cutChunks]
    | cons b r =>
      intro c hc
      simp only [cutChunks] at hc
      rcases List.mem_cons.mp hc with rfl | hc
      · simp only [List.length_take, List.length_cons]; omega
      · exact ih c hc

theorem cutChunks_flatten {fuel : Nat} {data : List Byte} (h : data.length ≤ fuel) : (cutChunks fuel data).flatten = data := by
  induction fuel generalizing data with
  | zero => simp [cutChunks, List.eq_nil_of_length_eq_zero (Nat.le_zero.mp h)]
  | succ fuel ih =>
    cases data with
    | nil => simp [cutChunks]
    | cons b r =>
      simp only [cutChunks, List.flatten_cons]
      rw [ih (by simp only [List.length_drop, List.length_cons] at *; omega), List.take_append_drop]

theorem cutChunks_isEmpty {data : List Byte} : (cutChunks data.length data).isEmpty = data.isEmpty := by
  cases data <;> simp [cutChunks]

theorem encodeChain_length_pos (chunks : List (List Byte)) : 1 ≤ (encodeChain chunks).length := by
  cases chunks <;> simp [encodeChain]

end Sys2Proof
end

