-- ==== Sys2Proof/Laws/Operands.lean ====
section
/-! SUPPORT. The laws of the operand readers: tables and palettes, the sub-block chain, and `readCode`. -/

namespace Sys2Proof.Machine

/-! ## Packed bytes -/

theorem packedSizeField_eq (b : Byte) : packedSizeField b = b.toNat % 8 := by
  simp [packedSizeField]

/-- The table length of a packed byte as a number (30_encoding R99). -/
theorem packedTableSize_toNat (b : Byte) :
    (packedTableSize b).toNat = if b.getLsbD 7 then 2 ^ (b.toNat % 8 + 1) else 0 := by
  unfold packedTableSize packedHasTable
  split
  · rw [packedSizeField_eq, BitVec.toNat_ofNat, Nat.mod_eq_of_lt]
    exact Nat.lt_of_le_of_lt (Nat.pow_le_pow_right (by omega) (show b.toNat % 8 + 1 ≤ 8 by omega)) (by omega)
  · rfl

/-- A table has at most 256 entries (R84). -/
theorem packedTableSize_le (b : Byte) : (packedTableSize b).toNat ≤ 256 := by
  rw [packedTableSize_toNat]
  split
  · exact Nat.pow_le_pow_right (n := 2) (by omega) (show b.toNat % 8 + 1 ≤ 8 by omega)
  · omega

/-! ## Colour tables and palettes -/

theorem readColorTable_length (s : State) (off n : Nat) : (readColorTable s off n).length = n := by
  induction n generalizing off with
  | zero => rfl
  | succ n ih => simp [readColorTable, ih]

theorem readColorTable_getElem? (s : State) {off n j : Nat} (h : j < n) : (readColorTable s off n)[j]? =
    some ⟨srcByte s (off + 3 * j), srcByte s (off + 3 * j + 1), srcByte s (off + 3 * j + 2), false⟩ := by
  induction n generalizing off j with
  | zero => omega
  | succ n ih =>
    cases j with
    | zero => simp [readColorTable]
    | succ j =>
      simp only [readColorTable, List.getElem?_cons_succ]
      rw [ih (by omega), show off + 3 + 3 * j = off + 3 * (j + 1) by omega]

/-- No entry a table read returns is marked (40_container R119). -/
theorem readColorTable_unmarked (s : State) (off n : Nat) : ∀ e ∈ readColorTable s off n, e.t = false := by
  induction n generalizing off with
  | zero => simp [readColorTable]
  | succ n ih =>
    intro e he
    rcases List.mem_cons.mp he with rfl | he
    · rfl
    · exact ih _ e he

theorem readColorTable_congr {s t : State} (hsrc : t.src = s.src) (he : t.srcEpoch = s.srcEpoch) (off n : Nat) :
    readColorTable t off n = readColorTable s off n := by
  induction n generalizing off with
  | zero => rfl
  | succ n ih => simp [readColorTable, ih, srcByte_congr hsrc he]

theorem writeEntries_length {old new : List PalEntry} (h : new.length ≤ old.length) :
    (writeEntries old new).length = old.length := by
  simp only [writeEntries, List.length_append, List.length_drop]; omega

theorem writeEntries_getElem?_new {old new : List PalEntry} {j : Nat} (h : j < new.length) :
    (writeEntries old new)[j]? = new[j]? := by
  simp [writeEntries, List.getElem?_append_left h]

theorem writeEntries_getElem?_old {old new : List PalEntry} {j : Nat} (h : new.length ≤ j) :
    (writeEntries old new)[j]? = old[j]? := by
  simp only [writeEntries, List.getElem?_append_right h, List.getElem?_drop]
  congr 1; omega

theorem writeEntries_take {old new : List PalEntry} : (writeEntries old new).take new.length = new := by
  simp [writeEntries]

theorem writeEntries_unmarked {old new : List PalEntry} (ho : ∀ e ∈ old, e.t = false) (hn : ∀ e ∈ new, e.t = false) :
    ∀ e ∈ writeEntries old new, e.t = false := by
  intro e he
  rcases List.mem_append.mp he with he | he
  · exact hn e he
  · exact ho e (List.mem_of_mem_drop he)

theorem markEntry_length (l : List PalEntry) (i : Nat) : (markEntry l i).length = l.length := by
  induction l generalizing i with
  | nil => rfl
  | cons e r ih => cases i <;> simp [markEntry, ih]

theorem markEntry_getElem? (l : List PalEntry) (i j : Nat) :
    (markEntry l i)[j]? = l[j]?.map fun e => if j = i then { e with t := true } else e := by
  induction l generalizing i j with
  | nil => simp [markEntry]
  | cons e r ih =>
    cases i with
    | zero => cases j <;> simp [markEntry]
    | succ i => cases j <;> simp [markEntry, ih]

/-- Marking one entry adds at most one mark among the first `n`. -/
theorem markEntry_count (l : List PalEntry) (i n : Nat) :
    ((markEntry l i).take n).countP (·.t) ≤ (l.take n).countP (·.t) + 1 := by
  induction l generalizing i n with
  | nil => simp [markEntry]
  | cons e r ih =>
    cases n with
    | zero => simp
    | succ n =>
      cases i with
      | zero =>
        simp only [markEntry, List.take_succ_cons, List.countP_cons, if_true]
        omega
      | succ i =>
        have := ih i n
        simp only [markEntry, List.take_succ_cons, List.countP_cons]; omega

/-! ## Sub-blocks (41_block_walker R131) -/

theorem toNat_ofNat_length {c : List Byte} (h : c.length ≤ 255) : (BitVec.ofNat 8 c.length).toNat = c.length := by
  rw [BitVec.toNat_ofNat, Nat.mod_eq_of_lt (by omega)]

/-- The loop reads a complete chain whole. -/
theorem collectLoop_of_chain {s : State} {fuel q : Nat} {acc : List Byte} {first : Bool} {chunks : List (List Byte)}
    (hc : ∀ c ∈ chunks, 1 ≤ c.length ∧ c.length ≤ 255) (hb : holdsBytes s q (encodeChain chunks)) (hf : srcEnd s - q ≤ fuel) :
    collectLoop s fuel q acc first =
      some ⟨acc ++ chunks.flatten, q + (encodeChain chunks).length, first && chunks.isEmpty⟩ := by
  induction chunks generalizing fuel q acc first with
  | nil =>
    obtain ⟨h0, hq, -⟩ := holdsBytes_cons hb
    obtain ⟨fuel, rfl⟩ : ∃ n, fuel = n + 1 := ⟨fuel - 1, by omega⟩
    simp [collectLoop, Nat.not_le.mpr hq, h0, encodeChain]
  | cons c r ih =>
    obtain ⟨hlen, hq, hb⟩ := holdsBytes_cons hb
    obtain ⟨hpay, hrest⟩ := holdsBytes_append hb
    obtain ⟨h1, h255⟩ := hc c (List.mem_cons_self ..)
    have hlen' : (srcByte s q).toNat = c.length := by rw [hlen, toNat_ofNat_length h255]
    obtain ⟨fuel, rfl⟩ : ∃ n, fuel = n + 1 := ⟨fuel - 1, by omega⟩
    have hend := hpay.2
    simp only [collectLoop, hlen']
    rw [if_neg (by omega), if_neg (by omega), if_neg (by omega), hpay.1,
      ih (fun c hc' => hc c (List.mem_cons_of_mem _ hc')) hrest (by omega)]
    simp [encodeChain]
    omega

/-- What the loop answers is a complete chain. -/
theorem chain_of_collectLoop {s : State} {fuel q : Nat} {acc : List Byte} {first : Bool} {r : SubBlocks}
    (h : collectLoop s fuel q acc first = some r) : ∃ chunks : List (List Byte),
      (∀ c ∈ chunks, 1 ≤ c.length ∧ c.length ≤ 255) ∧ holdsBytes s q (encodeChain chunks) ∧
      r = ⟨acc ++ chunks.flatten, q + (encodeChain chunks).length, first && chunks.isEmpty⟩ := by
  induction fuel generalizing q acc first with
  | zero => cases h
  | succ fuel ih =>
    simp only [collectLoop] at h
    split at h
    · cases h
    · rename_i hq
      split at h
      · rename_i h0
        cases h
        refine ⟨[], by simp, ⟨?_, ?_⟩, by simp [encodeChain]⟩
        · simp only [encodeChain, List.length_singleton, srcBytes, List.cons.injEq, and_true]
          exact BitVec.eq_of_toNat_eq h0
        · simp only [encodeChain, List.length_singleton]; omega
      · rename_i h0
        split at h
        · cases h
        · rename_i hend
          obtain ⟨chunks, hc, hb, hr⟩ := ih h
          have hlt := (srcByte s q).isLt
          refine ⟨srcBytes s (q + 1) (srcByte s q).toNat :: chunks, ?_, ?_, ?_⟩
          · intro c hc'
            rcases List.mem_cons.mp hc' with rfl | hc'
            · rw [srcBytes_length]; omega
            · exact hc c hc'
          · refine holdsBytes_cons_mk ?_ (holdsBytes_append_mk ⟨?_, ?_⟩ ?_)
            · apply BitVec.eq_of_toNat_eq
              rw [srcBytes_length, BitVec.toNat_ofNat, Nat.mod_eq_of_lt hlt]
            · rw [srcBytes_length]
            · rw [srcBytes_length]; omega
            · rw [srcBytes_length]; exact hb
          · rw [hr]
            simp [encodeChain, srcBytes_length]
            omega

/-- A complete chain ends past its start and not past N; its payload is shorter than the source. -/
theorem collectSubBlocks_bounds {s : State} {q : Nat} {r : SubBlocks} (h : collectSubBlocks s q = some r) :
    q < r.next ∧ r.next ≤ srcEnd s ∧ r.bytes.length + q < r.next := by
  obtain ⟨chunks, -, hb, rfl⟩ := chain_of_collectLoop h
  have := encodeChain_length_pos chunks
  have hlen : ∀ l : List (List Byte), l.flatten.length < (encodeChain l).length := by
    intro l
    induction l with
    | nil => simp [encodeChain]
    | cons c r ih => simp only [encodeChain, List.flatten_cons, List.length_append, List.length_cons]; omega
  have := hlen chunks
  exact ⟨by simp only; omega, hb.2, by simp only [List.nil_append]; omega⟩

theorem collectLoop_congr {s t : State} (hsrc : t.src = s.src) (he : t.srcEpoch = s.srcEpoch) (hl : t.srcLen = s.srcLen)
    (fuel q : Nat) (acc : List Byte) (first : Bool) : collectLoop t fuel q acc first = collectLoop s fuel q acc first := by
  induction fuel generalizing q acc first with
  | zero => rfl
  | succ fuel ih => simp only [collectLoop, srcEnd, hl, srcByte_congr hsrc he, srcBytes_congr hsrc he, ih]; rfl

/-- The chain depends on `SRC` and N alone. -/
theorem collectSubBlocks_congr {s t : State} (hsrc : t.src = s.src) (he : t.srcEpoch = s.srcEpoch) (hl : t.srcLen = s.srcLen)
    (q : Nat) : collectSubBlocks t q = collectSubBlocks s q := by
  simp only [collectSubBlocks, srcEnd, hl, collectLoop_congr hsrc he hl]

/-! ## Codes (42_lzw R172) -/

/-- The bits a reader holds: those buffered, then the unread bytes of the data. -/
def pendingValue (data : List Byte) (r : BitReader) : Nat := r.buf.toNat + 2 ^ r.cnt.toNat * leNat (data.drop r.ptr.toNat)

/-- How many bits a reader has left. -/
def pendingBits (data : List Byte) (r : BitReader) : Nat := r.cnt.toNat + 8 * (data.length - r.ptr.toNat)

/-- A reader between codes: its buffer holds no bit past its count, and its position is in the data. -/
structure BitReader.Ok (data : List Byte) (r : BitReader) : Prop where
  cnt : r.cnt.toNat ≤ 19
  buf : r.buf.toNat < 2 ^ r.cnt.toNat
  ptr : r.ptr.toNat ≤ data.length

/-- One byte moved into the buffer leaves the pending bits as they are. -/
theorem refill_byte {data : List Byte} (hd : data.length < 2 ^ 32) {r : BitReader} (h : r.Ok data) (hc : r.cnt.toNat < 12)
    {d : Byte} (hget : data[r.ptr.toNat]? = some d) :
    let r' : BitReader := ⟨r.buf ||| (d.setWidth 20 <<< r.cnt.toNat), r.cnt + 8, r.ptr + 1⟩
    r'.Ok data ∧ r'.cnt.toNat = r.cnt.toNat + 8 ∧ r'.ptr.toNat = r.ptr.toNat + 1 ∧
      pendingValue data r' = pendingValue data r ∧ pendingBits data r' = pendingBits data r := by
  obtain ⟨hlt, hd'⟩ := List.getElem?_eq_some_iff.mp hget
  have hcnt : (r.cnt + 8).toNat = r.cnt.toNat + 8 := by
    rw [BitVec.toNat_add, show (8 : BitVec 5).toNat = 8 from rfl, Nat.mod_eq_of_lt (by omega)]
  have hptr : (r.ptr + 1).toNat = r.ptr.toNat + 1 := by
    rw [BitVec.toNat_add, show (1 : Word).toNat = 1 from rfl, Nat.mod_eq_of_lt (by omega)]
  have hdl := d.isLt
  have hpow : 2 ^ r.cnt.toNat ≤ 2 ^ 11 := Nat.pow_le_pow_right (by omega) (by omega)
  have hmul : d.toNat * 2 ^ r.cnt.toNat < 2 ^ 20 := by
    calc d.toNat * 2 ^ r.cnt.toNat ≤ 255 * 2 ^ 11 := Nat.mul_le_mul (by omega) hpow
      _ < 2 ^ 20 := by norm_num
  have hbuf : (r.buf ||| (d.setWidth 20 <<< r.cnt.toNat)).toNat = r.buf.toNat + d.toNat * 2 ^ r.cnt.toNat := by
    rw [BitVec.toNat_or, BitVec.toNat_shiftLeft, BitVec.toNat_setWidth, Nat.mod_eq_of_lt (a := d.toNat) (by omega),
      Nat.shiftLeft_eq, Nat.mod_eq_of_lt hmul, Nat.or_comm, ← Nat.shiftLeft_eq, ← Nat.shiftLeft_add_eq_or_of_lt h.buf,
          Nat.shiftLeft_eq]
    omega
  have hdrop : data.drop r.ptr.toNat = d :: data.drop (r.ptr.toNat + 1) := by
    rw [List.drop_eq_getElem_cons hlt, hd']
  refine ⟨⟨?_, ?_, ?_⟩, hcnt, hptr, ?_, ?_⟩
  · simp only [hcnt]; omega
  · simp only [hcnt, hbuf]
    have := h.buf
    rw [Nat.pow_add]
    calc r.buf.toNat + d.toNat * 2 ^ r.cnt.toNat < 2 ^ r.cnt.toNat + 255 * 2 ^ r.cnt.toNat :=
        Nat.add_lt_add_of_lt_of_le this (Nat.mul_le_mul_right _ (by omega))
      _ = 2 ^ r.cnt.toNat * 2 ^ 8 := by ring
  · simp only [hptr]; omega
  · simp only [pendingValue, hcnt, hptr, hbuf, hdrop, leNat, Nat.pow_add]
    ring
  · simp only [pendingBits, hcnt, hptr]; omega

/-- The refill loop: it keeps the pending bits, and answers true exactly when there are enough of them. -/
theorem refill_spec {data : List Byte} (hd : data.length < 2 ^ 32) {size : Nat} (hs : size ≤ 12) {fuel : Nat} {r : BitReader}
    (h : r.Ok data) (hf : size ≤ r.cnt.toNat + 8 * fuel) :
    (refill data size fuel r).1.Ok data ∧ pendingValue data (refill data size fuel r).1 = pendingValue data r ∧
      pendingBits data (refill data size fuel r).1 = pendingBits data r ∧
      ((refill data size fuel r).2 = true → size ≤ (refill data size fuel r).1.cnt.toNat) ∧
      ((refill data size fuel r).2 = false → pendingBits data r < size) := by
  induction fuel generalizing r with
  | zero => exact ⟨h, rfl, rfl, fun h' => of_decide_eq_true h', fun h' => absurd (of_decide_eq_false h') (by omega)⟩
  | succ fuel ih =>
    simp only [refill]
    split
    · rename_i hlt
      split
      · rename_i hnone
        refine ⟨h, rfl, rfl, fun h' => by simp at h', fun _ => ?_⟩
        have := List.getElem?_eq_none_iff.mp hnone
        simp only [pendingBits]; omega
      · rename_i d hget
        obtain ⟨hok, hcnt, -, hval, hbits⟩ := refill_byte hd h (by omega) hget
        have := ih hok (by rw [hcnt]; omega)
        rw [hval, hbits] at this
        exact this
    · rename_i hge
      exact ⟨h, rfl, rfl, fun _ => Nat.le_of_not_lt hge, fun h' => by simp at h'⟩

/-- The bit-buffer registers of a state. -/
def readerOf (s : State) : BitReader := ⟨s.bitBuf, s.bitCnt, s.rdPtr⟩

/-- `readCode` writes the bit-buffer registers and nothing else. -/
theorem readCode_frame (s : State) : (readCode s).1 =
    { s with bitBuf := (readCode s).1.bitBuf, bitCnt := (readCode s).1.bitCnt, rdPtr := (readCode s).1.rdPtr } := by
  unfold readCode
  generalize refill s.data s.codeSize.toNat s.codeSize.toNat ⟨s.bitBuf, s.bitCnt, s.rdPtr⟩ = r
  obtain ⟨r, b⟩ := r
  cases b <;> rfl

/-- `readCode` in a state whose width is 1 to 12 and whose mask fits it: a code is the low `CODE_SIZE` bits pending, which it
consumes; `END` is answered exactly when fewer are pending. -/
theorem readCode_spec {s : State} (hd : s.data.length < 2 ^ 32) (hs : s.codeSize.toNat ≤ 12)
    (hm : s.codeMask.toNat = 2 ^ s.codeSize.toNat - 1) (h : (readerOf s).Ok s.data) :
    (readerOf (readCode s).1).Ok s.data ∧
      ((readCode s).2 = none → pendingBits s.data (readerOf s) < s.codeSize.toNat) ∧
      ∀ c, (readCode s).2 = some c →
        c.toNat = pendingValue s.data (readerOf s) % 2 ^ s.codeSize.toNat ∧
        pendingValue s.data (readerOf (readCode s).1) = pendingValue s.data (readerOf s) / 2 ^ s.codeSize.toNat ∧
        pendingBits s.data (readerOf (readCode s).1) + s.codeSize.toNat = pendingBits s.data (readerOf s) := by
  obtain ⟨hok, hval, hbits, htrue, hfalse⟩ :=
    refill_spec hd hs h (fuel := s.codeSize.toNat) (by omega)
  unfold readCode
  simp only [readerOf] at *
  generalize hR : refill s.data s.codeSize.toNat s.codeSize.toNat ⟨s.bitBuf, s.bitCnt, s.rdPtr⟩ = R at *
  obtain ⟨r, b⟩ := R
  cases b with
  | false =>
    refine ⟨?_, fun _ => hfalse rfl, fun c hc => by simp at hc⟩
    simpa using hok
  | true =>
    have hsz : s.codeSize.toNat ≤ r.cnt.toNat := htrue rfl
    have hcntR : r.cnt.toNat ≤ 19 := hok.cnt
    have hcnt' : (r.cnt - s.codeSize.setWidth 5).toNat = r.cnt.toNat - s.codeSize.toNat := by
      have : (s.codeSize.setWidth 5).toNat = s.codeSize.toNat := by
        rw [BitVec.toNat_setWidth, Nat.mod_eq_of_lt (by have := s.codeSize.isLt; omega)]
      rw [BitVec.toNat_sub, this]
      have := r.cnt.isLt
      omega
    have hshift : (r.buf >>> s.codeSize.toNat).toNat = r.buf.toNat / 2 ^ s.codeSize.toNat := by
      rw [BitVec.toNat_ushiftRight, Nat.shiftRight_eq_div_pow]
    have hsplit : 2 ^ r.cnt.toNat = 2 ^ s.codeSize.toNat * 2 ^ (r.cnt.toNat - s.codeSize.toNat) := by
      rw [← Nat.pow_add]; congr 1; omega
    simp only [if_true, reduceCtorEq, false_implies, true_and, Option.some.injEq, forall_eq']
    have hpos := Nat.two_pow_pos s.codeSize.toNat
    refine ⟨⟨?_, ?_, hok.ptr⟩, ?_, ?_, ?_⟩
    · simp only [hcnt']; omega
    · simp only [hcnt', hshift]
      have := hok.buf
      simp only at this
      rw [hsplit] at this
      exact Nat.div_lt_of_lt_mul this
    · rw [BitVec.toNat_and, hm, BitVec.toNat_setWidth, ← hval, Nat.and_two_pow_sub_one_eq_mod,
        Nat.mod_mod_of_dvd _ (pow_dvd_pow 2 hs)]
      simp only [pendingValue]
      rw [hsplit, Nat.mul_assoc, Nat.add_mul_mod_self_left]
    · rw [← hval]
      simp only [pendingValue, hcnt', hshift]
      rw [hsplit, Nat.mul_assoc, Nat.add_mul_div_left _ _ hpos]
    · rw [← hbits]
      simp only [pendingBits, hcnt']
      omega

end Sys2Proof.Machine
end

