-- ==== Sys2Proof/Laws/Lzw.lean ====
section
/-! SUPPORT. The laws of the LZW Decompressor: widths, appends, the strings codes name, and the invariant between codes. -/

namespace Sys2Proof.Machine

/-! ## Widths (42_lzw R170, R185) -/

theorem codeSize_toNat_ofNat {w : Nat} (h : w < 16) : (BitVec.ofNat 4 w).toNat = w := by
  rw [BitVec.toNat_ofNat, Nat.mod_eq_of_lt h]

theorem two_pow_le_4096 {w : Nat} (h : w ≤ 12) : 2 ^ w ≤ 4096 := Nat.pow_le_pow_right (n := 2) (by omega) h

theorem codeMask_toNat_ofNat {w : Nat} (h : w ≤ 12) : (BitVec.ofNat 12 (2 ^ w - 1)).toNat = 2 ^ w - 1 := by
  have := two_pow_le_4096 h
  have := Nat.two_pow_pos w
  rw [BitVec.toNat_ofNat, Nat.mod_eq_of_lt (by omega)]

/-- A code narrowed to a symbol, the code being a literal. -/
theorem sym_toNat_ofNat {n : Nat} (h : n < 2048) : (BitVec.ofNat 11 n).toNat = n := by
  rw [BitVec.toNat_ofNat, Nat.mod_eq_of_lt h]

/-! ## Appends (R184, R185, R186) -/

/-- With the table full an append changes nothing (R186). -/
theorem addEntry_full {s : State} (h : 4096 ≤ s.nextCode.toNat) (pc : Code) (k : Sym) : addEntry pc k s = s := by
  rw [addEntry, if_neg (by omega)]

theorem nextCode_succ_toNat {s : State} (h : s.nextCode.toNat < 4096) : (s.nextCode + 1).toNat = s.nextCode.toNat + 1 := by
  rw [BitVec.toNat_add, show (1 : BitVec 13).toNat = 1 from rfl, Nat.mod_eq_of_lt (by omega)]

/-- What an append below 4096 writes. -/
theorem addEntry_append {s : State} (hs : s.codeSize.toNat ≤ 12) (h : s.nextCode.toNat < 4096) (pc : Code) (k : Sym) :
    (addEntry pc k s).nextCode.toNat = s.nextCode.toNat + 1 ∧
      (addEntry pc k s).table = cellInsert s.table s.nextCode.toNat ⟨pc, k⟩ ∧
      (s.nextCode.toNat + 1 = 2 ^ s.codeSize.toNat → s.nextCode.toNat + 1 ≤ 4095 →
        (addEntry pc k s).codeSize.toNat = s.codeSize.toNat + 1 ∧
          (addEntry pc k s).codeMask.toNat = 2 ^ (s.codeSize.toNat + 1) - 1) ∧
      (s.nextCode.toNat + 1 ≠ 2 ^ s.codeSize.toNat ∨ s.nextCode.toNat + 1 = 4096 →
        (addEntry pc k s).codeSize = s.codeSize ∧ (addEntry pc k s).codeMask = s.codeMask) := by
  rw [addEntry, if_pos h]
  simp only [widthGrowth, nextCode_succ_toNat h]
  split
  · rename_i hg
    have hlt : s.codeSize.toNat < 12 := by
      rcases Nat.lt_or_ge s.codeSize.toNat 12 with hlt | hge
      · exact hlt
      · have : s.codeSize.toNat = 12 := by omega
        rw [this] at hg; omega
    refine ⟨nextCode_succ_toNat h, rfl, fun _ _ => ⟨codeSize_toNat_ofNat (by omega), codeMask_toNat_ofNat (by omega)⟩, ?_⟩
    intro hn; omega
  · rename_i hg
    refine ⟨nextCode_succ_toNat h, rfl, fun h1 h2 => absurd ⟨h1, h2⟩ hg, fun _ => ⟨rfl, rfl⟩⟩

/-- An append writes the table, the next code and the width, and nothing else. -/
theorem addEntry_frame (pc : Code) (k : Sym) (s : State) : addEntry pc k s =
    { s with
      table := (addEntry pc k s).table, nextCode := (addEntry pc k s).nextCode, codeSize := (addEntry pc k s).codeSize,
      codeMask := (addEntry pc k s).codeMask } := by
  unfold addEntry widthGrowth
  split
  · split <;> rfl
  · rfl

/-! ## Strings (R183) -/

/-- The walk finds the run a code names, given fuel for its length. -/
theorem walkString_of_namesString {s : State} {c : Nat} {run : List Sym} (h : NamesString s c run) {fuel : Nat} {acc : List Sym}
    (hf : run.length ≤ fuel + 1) :
    walkString s.table s.clearCode.toNat s.nextCode.toNat fuel c acc = some (run ++ acc) := by
  induction h generalizing fuel acc with
  | literal h => cases fuel <;> simp [walkString, h]
  | slot low live read rest ih =>
    have hlen : ∀ {c : Nat} {run : List Sym}, NamesString s c run → 1 ≤ run.length := by
      intro c run h; cases h <;> simp
    have := hlen rest
    simp only [List.length_append, List.length_singleton] at hf
    obtain ⟨fuel, rfl⟩ : ∃ n, fuel = n + 1 := ⟨fuel - 1, by omega⟩
    simp only [walkString, read]
    rw [if_neg (by omega), if_pos ⟨low, live⟩, ih (by omega)]
    simp

/-- A code names at most one run. -/
theorem namesString_unique {s : State} {c : Nat} {run other : List Sym} (h : NamesString s c run) (h' : NamesString s c other) :
    other = run := by
  have h1 := walkString_of_namesString h (fuel := max run.length other.length) (acc := []) (by omega)
  have h2 := walkString_of_namesString h' (fuel := max run.length other.length) (acc := []) (by omega)
  rw [h1] at h2
  simpa using h2.symm

/-- A run survives any change that leaves the slots it is made of. -/
theorem NamesString.mono {s t : State} (hc : t.clearCode = s.clearCode) (hn : s.nextCode.toNat ≤ t.nextCode.toNat)
    (ht : ∀ c, c < s.nextCode.toNat → cellLookup t.table c = cellLookup s.table c) {c : Nat} {run : List Sym}
    (h : NamesString s c run) : NamesString t c run := by
  induction h with
  | literal h => exact .literal (by rw [hc]; exact h)
  | slot low live read rest ih => exact .slot (by rw [hc]; exact low) (by omega) (by rw [ht _ live]; exact read) ih

/-- Between codes every literal and every live slot names a run: not empty, no longer than its code allows, of symbols below
`CLEAR_CODE` (R189.6, R189.7, R189.8). -/
theorem namesString_exists {s : State} (h : LzwInv s) {c : Nat} (hc : namesRun s s.nextCode.toNat c) :
    ∃ (k : Sym) (rest : List Sym), NamesString s c (k :: rest) ∧ rest.length ≤ c ∧
      ∀ x ∈ k :: rest, x.toNat < s.clearCode.toNat := by
  induction c using Nat.strong_induction_on with
  | _ c ih =>
    rcases hc with hlit | ⟨hlow, hlive⟩
    · refine ⟨BitVec.ofNat 11 c, [], .literal hlit, Nat.zero_le _, ?_⟩
      have h2048 : s.clearCode.toNat ≤ 2048 := by
        rw [h.clearCode]; exact Nat.pow_le_pow_right (n := 2) (by omega) h.minCode.2
      intro x hx
      rw [List.mem_singleton.mp hx, sym_toNat_ofNat (by omega)]
      exact hlit
    · obtain ⟨e, hread, hpre, hsym⟩ := h.live c hlow hlive
      have hlt : e.prefixCode.toNat < c := by rcases hpre with hp | hp <;> omega
      obtain ⟨k, rest, hrest, hlen, hsyms⟩ := ih _ hlt (by
        rcases hpre with hp | hp
        · exact .inl hp
        · exact .inr ⟨hp.1, by omega⟩)
      refine ⟨k, rest ++ [e.sym], .slot hlow hlive hread hrest, by simp only [List.length_append, List.length_singleton]; omega, ?_⟩
      intro x hx
      simp only [← List.cons_append, List.mem_append, List.mem_singleton] at hx
      rcases hx with hx | rfl
      · exact hsyms x hx
      · exact hsym

/-- The walk finds the run of every code that names one. -/
theorem stringOf_of_namesString {s : State} {c : Code} {k : Sym} {rest : List Sym} (h : NamesString s c.toNat (k :: rest))
    (hlen : rest.length ≤ c.toNat) : stringOf s c = some (k :: rest) := by
  have := c.isLt
  rw [stringOf, walkString_of_namesString h (by simp only [List.length_cons]; omega), List.append_nil]

/-! ## The invariant between codes (R189) -/

theorem LzwInv.clear_le {s : State} (h : LzwInv s) : 4 ≤ s.clearCode.toNat ∧ s.clearCode.toNat ≤ 2048 := by
  rw [h.clearCode]
  exact ⟨Nat.pow_le_pow_right (n := 2) (by omega) h.minCode.1, Nat.pow_le_pow_right (n := 2) (by omega) h.minCode.2⟩

theorem LzwInv.nextCode_le {s : State} (h : LzwInv s) : s.nextCode.toNat ≤ 2 ^ s.codeSize.toNat := by
  rcases h.nextFits with h | ⟨h, h'⟩
  · omega
  · rw [h, h']; omega

/-- The context of a code is one R100 classifies. -/
theorem lzwCtx_wf {s : State} (h : LzwInv s) : (lzwCtx s).wf = true :=
  (LzwCtx.wf_iff _).mpr ⟨h.clear_le.1, h.clear_le.2, h.eoiCode, h.nextCode.1, h.nextCode_le, h.codeSize.2, h.prevNone⟩

/-- The bit buffer of the invariant is the reader's. -/
theorem LzwInv.reader {s : State} (h : LzwInv s) : (readerOf s).Ok s.data := ⟨h.bitCnt, h.bitBuf, h.rdPtr⟩

/-- A change of the bit buffer, the cursor-side registers and the index stream keeps the invariant, the new buffer being sound and
the new symbols literals. -/
theorem LzwInv.congr {s t : State} (h : LzwInv s) (hm : t.minCodeSize = s.minCodeSize) (hc : t.clearCode = s.clearCode)
    (he : t.eoiCode = s.eoiCode) (hz : t.codeSize = s.codeSize) (hk : t.codeMask = s.codeMask) (hn : t.nextCode = s.nextCode)
    (ht : t.table = s.table) (hp : t.prevCode = s.prevCode) (hr : (readerOf t).Ok t.data)
    (hi : ∀ x ∈ t.idx, x.toNat < s.clearCode.toNat) : LzwInv t where
  minCode := by rw [hm]; exact h.minCode
  clearCode := by rw [hm, hc]; exact h.clearCode
  eoiCode := by rw [he, hc]; exact h.eoiCode
  codeSize := by rw [hm, hz]; exact h.codeSize
  codeMask := by rw [hk, hz]; exact h.codeMask
  nextCode := by rw [hc, hn]; exact h.nextCode
  nextFits := by rw [hn, hz]; exact h.nextFits
  bitCnt := hr.cnt
  bitBuf := hr.buf
  rdPtr := hr.ptr
  live := by simp only [namesRun, hc, hn, ht]; exact h.live
  prevNone := by rw [hp, hn, hc]; exact h.prevNone
  prevSome := by simp only [namesRun, hp, hc, hn]; exact h.prevSome
  symbols := by rw [hc]; exact hi

/-- Set-up writes the LZW registers, the index stream and the model's stage, and nothing else (R170). -/
theorem initLzw_frame (s : State) : ∃ c e z m n, initLzw s = { s with
    clearCode := c, eoiCode := e, codeSize := z, codeMask := m, nextCode := n, prevCode := none, bitBuf := 0, bitCnt := 0,
    rdPtr := 0, idx := [], stage := .lzw } := by
  simp only [initLzw, resetCodes, setCodeSize]
  exact ⟨_, _, _, _, _, rfl⟩

/-- Set-up establishes the invariant (R170, R171). -/
theorem initLzw_inv {s : State} (h : 2 ≤ s.minCodeSize.toNat ∧ s.minCodeSize.toNat ≤ 11) : LzwInv (initLzw s) := by
  obtain ⟨h2, h11⟩ := h
  have hpos := Nat.two_pow_pos s.minCodeSize.toNat
  have h4 : 4 ≤ 2 ^ s.minCodeSize.toNat := Nat.pow_le_pow_right (n := 2) (by omega) h2
  have h2048 : 2 ^ s.minCodeSize.toNat ≤ 2048 := Nat.pow_le_pow_right (n := 2) (by omega) h11
  have hclear : (BitVec.ofNat 12 (2 ^ s.minCodeSize.toNat)).toNat = 2 ^ s.minCodeSize.toNat := by
    rw [BitVec.toNat_ofNat, Nat.mod_eq_of_lt (by omega)]
  have heoi : (BitVec.ofNat 12 (2 ^ s.minCodeSize.toNat + 1)).toNat = 2 ^ s.minCodeSize.toNat + 1 := by
    rw [BitVec.toNat_ofNat, Nat.mod_eq_of_lt (by omega)]
  have hnext : (BitVec.ofNat 13 (2 ^ s.minCodeSize.toNat + 2)).toNat = 2 ^ s.minCodeSize.toNat + 2 := by
    rw [BitVec.toNat_ofNat, Nat.mod_eq_of_lt (by omega)]
  have hsize : (BitVec.ofNat 4 (s.minCodeSize.toNat + 1)).toNat = s.minCodeSize.toNat + 1 := codeSize_toNat_ofNat (by omega)
  have hmask := codeMask_toNat_ofNat (w := s.minCodeSize.toNat + 1) (by omega)
  have hpow : 2 ^ (s.minCodeSize.toNat + 1) = 2 * 2 ^ s.minCodeSize.toNat := by rw [Nat.pow_succ, Nat.mul_comm]
  constructor <;> simp only [initLzw, resetCodes, setCodeSize, hclear, heoi, hnext, hsize, hmask, reduceCtorEq, false_implies,
    implies_true, List.not_mem_nil]
  all_goals first | omega | simp

/-- CLEAR keeps the invariant (R177). -/
theorem resetCodes_inv {s : State} (h : LzwInv s) : LzwInv (resetCodes s) := by
  obtain ⟨h2, h11⟩ := h.minCode
  have hclear := h.clearCode
  have h4 := h.clear_le
  have hsize : (BitVec.ofNat 4 (s.minCodeSize.toNat + 1)).toNat = s.minCodeSize.toNat + 1 := codeSize_toNat_ofNat (by omega)
  have hmask := codeMask_toNat_ofNat (w := s.minCodeSize.toNat + 1) (by omega)
  have hnext : (BitVec.ofNat 13 (s.clearCode.toNat + 2)).toNat = s.clearCode.toNat + 2 := by
    rw [BitVec.toNat_ofNat, Nat.mod_eq_of_lt (by omega)]
  have hpow : 2 ^ (s.minCodeSize.toNat + 1) = 2 * 2 ^ s.minCodeSize.toNat := by rw [Nat.pow_succ, Nat.mul_comm]
  constructor <;> simp only [resetCodes, setCodeSize, hsize, hmask, hnext, reduceCtorEq, false_implies, implies_true]
  case symbols => exact h.symbols
  case eoiCode => exact h.eoiCode
  case bitCnt => exact h.bitCnt
  case bitBuf => exact h.bitBuf
  case rdPtr => exact h.rdPtr
  all_goals omega

/-- Emitting a run, appending and remembering a code keeps the invariant, when the run is of literals, the appended symbol is one,
and the code is a literal, live, or the slot just appended (R187). -/
theorem emitRun_inv {s : State} (h : LzwInv s) {pc c : Code} (hpc : s.prevCode = some pc) {run : List Sym} {k : Sym}
    (hrun : ∀ x ∈ run, x.toNat < s.clearCode.toNat) (hk : k.toNat < s.clearCode.toNat)
    (hc : namesRun s s.nextCode.toNat c.toNat ∨ (c.toNat = s.nextCode.toNat)) : LzwInv (emitRun run pc k c s) := by
  have hclear := h.clear_le
  have hnames := h.prevSome pc hpc
  have hsyms : ∀ x ∈ s.idx ++ run, x.toNat < s.clearCode.toNat := by
    intro x hx
    rcases List.mem_append.mp hx with hx | hx
    · exact h.symbols x hx
    · exact hrun x hx
  have hclt := c.isLt
  have hnc := h.nextCode
  have hfit := h.nextFits
  by_cases hfull : 4096 ≤ s.nextCode.toNat
  · have hadd : addEntry pc k { s with idx := s.idx ++ run } = { s with idx := s.idx ++ run } :=
      addEntry_full (s := { s with idx := s.idx ++ run }) hfull ..
    have hc' : namesRun s s.nextCode.toNat c.toNat := hc.resolve_right (by omega)
    simp only [emitRun, hadd]
    exact
      { minCode := h.minCode, clearCode := h.clearCode, eoiCode := h.eoiCode, codeSize := h.codeSize, codeMask := h.codeMask,
        nextCode := h.nextCode, nextFits := h.nextFits, bitCnt := h.bitCnt, bitBuf := h.bitBuf, rdPtr := h.rdPtr, live := h.live,
        prevNone := fun hn => (nomatch hn), prevSome := fun p hp => (by cases hp; exact hc'), symbols := hsyms }
  · have hlt : s.nextCode.toNat < 4096 := by omega
    obtain ⟨hnext, htable, hgrow, hstay⟩ := addEntry_append (s := { s with idx := s.idx ++ run }) h.codeSize.2 hlt pc k
    have hframe := addEntry_frame pc k { s with idx := s.idx ++ run }
    generalize hu : addEntry pc k { s with idx := s.idx ++ run } = u at *
    simp only at hnext htable hgrow hstay
    obtain ⟨hm1, hm2⟩ := h.minCode
    have hsz := h.codeSize
    have hmask := h.codeMask
    have huc : u.clearCode = s.clearCode := by rw [hframe]
    have hume : u.minCodeSize = s.minCodeSize := by rw [hframe]
    have hue : u.eoiCode = s.eoiCode := by rw [hframe]
    have hub : readerOf u = readerOf s := by rw [hframe]; rfl
    have hud : u.data = s.data := by rw [hframe]
    have hui : u.idx = s.idx ++ run := by rw [hframe]
    have hwidth : u.codeMask.toNat = 2 ^ u.codeSize.toNat - 1 ∧ s.codeSize.toNat ≤ u.codeSize.toNat ∧ u.codeSize.toNat ≤ 12 ∧
        (u.nextCode.toNat < 2 ^ u.codeSize.toNat ∨ (u.nextCode.toNat = 4096 ∧ u.codeSize.toNat = 12)) := by
      by_cases hg : s.nextCode.toNat + 1 = 2 ^ s.codeSize.toNat ∧ s.nextCode.toNat + 1 ≤ 4095
      · obtain ⟨h1, h2⟩ := hgrow hg.1 hg.2
        have : s.codeSize.toNat < 12 := by
          rcases Nat.lt_or_ge s.codeSize.toNat 12 with hlt | hge
          · exact hlt
          · have heq : s.codeSize.toNat = 12 := by omega
            rw [heq] at hg; omega
        have hpow : 2 ^ (s.codeSize.toNat + 1) = 2 * 2 ^ s.codeSize.toNat := by rw [Nat.pow_succ, Nat.mul_comm]
        rw [h1, h2]
        refine ⟨rfl, by omega, by omega, by omega⟩
      · obtain ⟨h1, h2⟩ := hstay (by omega)
        rw [h1, h2]
        refine ⟨hmask, Nat.le_refl _, hsz.2, ?_⟩
        by_cases heq : s.nextCode.toNat + 1 = 4096
        · refine .inr ⟨by omega, ?_⟩
          by_contra hcon
          have : 2 ^ s.codeSize.toNat ≤ 2 ^ 11 := Nat.pow_le_pow_right (n := 2) (by omega) (by omega)
          omega
        · exact .inl (by omega)
    refine
      { minCode := ?_, clearCode := ?_, eoiCode := ?_, codeSize := ?_, codeMask := ?_, nextCode := ?_,
        nextFits := ?_, bitCnt := ?_, bitBuf := ?_, rdPtr := ?_, live := ?_, prevNone := fun hn => (nomatch hn),
        prevSome := ?_, symbols := ?_ } <;> simp only [emitRun, hu, huc, hume, hue, hui]
    · exact h.minCode
    · exact h.clearCode
    · exact h.eoiCode
    · omega
    · exact hwidth.1
    · omega
    · exact hwidth.2.2.2
    · have := h.bitCnt; rw [show u.bitCnt = s.bitCnt by rw [hframe]]; exact this
    · rw [show u.bitCnt = s.bitCnt by rw [hframe], show u.bitBuf = s.bitBuf by rw [hframe]]; exact h.bitBuf
    · rw [hud, show u.rdPtr = s.rdPtr by rw [hframe]]; exact h.rdPtr
    · intro d hlow hlive
      simp only [namesRun, htable]
      by_cases hd : d = s.nextCode.toNat
      · subst hd
        exact ⟨⟨pc, k⟩, cellLookup_insert_same .., hnames, hk⟩
      · obtain ⟨e, hread, hpre, hsym⟩ := h.live d hlow (by omega)
        exact ⟨e, by rw [cellLookup_insert_other _ _ hd]; exact hread, hpre, hsym⟩
    · intro p hp
      cases hp
      simp only [namesRun]
      rcases hc with (hlit | hlive) | heq
      · exact .inl hlit
      · exact .inr ⟨hlive.1, by omega⟩
      · exact .inr ⟨by omega, by omega⟩
    · exact hsyms

end Sys2Proof.Machine
end

