-- ==== Sys2Proof/Laws/Step.lean ====
section
/-! SUPPORT. What a step is: whose move it is, and what the engine does at each stage. -/

namespace Sys2Proof.Machine

/-! ## Whose move it is -/

/-- With no host move pending the engine moves. -/
theorem step_engine {s : State} (h : s.host = []) : step s = engineStep s := by
  simp only [step, machineStep, h]

theorem step_yield {s : State} {rest : List HostOp} (h : s.host = .yield :: rest) : step s = engineStep { s with host :=
    rest } := by
  simp only [step, machineStep, h, if_true]

theorem step_host {s : State} {op : HostOp} {rest : List HostOp} (h : s.host = op :: rest) (hop : op ≠ .yield) :
    step s = hostStep op { s with host := rest } := by
  simp only [step, machineStep, h, hop, if_false]

/-! ## The engine at each stage -/

section
variable {s : State}

theorem engineStep_rest (hp : s.phase ≠ .busy) : engineStep s = .next s := by
  unfold engineStep; cases h : s.phase <;> simp_all

theorem engineStep_container (hp : s.phase = .busy) (hs : s.stage = .container) : engineStep s = .next (containerPhase s) := by
  unfold engineStep; rw [hp, hs]

theorem engineStep_walker (hp : s.phase = .busy) (hs : s.stage = .walker) : engineStep s = walkerStep s := by
  unfold engineStep; rw [hp, hs]

theorem engineStep_extension (hp : s.phase = .busy) (hs : s.stage = .extension) : engineStep s = extensionStep s := by
  unfold engineStep; rw [hp, hs]

theorem engineStep_lzwSetup (hp : s.phase = .busy) (hs : s.stage = .lzwSetup) : engineStep s = .next (lzwSetup s) := by
  unfold engineStep; rw [hp, hs]

theorem engineStep_lzw (hp : s.phase = .busy) (hs : s.stage = .lzw) : engineStep s = lzwStep s := by
  unfold engineStep; rw [hp, hs]

theorem engineStep_compose (hp : s.phase = .busy) (hs : s.stage = .compose) : engineStep s = .next (composeStep s) := by
  unfold engineStep; rw [hp, hs]

theorem engineStep_dispose (hp : s.phase = .busy) (hs : s.stage = .dispose) : engineStep s = disposeStep s := by
  unfold engineStep; rw [hp, hs]

theorem engineStep_retire (hp : s.phase = .busy) (hs : s.stage = .retire) : engineStep s = .next (retireImage s) := by
  unfold engineStep; rw [hp, hs]

end

/-! ## What the block rows do -/

/-- The palette phase of an image block writes the descriptor registers and the active palette, and nothing else. -/
theorem imagePalette_frame (p q : Nat) (s : State) : markTransparent (selectPalette q (readDescriptor p s)) =
    { readDescriptor p s with
      apal := (markTransparent (selectPalette q (readDescriptor p s))).apal
      apalLen := (markTransparent (selectPalette q (readDescriptor p s))).apalLen } := by
  unfold markTransparent selectPalette
  split <;> rfl

/-- An image block's meaning either ends `TRUNCATED`, with no more than the descriptor, the active palette and the minimum code
size written, or collects its data. -/
theorem execImage_cases {s t : State} (h : execImage s = .next t) :
    let p := s.cur.toNat
    let m := markTransparent (selectPalette (p + 10) (readDescriptor p s))
    t = endDecode .truncated s ∨ t = endDecode .truncated (readDescriptor p s) ∨
      (∃ b, t = endDecode .truncated { m with minCodeSize := b }) ∨
      ∃ (b : Byte) (r : SubBlocks) (q : Nat), p + 10 ≤ q ∧ collectSubBlocks s (q + 1) = some r ∧
        t = { m with minCodeSize := b, data := r.bytes, blockEnd := BitVec.ofNat 32 r.next, stage := .lzwSetup } := by
  intro p m
  have hm := imagePalette_frame p (p + 10) s
  simp only [execImage] at h
  split at h
  · cases h; exact .inl rfl
  · simp only [imagePalette] at h
    split at h
    · cases h; exact .inr (.inl rfl)
    · simp only [imageData] at h
      split at h
      · cases h; exact .inr (.inr (.inl ⟨m.minCodeSize, rfl⟩))
      · rename_i hq
        generalize hcol : collectSubBlocks _ _ = c at h
        cases c with
        | none => cases h; exact .inr (.inr (.inl ⟨_, rfl⟩))
        | some r =>
          cases h
          refine .inr (.inr (.inr ⟨_, r, p + 10 + 3 * (readDescriptor p s).imgLctSize.toNat, by omega, ?_, rfl⟩))
          rw [← hcol]
          apply (collectSubBlocks_congr ..).symm <;> rw [hm] <;> rfl

/-- APP and COMMENT either end `TRUNCATED` or move past their sub-blocks. -/
theorem execApp_cases {s t : State} (h : execApp s = .next t) :
    t = endDecode .truncated s ∨ ∃ r, collectSubBlocks s (s.cur.toNat + 14) = some r ∧ t = toNextBlock r.next s := by
  simp only [execApp] at h
  split at h
  · cases h; exact .inl rfl
  · split at h
    · cases h; exact .inl rfl
    · cases h; exact .inr ⟨_, ‹_›, rfl⟩

theorem execComment_cases {s t : State} (h : execComment s = .next t) :
    t = endDecode .truncated s ∨ ∃ r, collectSubBlocks s (s.cur.toNat + 2) = some r ∧ t = toNextBlock r.next s := by
  simp only [execComment] at h
  split at h
  · cases h; exact .inl rfl
  · split at h
    · cases h; exact .inl rfl
    · cases h; exact .inr ⟨_, ‹_›, rfl⟩

theorem execGce_cases {s t : State} (h : execGce s = .next t) :
    t = endDecode .truncated s ∨ (s.cur.toNat + 8 ≤ srcEnd s ∧
      t = toNextBlock (s.cur.toNat + 8)
        { s with gceTflag := t.gceTflag, gceDisposal := t.gceDisposal, gceDelay := t.gceDelay, gceTindex := t.gceTindex }) := by
  simp only [execGce] at h
  split at h
  · cases h; exact .inl rfl
  · cases h; exact .inr ⟨by omega, rfl⟩

theorem execExtension_cases {s t : State} (h : execExtension s = .next t) :
    t = endDecode .truncated s ∨ (s.cur.toNat + 2 ≤ srcEnd s ∧
      t = { logLabel (srcByte s (s.cur.toNat + 1)) s with stage := .extension }) := by
  simp only [execExtension] at h
  split at h
  · cases h; exact .inl rfl
  · cases h; exact .inr ⟨by omega, rfl⟩

/-! ## What the code rows do -/

theorem execLiteral_cases {c : Code} {s t : State} (h : execLiteral c s = .next t) :
    ∃ pc, s.prevCode = some pc ∧ t = emitRun [BitVec.ofNat 11 c.toNat] pc (BitVec.ofNat 11 c.toNat) c s := by
  simp only [execLiteral] at h
  split at h
  · cases h
  · cases h; exact ⟨_, ‹_›, rfl⟩

theorem execTable_cases {c : Code} {s t : State} (h : execTable c s = .next t) :
    ∃ pc k r, s.prevCode = some pc ∧ stringOf s c = some (k :: r) ∧ t = emitRun (k :: r) pc k c s := by
  simp only [execTable] at h
  split at h
  · cases h
  · split at h <;> cases h
    exact ⟨_, _, _, ‹_›, ‹_›, rfl⟩

theorem execKwkwk_cases {c : Code} {s t : State} (h : execKwkwk c s = .next t) :
    ∃ pc k r, s.prevCode = some pc ∧ stringOf s pc = some (k :: r) ∧ t = emitRun (k :: r ++ [k]) pc k c s := by
  simp only [execKwkwk] at h
  split at h
  · cases h
  · split at h <;> cases h
    exact ⟨_, _, _, ‹_›, ‹_›, rfl⟩

/-- Emitting a run writes the index stream, the table and the code registers, and nothing else. -/
theorem emitRun_frame (run : List Sym) (pc : Code) (k : Sym) (c : Code) (s : State) : emitRun run pc k c s =
    { s with
      idx := s.idx ++ run, prevCode := some c, table := (emitRun run pc k c s).table, nextCode := (emitRun run pc k c s).nextCode,
      codeSize := (emitRun run pc k c s).codeSize, codeMask := (emitRun run pc k c s).codeMask } := by
  have h := addEntry_frame pc k { s with idx := s.idx ++ run }
  simp only [emitRun]
  generalize addEntry pc k { s with idx := s.idx ++ run } = u at *
  rw [h]

/-! ## What no instruction writes -/

/-- What belongs to the host, the configuration and the screen registers stay (10_state R20, R25 to R27, 20_memory R60). -/
structure KeepsSource (s t : State) : Prop where
  src : t.src = s.src
  srcLen : t.srcLen = s.srcLen
  srcEpoch : t.srcEpoch = s.srcEpoch
  cfg : t.cfg = s.cfg
  host : t.host = s.host
  busData : t.busData = s.busData
  freeIdx : t.freeIdx = s.freeIdx
  sig : t.sig = s.sig
  version : t.version = s.version
  canvasW : t.canvasW = s.canvasW
  canvasH : t.canvasH = s.canvasH
  hasGct : t.hasGct = s.hasGct
  gctSize : t.gctSize = s.gctSize
  bgIndex : t.bgIndex = s.bgIndex
  gpal : t.gpal = s.gpal

theorem exec_keepsSource {i : Instr} {s t : State} (h : exec i s = .next t) : KeepsSource s t := by
  cases i with
  | image =>
    have hm := imagePalette_frame s.cur.toNat (s.cur.toNat + 10) s
    rcases execImage_cases h with rfl | rfl | ⟨b, rfl⟩ | ⟨b, r, q, hq, hcol, rfl⟩
    · constructor <;> rfl
    · constructor <;> rfl
    all_goals rw [hm]; constructor <;> rfl
  | extension => rcases execExtension_cases h with rfl | ⟨-, rfl⟩ <;> constructor <;> rfl
  | gce =>
    rcases execGce_cases h with rfl | ⟨-, heq⟩
    · constructor <;> rfl
    · rw [heq]; constructor <;> rfl
  | app => rcases execApp_cases h with rfl | ⟨r, -, rfl⟩ <;> constructor <;> rfl
  | comment => rcases execComment_cases h with rfl | ⟨r, -, rfl⟩ <;> constructor <;> rfl
  | literal c => obtain ⟨pc, -, rfl⟩ := execLiteral_cases h; rw [emitRun_frame]; constructor <;> rfl
  | table c => obtain ⟨pc, k, r, -, -, rfl⟩ := execTable_cases h; rw [emitRun_frame]; constructor <;> rfl
  | kwkwk c => obtain ⟨pc, k, r, -, -, rfl⟩ := execKwkwk_cases h; rw [emitRun_frame]; constructor <;> rfl
  | disposeReserved v =>
    simp only [exec, execDisposeReserved] at h
    split at h <;> cases h <;> constructor <;> rfl
  | trailer | tagUnknown _ | plainText | extUnknown _ | invalid _ | eoi | clear | first _ | firstNonliteral _ | disposeNone
  | disposeKeep | disposeBackground | disposePrevious => cases h; constructor <;> rfl

/-- No instruction emits a frame (43_compositor R216 does, before the disposal method is fetched). -/
theorem exec_keepsFrames {i : Instr} {s t : State} (h : exec i s = .next t) : t.frames = s.frames ∧
    t.frameCount = s.frameCount := by
  cases i with
  | image =>
    have hm := imagePalette_frame s.cur.toNat (s.cur.toNat + 10) s
    rcases execImage_cases h with rfl | rfl | ⟨b, rfl⟩ | ⟨b, r, q, hq, hcol, rfl⟩
    · exact ⟨rfl, rfl⟩
    · exact ⟨rfl, rfl⟩
    all_goals rw [hm]; exact ⟨rfl, rfl⟩
  | extension => rcases execExtension_cases h with rfl | ⟨-, rfl⟩ <;> exact ⟨rfl, rfl⟩
  | gce =>
    rcases execGce_cases h with rfl | ⟨-, heq⟩
    · exact ⟨rfl, rfl⟩
    · rw [heq]; exact ⟨rfl, rfl⟩
  | app => rcases execApp_cases h with rfl | ⟨r, -, rfl⟩ <;> exact ⟨rfl, rfl⟩
  | comment => rcases execComment_cases h with rfl | ⟨r, -, rfl⟩ <;> exact ⟨rfl, rfl⟩
  | literal c => obtain ⟨pc, -, rfl⟩ := execLiteral_cases h; rw [emitRun_frame]; exact ⟨rfl, rfl⟩
  | table c => obtain ⟨pc, k, r, -, -, rfl⟩ := execTable_cases h; rw [emitRun_frame]; exact ⟨rfl, rfl⟩
  | kwkwk c => obtain ⟨pc, k, r, -, -, rfl⟩ := execKwkwk_cases h; rw [emitRun_frame]; exact ⟨rfl, rfl⟩
  | disposeReserved v =>
    simp only [exec, execDisposeReserved] at h
    split at h <;> cases h <;> exact ⟨rfl, rfl⟩
  | trailer | tagUnknown _ | plainText | extUnknown _ | invalid _ | eoi | clear | first _ | firstNonliteral _ | disposeNone
  | disposeKeep | disposeBackground | disposePrevious => cases h; exact ⟨rfl, rfl⟩

/-- What a fetched word that runs was decoded to. -/
theorem runWord_cases {f : Format} {w : Nat} {s t : State} (h : runWord f w s = .next t) :
    ∃ i, decode f w = .ok i ∧ exec i s = .next t := by
  simp only [runWord] at h
  split at h
  · exact ⟨_, ‹_›, h⟩
  · cases h

theorem walkerStep_cases {s t : State} (h : walkerStep s = .next t) :
    (srcEnd s ≤ s.cur.toNat ∧ t = endDecode .truncated s) ∨
      (s.cur.toNat < srcEnd s ∧ ∃ i, decode .tag8 (srcByte s s.cur.toNat).toNat = .ok i ∧
        exec i (logTag (srcByte s s.cur.toNat) s) = .next t) := by
  simp only [walkerStep] at h
  split at h
  · cases h; exact .inl ⟨‹_›, rfl⟩
  · exact .inr ⟨by omega, runWord_cases h⟩

theorem lzwStep_fetch_cases {s t : State} (h : lzwStep s = .next t) :
    t = endLzw (readCode s).1 ∨ ∃ (c : Code) (i : Instr), (readCode s).2 = some c ∧
      decode (.lzwCode (lzwCtx (readCode s).1)) c.toNat = .ok i ∧ exec i (readCode s).1 = .next t := by
  simp only [lzwStep] at h
  split at h
  · rename_i heq; cases h; rw [heq]; exact .inl rfl
  · rename_i heq; rw [heq]; exact .inr ⟨_, (runWord_cases h).choose, rfl, (runWord_cases h).choose_spec⟩

/-! ## What the compositor does -/

/-- The compositor faults, with the snapshot taken and the canvas as far as it was painted, or emits a frame. -/
theorem composeStep_cases (s : State) :
    (∃ (r : Result) (canvas : List Pixel), r ≠ .none ∧ canvas.length = s.canvas.length ∧
      composeStep s = endDecode r { s with snap := s.canvas, canvas := canvas }) ∨
    ∃ canvas : List Pixel, canvas.length = s.canvas.length ∧ framesFull s = false ∧
      composeStep s = { s with
        snap := s.canvas, canvas := canvas, frames := s.frames ++ [⟨canvas, s.gceDelay⟩], frameCount := s.frameCount + 1,
        stage := .dispose } := by
  have hlen : (paintRect { s with snap := s.canvas }).1.length = s.canvas.length := paint_length ..
  simp only [composeStep]
  split
  · exact .inl ⟨_, s.canvas, by simp, rfl, rfl⟩
  · simp only [composePixels]
    split
    · simp only [emitFrame]
      split
      · exact .inl ⟨_, _, by simp, hlen, rfl⟩
      · exact .inr ⟨_, hlen, Bool.eq_false_iff.mpr ‹_›, rfl⟩
    · exact .inl ⟨_, _, by simp, hlen, rfl⟩

end Sys2Proof.Machine
end

