-- ==== Sys2Proof/Laws/HostPort.lean ====
section
/-! SUPPORT. The laws of the host interface: register words field by field, window words, and what each host move does. -/

namespace Sys2Proof.Machine

/-! ## Fields of a word -/

theorem field_toNat {w : Nat} (v : BitVec w) (lo : Nat) (h : lo + w ≤ 32) : (field v lo).toNat = 2 ^ lo * v.toNat := by
  have hv := v.isLt
  have h1 : 2 ^ w ≤ 2 ^ 32 := Nat.pow_le_pow_right (by omega) (by omega)
  have h2 : v.toNat * 2 ^ lo < 2 ^ 32 := by
    calc v.toNat * 2 ^ lo < 2 ^ w * 2 ^ lo := Nat.mul_lt_mul_of_pos_right hv (Nat.two_pow_pos _)
      _ = 2 ^ (lo + w) := by rw [← Nat.pow_add, Nat.add_comm]
      _ ≤ 2 ^ 32 := Nat.pow_le_pow_right (by omega) h
  rw [field, BitVec.toNat_shiftLeft, BitVec.toNat_ofNat, Nat.mod_eq_of_lt (a := v.toNat) (by omega), Nat.shiftLeft_eq,
    Nat.mod_eq_of_lt h2, Nat.mul_comm]

/-- A field above everything already in the word adds its value. -/
theorem or_field_toNat {a : Word} {w : Nat} (v : BitVec w) (lo : Nat) (h : lo + w ≤ 32) (ha : a.toNat < 2 ^ lo) :
    (a ||| field v lo).toNat = a.toNat + 2 ^ lo * v.toNat := by
  rw [BitVec.toNat_or, field_toNat v lo h, Nat.or_comm, ← Nat.two_pow_add_eq_or_of_lt ha, Nat.add_comm]

/-! ## Register words (10_state R43, R45) -/

theorem statusWord_toNat (s : State) : (statusWord s).toNat = (phaseCode s.phase).toNat + 2 ^ 8 * s.result.code.toNat := by
  have h1 := field_toNat (phaseCode s.phase) 0 (by omega)
  have := (phaseCode s.phase).isLt
  rw [statusWord, or_field_toNat _ _ (by omega) (by rw [h1]; omega), h1]
  omega

theorem canvasDimWord_toNat (s : State) : (canvasDimWord s).toNat = s.canvasW.toNat + 2 ^ 16 * s.canvasH.toNat := by
  have h1 := field_toNat s.canvasW 0 (by omega)
  have := s.canvasW.isLt
  rw [canvasDimWord, or_field_toNat _ _ (by omega) (by rw [h1]; omega), h1]
  omega

theorem screenInfoWord_toNat (s : State) :
    (screenInfoWord s).toNat = s.hasGct.toNat + 2 ^ 4 * s.gctSize.toNat + 2 ^ 16 * s.bgIndex.toNat := by
  have h1 := field_toNat (BitVec.ofBool s.hasGct) 0 (by omega)
  have hb : (BitVec.ofBool s.hasGct).toNat = s.hasGct.toNat := by cases s.hasGct <;> rfl
  have hb1 : s.hasGct.toNat ≤ 1 := by cases s.hasGct <;> simp
  have h2 := or_field_toNat (a := field (BitVec.ofBool s.hasGct) 0) s.gctSize 4 (by omega) (by rw [h1, hb]; omega)
  have := s.gctSize.isLt
  rw [screenInfoWord, or_field_toNat _ _ (by omega) (by rw [h2, h1, hb]; omega), h2, h1, hb]
  omega

theorem versionWord_toNat (s : State) :
    (versionWord s).toNat = s.version.b0.toNat + 2 ^ 8 * s.version.b1.toNat + 2 ^ 16 * s.version.b2.toNat := by
  have h1 := field_toNat s.version.b0 0 (by omega)
  have l0 := s.version.b0.isLt
  have l1 := s.version.b1.isLt
  have h2 := or_field_toNat (a := field s.version.b0 0) s.version.b1 8 (by omega) (by rw [h1]; omega)
  rw [versionWord, or_field_toNat _ _ (by omega) (by rw [h2, h1]; omega), h2, h1]
  omega

/-! ## Window words (R50; 20_memory R68, R69) -/

theorem or_reverse (a b c d : Word) : a ||| b ||| c ||| d = d ||| c ||| b ||| a := by
  rw [BitVec.or_comm, BitVec.or_comm (a ||| b) c, BitVec.or_comm a b, ← BitVec.or_assoc, ← BitVec.or_assoc]

theorem pixelWord_toNat_rgb (r g b : Byte) :
    (pixelWord (.rgb r g b)).toNat = 2 ^ 24 + 2 ^ 16 * r.toNat + 2 ^ 8 * g.toNat + b.toNat := by
  have h1 := field_toNat b 0 (by omega)
  have := r.isLt
  have := g.isLt
  have := b.isLt
  have h4 : (1#32 <<< 24) = field (1#1) 24 := by decide
  have e1 := or_field_toNat (a := field b 0) g 8 (by omega) (by rw [h1]; omega)
  have e2 := or_field_toNat (a := field b 0 ||| field g 8) r 16 (by omega) (by rw [e1, h1]; omega)
  have e3 := or_field_toNat (a := field b 0 ||| field g 8 ||| field r 16) (1#1) 24 (by omega) (by rw [e2, e1, h1]; omega)
  have h6 : (1#1).toNat = 1 := rfl
  rw [pixelWord, or_reverse, h4, e3, e2, e1, h1, h6]
  omega

theorem tagWord_toNat_none (tag : Byte) : (tagWord ⟨tag, none⟩).toNat = tag.toNat := by
  simp only [tagWord]
  rw [field_toNat tag 0 (by omega)]
  omega

theorem tagWord_toNat_some (tag label : Byte) : (tagWord ⟨tag, some label⟩).toNat = tag.toNat + 2 ^ 8 + 2 ^ 16 * label.toNat := by
  have h1 := field_toNat tag 0 (by omega)
  have h4 : (1#32 <<< 8) = field (1#1) 8 := by decide
  have h6 : (1#1).toNat = 1 := rfl
  have := tag.isLt
  have e1 := or_field_toNat (a := field tag 0) (1#1) 8 (by omega) (by rw [h1]; omega)
  have e2 := or_field_toNat (a := field tag 0 ||| field (1#1) 8) label 16 (by omega) (by
    rw [e1, h1, h6]; omega)
  simp only [tagWord]
  rw [h4, e2, e1, h1, h6]
  omega

/-! ## The register map -/

theorem offset_ne {off : BitVec 8} {n : Nat} (h : n ≠ off.toNat) (hn : n < 256) : off ≠ BitVec.ofNat 8 n := by
  rintro rfl
  rw [BitVec.toNat_ofNat, Nat.mod_eq_of_lt hn] at h
  exact h rfl

/-- A reserved offset reads 0 (R48). -/
theorem registerWord_reserved {off : BitVec 8} (h : 0x28 ≤ off.toNat) (s : State) : registerWord s off = some 0 := by
  unfold registerWord
  rw [if_neg (offset_ne (n := 0) (by omega) (by omega)), if_neg (offset_ne (n := 4) (by omega) (by omega)),
    if_neg (offset_ne (n := 8) (by omega) (by omega)), if_neg (offset_ne (n := 0xC) (by omega) (by omega)),
    if_neg (offset_ne (n := 0x10) (by omega) (by omega)), if_neg (offset_ne (n := 0x14) (by omega) (by omega)),
    if_neg (offset_ne (n := 0x18) (by omega) (by omega)), if_neg (offset_ne (n := 0x1C) (by omega) (by omega)),
    if_neg (offset_ne (n := 0x20) (by omega) (by omega)), if_neg (offset_ne (n := 0x24) (by omega) (by omega)), if_pos h]

/-- The map names no offset below 0x28 that is no multiple of 4. -/
theorem registerWord_unaligned {off : BitVec 8} (h : off.toNat < 0x28) (h4 : off.toNat % 4 ≠ 0) (s : State) :
    registerWord s off = none := by
  unfold registerWord
  rw [if_neg (offset_ne (n := 0) (by omega) (by omega)), if_neg (offset_ne (n := 4) (by omega) (by omega)),
    if_neg (offset_ne (n := 8) (by omega) (by omega)), if_neg (offset_ne (n := 0xC) (by omega) (by omega)),
    if_neg (offset_ne (n := 0x10) (by omega) (by omega)), if_neg (offset_ne (n := 0x14) (by omega) (by omega)),
    if_neg (offset_ne (n := 0x18) (by omega) (by omega)), if_neg (offset_ne (n := 0x1C) (by omega) (by omega)),
    if_neg (offset_ne (n := 0x20) (by omega) (by omega)), if_neg (offset_ne (n := 0x24) (by omega) (by omega)), if_neg (by omega)]

/-- The map names every other offset: past all its rows only an offset it does not name is left. -/
theorem registerWord_isSome {off : BitVec 8} (h : off.toNat % 4 = 0 ∨ 0x28 ≤ off.toNat) (s : State) :
    ∃ w, registerWord s off = some w := by
  refine Option.ne_none_iff_exists'.mp fun hnone => ?_
  simp only [registerWord, ite_eq_iff, reduceCtorEq, and_false, false_or, and_true] at hnone
  bv_omega

/-! ## What a host move does -/

/-- A read at rest answers its word on the bus and changes nothing else. -/
theorem answerAtRest_rest {s : State} (h : s.phase ≠ .busy) (w : Word) : answerAtRest w s = .next { s with busData := w } := by
  simp only [answerAtRest, if_neg h, answer]

/-- A read while BUSY answers a free draw (R49). -/
theorem answerAtRest_busy {s : State} (h : s.phase = .busy) (w : Word) :
    answerAtRest w s = .next { s with busData := Config.undefinedRead s.freeIdx, freeIdx := s.freeIdx + 1 } := by
  simp only [answerAtRest, if_pos h, answerFree]

end Sys2Proof.Machine
end

