-- ==== Sys2Proof/Laws/Invariant.lean ====
section
/-! SUPPORT. How the invariant of Safety.lean is kept, stage by stage and move by move. -/

namespace Sys2Proof.Machine

/-! ## Building the invariant -/

/-- An ended decode keeps the invariant, whatever ended it. -/
theorem Inv.ended {s : State} {r : Result} (hm : MemoryInv s) (hp : PaletteInv s) (ho : OutputInv s) (hr : r ≠ .none) :
    Inv (endDecode r s) where
  memory := ⟨hm.src, hm.table, hm.slots⟩
  palette := ⟨hp.gpalLength, hp.apalLength, hp.gctSize, hp.apalLen, hp.noTable, hp.gpalUnmarked, hp.oneMark⟩
  outcome := ⟨by simp [hr], rfl, fun h => nomatch h⟩
  output := ⟨ho.tagLog, ho.frameCount, ho.frameSize, ho.capacity⟩
  running := fun h => nomatch h

/-- A running decode has no outcome yet. -/
theorem Inv.noOutcome {s : State} (h : Inv s) (hp : s.phase = .busy) : s.result = .none ∧ s.faultPos = 0 := by
  have hr : s.result = .none := by
    by_contra hne
    have := h.outcome.outcome.mpr hne
    rw [hp] at this
    cases this
  refine ⟨hr, ?_⟩
  rw [h.outcome.faultPos, hr]
  rfl

theorem Inv.busy {s : State} (hm : MemoryInv s) (hp : PaletteInv s) (ho : OutputInv s) (hphase : s.phase = .busy)
    (hr : s.result = .none ∧ s.faultPos = 0) (hs : StageInv s) : Inv s where
  memory := hm
  palette := hp
  outcome := by
    refine ⟨?_, ?_, ?_⟩
    · rw [hphase, hr.1]; simp
    · rw [hr.1, hr.2]; rfl
    · rw [hphase]; intro h; cases h
  output := ho
  running := fun _ => hs

/-- The host's fields are no part of the invariant. -/
theorem Inv.withHost {s : State} (h : Inv s) (host : List HostOp) (w : Word) (n : Nat) :
    Inv { s with host := host, busData := w, freeIdx := n } where
  memory := ⟨h.memory.src, h.memory.table, h.memory.slots⟩
  palette := ⟨h.palette.gpalLength, h.palette.apalLength, h.palette.gctSize, h.palette.apalLen, h.palette.noTable,
    h.palette.gpalUnmarked, h.palette.oneMark⟩
  outcome := ⟨h.outcome.outcome, h.outcome.faultPos, fun hi =>
    congrArg (fun u : State => { u with host := host, busData := w, freeIdx := n }) (h.outcome.idle hi)⟩
  output := ⟨h.output.tagLog, h.output.frameCount, h.output.frameSize, h.output.capacity⟩
  running := by
    intro hp
    have hs := h.running hp
    simp only [StageInv] at hs ⊢
    cases hst : s.stage <;> simp only [hst] at hs ⊢
    case container =>
      have := congrArg (fun u : State => { u with host := host, busData := w, freeIdx := n }) hs
      rw [← hst]
      exact this
    case lzw =>
      obtain ⟨h1, h2, h3, h4, h5⟩ := hs
      exact ⟨h1, h2, h3, h4, h5.congr rfl rfl rfl rfl rfl rfl rfl rfl h5.reader h5.symbols⟩
    all_goals exact hs

/-! ## What an update leaves -/

/-- An update that leaves the outputs, the palettes, the canvas size and the control registers. -/
structure KeepsBlock (s t : State) : Prop where
  cfg : t.cfg = s.cfg
  phase : t.phase = s.phase
  result : t.result = s.result
  faultPos : t.faultPos = s.faultPos
  srcLen : t.srcLen = s.srcLen
  src : t.src = s.src
  canvasW : t.canvasW = s.canvasW
  canvasH : t.canvasH = s.canvasH
  hasGct : t.hasGct = s.hasGct
  gctSize : t.gctSize = s.gctSize
  bgIndex : t.bgIndex = s.bgIndex
  gpal : t.gpal = s.gpal
  apal : t.apal = s.apal
  apalLen : t.apalLen = s.apalLen
  frames : t.frames = s.frames
  frameCount : t.frameCount = s.frameCount
  tagLog : t.tagLog = s.tagLog
  tagCount : t.tagCount = s.tagCount

namespace KeepsBlock
variable {s t : State} (k : KeepsBlock s t)
include k

theorem canvasPixels_eq : canvasPixels t = canvasPixels s := by rw [canvasPixels, canvasPixels, k.canvasW, k.canvasH]

theorem srcEnd_eq : srcEnd t = srcEnd s := by rw [srcEnd, srcEnd, k.srcLen]

theorem palette (h : PaletteInv s) : PaletteInv t := by
  refine ⟨?_, ?_, ?_, ?_, ?_, ?_, ?_⟩
  · rw [k.gpal]; exact h.gpalLength
  · rw [k.apal]; exact h.apalLength
  · rw [k.gctSize]; exact h.gctSize
  · rw [k.apalLen]; exact h.apalLen
  · rw [k.hasGct, k.gctSize, k.bgIndex]; exact h.noTable
  · rw [k.gpal]; exact h.gpalUnmarked
  · rw [k.apal, k.apalLen]; exact h.oneMark

theorem output (h : OutputInv s) : OutputInv t := by
  refine ⟨?_, ?_, ?_, ?_⟩
  · rw [k.tagLog, k.cfg, k.tagCount]; exact h.tagLog
  · rw [k.frameCount, k.frames]; exact h.frameCount
  · rw [k.frames, k.canvasPixels_eq]; exact h.frameSize
  · rw [k.cfg, k.frames]; exact h.capacity

theorem memory (h : MemoryInv s) (ht : t.table = s.table) : MemoryInv t :=
  ⟨by rw [k.src]; exact h.src, by rw [ht]; exact h.table, by rw [ht]; exact h.slots⟩

theorem noOutcome (h : s.result = .none ∧ s.faultPos = 0) : t.result = .none ∧ t.faultPos = 0 := by
  rw [k.result, k.faultPos]; exact h

theorem canvasSized (h : CanvasSized s) (hc : t.canvas = s.canvas) (hs : t.snap = s.snap) : CanvasSized t := by
  rw [CanvasSized, hc, hs, k.canvasPixels_eq]; exact h

theorem inImage (h : InImage s) (hc : t.cur = s.cur) (hb : t.blockEnd = s.blockEnd) (hd : t.data = s.data) : InImage t := by
  rw [InImage, hc, hb, hd, k.srcEnd_eq]; exact h

theorem counted {a b : Nat} (h : Counted a b s) (hc : t.cur = s.cur) : Counted a b t := by
  rw [Counted, hc, k.tagCount, k.frames]; exact h

end KeepsBlock

theorem EmptyAfter.congr {d d' : BitVec 3} {s t : State} (h : EmptyAfter d s) (hd : d' = d) (hc : t.canvas = s.canvas) :
    EmptyAfter d' t := by
  rw [EmptyAfter, hd, hc]; exact h

/-! ## The tag log -/

theorem labelLast_length (l : Byte) (log : List TagEntry) : (labelLast l log).length = log.length := by
  induction log with
  | nil => rfl
  | cons e r ih =>
    cases r with
    | nil => rfl
    | cons e' r => simp only [labelLast, List.length_cons] at ih ⊢; omega

theorem labelLast_append (l : Byte) (log : List TagEntry) (e : TagEntry) :
    labelLast l (log ++ [e]) = log ++ [{ e with label := some l }] := by
  induction log with
  | nil => rfl
  | cons x r ih => cases r <;> simp_all [labelLast]

theorem tagCount_succ_toNat {s : State} (h : s.tagCount.toNat < 2 ^ 32 - 1) : (s.tagCount + 1).toNat = s.tagCount.toNat + 1 := by
  rw [BitVec.toNat_add, show (1 : Word).toNat = 1 from rfl, Nat.mod_eq_of_lt (by omega)]

theorem outputInv_logTag {s : State} (h : OutputInv s) (hc : s.tagCount.toNat < 2 ^ 32 - 1) (tag : Byte) :
    OutputInv (logTag tag s) where
  tagLog := by
    have hlog := h.tagLog
    simp only [logTag, tagCount_succ_toNat hc, logStores]
    cases hcap : s.cfg.tagLogCapacity with
    | none => rw [hcap] at hlog; simp only at hlog; simp [hlog]
    | some c =>
      rw [hcap] at hlog
      simp only at hlog
      by_cases hlt : s.tagCount.toNat < c
      · simp only [hlt, decide_true, if_true, List.length_append, List.length_singleton]; omega
      · simp only [hlt, decide_false, Bool.false_eq_true, if_false]; omega
  frameCount := h.frameCount
  frameSize := h.frameSize
  capacity := h.capacity

theorem outputInv_logLabel {s : State} (h : OutputInv s) (label : Byte) : OutputInv (logLabel label s) where
  tagLog := by
    have hlog := h.tagLog
    simp only [logLabel]
    split <;> simp only [labelLast_length, hlog]
  frameCount := h.frameCount
  frameSize := h.frameSize
  capacity := h.capacity

/-! ## Palettes -/

theorem paletteInv_readDescriptor {s : State} (h : PaletteInv s) (p : Nat) : PaletteInv (readDescriptor p s) :=
  ⟨h.gpalLength, h.apalLength, h.gctSize, h.apalLen, h.noTable, h.gpalUnmarked, h.oneMark⟩

theorem countP_eq_zero_of_unmarked {l : List PalEntry} (h : ∀ e ∈ l, e.t = false) : l.countP (·.t) = 0 := by
  rw [List.countP_eq_zero]
  intro e he
  simp [h e he]

/-- Selecting the palette leaves no mark among the valid entries (40_container R119, 41_block_walker R133). -/
theorem selectPalette_spec {s : State} (h : PaletteInv s) (hl : s.imgLctSize.toNat ≤ 256) (q : Nat) :
    (selectPalette q s).apal.length = 256 ∧ (selectPalette q s).apalLen.toNat ≤ 256 ∧
      ((selectPalette q s).apal.take (selectPalette q s).apalLen.toNat).countP (·.t) = 0 := by
  unfold selectPalette
  split
  · have hlen : (readColorTable s q s.imgLctSize.toNat).length = s.imgLctSize.toNat := readColorTable_length ..
    refine ⟨?_, hl, ?_⟩
    · simp only
      rw [writeEntries_length (by rw [hlen, h.apalLength]; exact hl), h.apalLength]
    · simp only
      have := writeEntries_take (old := s.apal) (new := readColorTable s q s.imgLctSize.toNat)
      rw [hlen] at this
      rw [this]
      exact countP_eq_zero_of_unmarked (readColorTable_unmarked _ _ _)
  · have hlen : (s.gpal.take s.gctSize.toNat).length = s.gctSize.toNat := by
      rw [List.length_take, h.gpalLength, Nat.min_eq_left h.gctSize]
    refine ⟨?_, h.gctSize, ?_⟩
    · simp only
      rw [writeEntries_length (by rw [hlen, h.apalLength]; exact h.gctSize), h.apalLength]
    · simp only
      have := writeEntries_take (old := s.apal) (new := s.gpal.take s.gctSize.toNat)
      rw [hlen] at this
      rw [this]
      exact countP_eq_zero_of_unmarked fun e he => h.gpalUnmarked e (List.mem_of_mem_take he)

/-- The palette of an image block keeps the palette invariant: at most one entry is marked (R134, 10_state R28). -/
theorem paletteInv_imagePalette {s : State} (h : PaletteInv s) (p q : Nat) :
    PaletteInv (markTransparent (selectPalette q (readDescriptor p s))) := by
  have hl : (readDescriptor p s).imgLctSize.toNat ≤ 256 := packedTableSize_le _
  obtain ⟨hlen, hle, hcount⟩ := selectPalette_spec (paletteInv_readDescriptor h p) hl q
  have hg : (selectPalette q (readDescriptor p s)).gpal = s.gpal := by simp
  have hgs : (selectPalette q (readDescriptor p s)).gctSize = s.gctSize := by simp
  have hh : (selectPalette q (readDescriptor p s)).hasGct = s.hasGct := by simp
  have hb : (selectPalette q (readDescriptor p s)).bgIndex = s.bgIndex := by simp
  generalize selectPalette q (readDescriptor p s) = u at *
  refine ⟨by rw [markTransparent_gpal, hg]; exact h.gpalLength, ?_, by rw [markTransparent_gctSize, hgs]; exact h.gctSize, hle,
    by simp only [markTransparent_hasGct, markTransparent_gctSize, markTransparent_bgIndex, hh, hgs, hb]; exact h.noTable,
    by rw [markTransparent_gpal, hg]; exact h.gpalUnmarked, ?_⟩
  · simp only [markTransparent]
    split
    · rw [markEntry_length, hlen]
    · exact hlen
  · simp only [markTransparent]
    split
    · have := markEntry_count u.apal u.gceTindex.toNat u.apalLen.toNat
      omega
    · omega

/-! ## The container phase (40_container R121) -/

theorem containerPhase_inv {s : State} (h : Inv s) (hp : s.phase = .busy) (hs : s.stage = .container) : Inv (containerPhase s) := by
  have hstart : startDecode s = s := by have := h.running hp; simpa only [StageInv, hs] using this
  have hframes : s.frames = [] := (congrArg State.frames hstart).symm
  have htags : s.tagCount = 0 := (congrArg State.tagCount hstart).symm
  have hN : srcEnd s < 2 ^ 32 := s.srcLen.isLt
  have hg : (readScreen (readSignature s)).gctSize.toNat ≤ 256 := packedTableSize_le _
  have hm := h.memory
  have hout : ∀ t : State, t.frames = s.frames → t.frameCount = s.frameCount → t.tagLog = s.tagLog → t.tagCount = s.tagCount →
      t.cfg = s.cfg → OutputInv t := by
    intro t h1 h2 h3 h4 h5
    refine ⟨by rw [h3, h4, h5]; exact h.output.tagLog, by rw [h1, h2]; exact h.output.frameCount, ?_, ?_⟩
    · rw [h1, hframes]; simp
    · rw [h1, h5]; exact h.output.capacity
  have hscreen : PaletteInv (readScreen (readSignature s)) := by
    refine ⟨h.palette.gpalLength, h.palette.apalLength, hg, h.palette.apalLen, ?_, h.palette.gpalUnmarked, h.palette.oneMark⟩
    intro hh
    simp only [readScreen] at hh ⊢
    simp only [packedTableSize, hh, Bool.false_eq_true, if_false, and_self]
  have htable : PaletteInv (readGlobalTable (readScreen (readSignature s))) := by
    have hlen : (readColorTable (readScreen (readSignature s)) 13 (readScreen (readSignature s)).gctSize.toNat).length =
      (readScreen (readSignature s)).gctSize.toNat := readColorTable_length ..
    refine ⟨?_, hscreen.apalLength, hscreen.gctSize, hscreen.apalLen, hscreen.noTable, ?_, hscreen.oneMark⟩
    · simp only [readGlobalTable]
      rw [writeEntries_length (by rw [hlen, hscreen.gpalLength]; exact hg), hscreen.gpalLength]
    · exact writeEntries_unmarked hscreen.gpalUnmarked (readColorTable_unmarked _ _ _)
  unfold containerPhase
  split
  · exact Inv.ended hm h.palette h.output (by simp)
  split
  · exact Inv.ended ⟨hm.src, hm.table, hm.slots⟩
      ⟨h.palette.gpalLength, h.palette.apalLength, h.palette.gctSize, h.palette.apalLen, h.palette.noTable, h.palette.gpalUnmarked,
        h.palette.oneMark⟩ (hout _ rfl rfl rfl rfl rfl) (by simp)
  unfold containerTail
  split
  · exact Inv.ended ⟨hm.src, hm.table, hm.slots⟩ hscreen (hout _ rfl rfl rfl rfl rfl) (by simp)
  split
  · exact Inv.ended ⟨hm.src, hm.table, hm.slots⟩ htable (hout _ rfl rfl rfl rfl rfl) (by simp)
  · rename_i hend _
    have hend' : 13 + 3 * (readScreen (readSignature s)).gctSize.toNat ≤ srcEnd s := Nat.not_lt.mp hend
    refine Inv.busy ⟨hm.src, hm.table, hm.slots⟩
      ⟨htable.gpalLength, htable.apalLength, htable.gctSize, htable.apalLen, htable.noTable, htable.gpalUnmarked, htable.oneMark⟩
      (hout _ rfl rfl rfl rfl rfl) hp (h.noOutcome hp) ?_
    refine ⟨⟨List.length_replicate, List.length_replicate⟩, ?_, ⟨?_, ?_⟩, fun _ px hpx => List.eq_of_mem_replicate hpx⟩
    · show (BitVec.ofNat 32 (13 + 3 * (readScreen (readSignature s)).gctSize.toNat)).toNat ≤ srcEnd s
      rw [BitVec.toNat_ofNat]; omega
    · show s.tagCount.toNat ≤ _
      rw [htags]; exact Nat.zero_le _
    · show s.frames.length ≤ _
      rw [hframes]; exact Nat.zero_le _

/-! ## The walker (41_block_walker R130) -/

theorem toNextBlock_inv {s : State} (hm : MemoryInv s) (hpal : PaletteInv s) (ho : OutputInv s) (hp : s.phase = .busy)
    (hr : s.result = .none ∧ s.faultPos = 0) (hc : CanvasSized s) (hcount : Counted 1 0 s) (he : EmptyAfter s.prevDisposal s)
    {q : Nat} (hlo : s.cur.toNat < q) (hhi : q ≤ srcEnd s) : Inv (toNextBlock q s) := by
  have hN : srcEnd s < 2 ^ 32 := s.srcLen.isLt
  have hq : (BitVec.ofNat 32 q).toNat = q := by rw [BitVec.toNat_ofNat, Nat.mod_eq_of_lt (by omega)]
  obtain ⟨h1, h2⟩ := hcount
  refine Inv.busy ⟨hm.src, hm.table, hm.slots⟩
    ⟨hpal.gpalLength, hpal.apalLength, hpal.gctSize, hpal.apalLen, hpal.noTable, hpal.gpalUnmarked, hpal.oneMark⟩
    ⟨ho.tagLog, ho.frameCount, ho.frameSize, ho.capacity⟩ hp hr ?_
  refine ⟨hc, ?_, ⟨?_, ?_⟩, he⟩
  · show (BitVec.ofNat 32 q).toNat ≤ srcEnd s
    rw [hq]; exact hhi
  · show s.tagCount.toNat ≤ (BitVec.ofNat 32 q).toNat + 0
    rw [hq]; omega
  · show s.frames.length ≤ (BitVec.ofNat 32 q).toNat + 0
    rw [hq]; omega

theorem execImage_inv {s t : State} (hm : MemoryInv s) (hpal : PaletteInv s) (ho : OutputInv s) (hp : s.phase = .busy)
    (hr : s.result = .none ∧ s.faultPos = 0) (hc : CanvasSized s) (hcount : Counted 1 0 s) (he : EmptyAfter s.prevDisposal s)
    (h : execImage s = .next t) : Inv t := by
  have hN : srcEnd s < 2 ^ 32 := s.srcLen.isLt
  have himg := paletteInv_imagePalette hpal s.cur.toNat (s.cur.toNat + 10)
  have hframe := imagePalette_frame s.cur.toNat (s.cur.toNat + 10) s
  rcases execImage_cases h with rfl | rfl | ⟨b, rfl⟩ | ⟨b, r, q, hq, hcol, rfl⟩
  · exact Inv.ended hm hpal ho (by simp)
  · exact Inv.ended ⟨hm.src, hm.table, hm.slots⟩ (paletteInv_readDescriptor hpal _) ⟨ho.tagLog, ho.frameCount, ho.frameSize,
      ho.capacity⟩ (by simp)
  all_goals generalize markTransparent (selectPalette (s.cur.toNat + 10) (readDescriptor s.cur.toNat s)) = m at *
  · refine Inv.ended (s := { m with minCodeSize := b }) ?_
      ⟨himg.gpalLength, himg.apalLength, himg.gctSize, himg.apalLen, himg.noTable, himg.gpalUnmarked, himg.oneMark⟩ ?_ (by simp)
    · rw [hframe]; exact ⟨hm.src, hm.table, hm.slots⟩
    · rw [hframe]; exact ⟨ho.tagLog, ho.frameCount, ho.frameSize, ho.capacity⟩
  · obtain ⟨hb1, hb2, hb3⟩ := collectSubBlocks_bounds hcol
    have hend : (BitVec.ofNat 32 r.next).toNat = r.next := by rw [BitVec.toNat_ofNat, Nat.mod_eq_of_lt (by omega)]
    obtain ⟨hc1, hc2⟩ := hcount
    refine Inv.busy ?_
      ⟨himg.gpalLength, himg.apalLength, himg.gctSize, himg.apalLen, himg.noTable, himg.gpalUnmarked, himg.oneMark⟩ ?_ ?_ ?_ ?_
    · rw [hframe]; exact ⟨hm.src, hm.table, hm.slots⟩
    · rw [hframe]; exact ⟨ho.tagLog, ho.frameCount, ho.frameSize, ho.capacity⟩
    · rw [hframe]; exact hp
    · rw [hframe]; exact hr
    · rw [hframe]
      refine ⟨hc, ⟨?_, ?_, ?_⟩, ⟨hc1, hc2⟩, he⟩
      · show s.cur.toNat < (BitVec.ofNat 32 r.next).toNat
        rw [hend]; omega
      · show (BitVec.ofNat 32 r.next).toNat ≤ srcEnd s
        rw [hend]; exact hb2
      · show r.bytes.length ≤ srcEnd s
        omega

/-- The walker runs the meaning of the tag it decodes. -/
theorem walkerStep_eq {s : State} (h : s.cur.toNat < srcEnd s) :
    walkerStep s = exec (decodeTag (srcByte s s.cur.toNat)) (logTag (srcByte s s.cur.toNat) s) := by
  simp only [walkerStep, if_neg (Nat.not_le.mpr h), runWord, decode_tag8]

theorem decodeTag_cases (t : Byte) : (t = 0x2C#8 ∧ decodeTag t = .image) ∨ (t = 0x21#8 ∧ decodeTag t = .extension) ∨
    (t = 0x3B#8 ∧ decodeTag t = .trailer) ∨ decodeTag t = .tagUnknown t := by
  unfold decodeTag
  by_cases h1 : t = 0x2C#8
  · exact .inl ⟨h1, if_pos h1⟩
  by_cases h2 : t = 0x21#8
  · exact .inr (.inl ⟨h2, by rw [if_neg h1, if_pos h2]⟩)
  by_cases h3 : t = 0x3B#8
  · exact .inr (.inr (.inl ⟨h3, by rw [if_neg h1, if_neg h2, if_pos h3]⟩))
  · exact .inr (.inr (.inr (by rw [if_neg h1, if_neg h2, if_neg h3])))

theorem walkerStep_inv {s t : State} (h : Inv s) (hp : s.phase = .busy) (hs : s.stage = .walker) (ht : walkerStep s = .next t) :
    Inv t := by
  have hst := h.running hp
  simp only [StageInv, hs] at hst
  obtain ⟨hc, hcur, ⟨hc1, hc2⟩, he⟩ := hst
  have hN : srcEnd s < 2 ^ 32 := s.srcLen.isLt
  by_cases hend : srcEnd s ≤ s.cur.toNat
  · simp only [walkerStep, if_pos hend] at ht
    cases ht
    exact Inv.ended h.memory h.palette h.output (by simp)
  rw [walkerStep_eq (by omega)] at ht
  have htag := (decodeTag_cases (srcByte s s.cur.toNat))
  have hsucc := tagCount_succ_toNat (s := s) (by omega)
  have hout := outputInv_logTag h.output (by omega) (srcByte s s.cur.toNat)
  have hm : MemoryInv (logTag (srcByte s s.cur.toNat) s) := ⟨h.memory.src, h.memory.table, h.memory.slots⟩
  have hpal : PaletteInv (logTag (srcByte s s.cur.toNat) s) := ⟨h.palette.gpalLength, h.palette.apalLength, h.palette.gctSize,
    h.palette.apalLen, h.palette.noTable, h.palette.gpalUnmarked, h.palette.oneMark⟩
  have hcount : Counted 1 0 (logTag (srcByte s s.cur.toNat) s) := ⟨by rw [logTag_tagCount, hsucc, logTag_cur]; omega, hc2⟩
  rcases htag with ⟨-, hd⟩ | ⟨h21, hd⟩ | ⟨-, hd⟩ | hd <;> rw [hd] at ht
  · exact execImage_inv hm hpal hout hp (h.noOutcome hp) hc hcount he ht
  · rcases execExtension_cases ht with rfl | ⟨hlen, rfl⟩
    · exact Inv.ended hm hpal hout (by simp)
    · have hlog := outputInv_logLabel hout (srcByte (logTag (srcByte s s.cur.toNat) s) ((logTag (srcByte s s.cur.toNat) s).cur.toNat + 1))
      generalize srcByte (logTag (srcByte s s.cur.toNat) s) ((logTag (srcByte s s.cur.toNat) s).cur.toNat + 1) = l at *
      generalize hu : logTag (srcByte s s.cur.toNat) s = u at *
      have hup : u.phase = .busy := by rw [← hu]; exact hp
      have hur : u.result = .none ∧ u.faultPos = 0 := by rw [← hu]; exact h.noOutcome hp
      have huc : CanvasSized u := by rw [← hu]; exact hc
      have hue : EmptyAfter u.prevDisposal u := by rw [← hu]; exact he
      have hub : srcByte u u.cur.toNat = 0x21#8 := by rw [← hu]; exact h21
      exact Inv.busy ⟨hm.src, hm.table, hm.slots⟩
        ⟨hpal.gpalLength, hpal.apalLength, hpal.gctSize, hpal.apalLen, hpal.noTable, hpal.gpalUnmarked, hpal.oneMark⟩
        ⟨hlog.tagLog, hlog.frameCount, hlog.frameSize, hlog.capacity⟩ hup hur ⟨huc, hlen, hub, hcount, hue⟩
  · cases ht
    exact Inv.ended ⟨hm.src, hm.table, hm.slots⟩
      ⟨hpal.gpalLength, hpal.apalLength, hpal.gctSize, hpal.apalLen, hpal.noTable, hpal.gpalUnmarked, hpal.oneMark⟩
      ⟨hout.tagLog, hout.frameCount, hout.frameSize, hout.capacity⟩ (by simp)
  · cases ht
    exact Inv.ended hm hpal hout (by simp)

/-! ## The extensions (R140) -/

theorem extensionStep_eq {s : State} (h : srcByte s s.cur.toNat = 0x21#8) :
    extensionStep s = exec (decodeLabel (srcByte s (s.cur.toNat + 1))) s := by
  have hw : extWord s = 0x2100 + (srcByte s (s.cur.toNat + 1)).toNat := by rw [extWord, h]; rfl
  simp only [extensionStep, runWord, hw, decode_ext16]

theorem decodeLabel_cases (l : Byte) : decodeLabel l = .gce ∨ decodeLabel l = .app ∨ decodeLabel l = .comment ∨
    decodeLabel l = .plainText ∨ decodeLabel l = .extUnknown l := by
  unfold decodeLabel
  by_cases h1 : l = 0xF9#8
  · exact .inl (if_pos h1)
  by_cases h2 : l = 0xFF#8
  · exact .inr (.inl (by rw [if_neg h1, if_pos h2]))
  by_cases h3 : l = 0xFE#8
  · exact .inr (.inr (.inl (by rw [if_neg h1, if_neg h2, if_pos h3])))
  by_cases h4 : l = 0x01#8
  · exact .inr (.inr (.inr (.inl (by rw [if_neg h1, if_neg h2, if_neg h3, if_pos h4]))))
  · exact .inr (.inr (.inr (.inr (by rw [if_neg h1, if_neg h2, if_neg h3, if_neg h4]))))

theorem extensionStep_inv {s t : State} (h : Inv s) (hp : s.phase = .busy) (hs : s.stage = .extension)
    (ht : extensionStep s = .next t) : Inv t := by
  have hst := h.running hp
  simp only [StageInv, hs] at hst
  obtain ⟨hc, hlen, h21, hcount, he⟩ := hst
  have hm := h.memory
  have hpal := h.palette
  have ho := h.output
  have hr := h.noOutcome hp
  rw [extensionStep_eq h21] at ht
  rcases decodeLabel_cases (srcByte s (s.cur.toNat + 1)) with hd | hd | hd | hd | hd <;> rw [hd] at ht
  · rcases execGce_cases ht with rfl | ⟨h8, heq⟩
    · exact Inv.ended hm hpal ho (by simp)
    · rw [heq]
      exact toNextBlock_inv (s := { s with
          gceTflag := t.gceTflag, gceDisposal := t.gceDisposal, gceDelay := t.gceDelay, gceTindex := t.gceTindex }) ⟨hm.src,
              hm.table, hm.slots⟩
        ⟨hpal.gpalLength, hpal.apalLength, hpal.gctSize, hpal.apalLen, hpal.noTable, hpal.gpalUnmarked, hpal.oneMark⟩
        ⟨ho.tagLog, ho.frameCount, ho.frameSize, ho.capacity⟩ hp hr hc hcount he (show s.cur.toNat < s.cur.toNat + 8 by omega) h8
  · rcases execApp_cases ht with rfl | ⟨r, hcol, rfl⟩
    · exact Inv.ended hm hpal ho (by simp)
    · obtain ⟨h1, h2, -⟩ := collectSubBlocks_bounds hcol
      exact toNextBlock_inv hm hpal ho hp hr hc hcount he (by omega) h2
  · rcases execComment_cases ht with rfl | ⟨r, hcol, rfl⟩
    · exact Inv.ended hm hpal ho (by simp)
    · obtain ⟨h1, h2, -⟩ := collectSubBlocks_bounds hcol
      exact toNextBlock_inv hm hpal ho hp hr hc hcount he (by omega) h2
  · cases ht
    exact Inv.ended hm hpal ho (by simp)
  · cases ht
    exact Inv.ended hm hpal ho (by simp)

/-! ## The LZW stages (42_lzw R170 to R190) -/

theorem lzwSetup_inv {s : State} (h : Inv s) (hp : s.phase = .busy) (hs : s.stage = .lzwSetup) : Inv (lzwSetup s) := by
  have hst := h.running hp
  simp only [StageInv, hs] at hst
  obtain ⟨hc, hin, hcount, he⟩ := hst
  have hm := h.memory
  have hpal := h.palette
  have ho := h.output
  unfold lzwSetup
  split
  · exact Inv.ended hm hpal ho (by simp)
  · rename_i hmin
    have hinv := initLzw_inv (s := s) (by omega)
    obtain ⟨c, e, z, m, n, hu⟩ := initLzw_frame s
    rw [hu] at hinv ⊢
    have k : KeepsBlock s { s with
        clearCode := c, eoiCode := e, codeSize := z, codeMask := m, nextCode := n, prevCode := none, bitBuf := 0, bitCnt := 0,
        rdPtr := 0, idx := [], stage := .lzw } :=
      ⟨rfl, rfl, rfl, rfl, rfl, rfl, rfl, rfl, rfl, rfl, rfl, rfl, rfl, rfl, rfl, rfl, rfl, rfl⟩
    exact Inv.busy (k.memory hm rfl) (k.palette hpal) (k.output ho) hp (h.noOutcome hp)
      ⟨hc, hin, hcount, he, hinv⟩

theorem memoryInv_addEntry {s : State} (h : MemoryInv s) (hs : s.codeSize.toNat ≤ 12) (pc : Code) (k : Sym) :
    CellsRising (addEntry pc k s).table ∧ ∀ c ∈ (addEntry pc k s).table, c.1 < 4096 := by
  by_cases hfull : 4096 ≤ s.nextCode.toNat
  · rw [addEntry_full hfull]; exact ⟨h.table, h.slots⟩
  · obtain ⟨-, htable, -, -⟩ := addEntry_append hs (by omega) pc k
    rw [htable]
    refine ⟨cellInsert_rising _ _ h.table, fun c hc => ?_⟩
    rcases mem_cellInsert hc with rfl | hc
    · simp only; omega
    · exact h.slots c hc

/-- One code, read and classified: what the loop of R174 can do from a state of the invariant. -/
theorem lzwStep_cases {s : State} (h : LzwInv s) (hd : s.data.length < 2 ^ 32) :
    ∃ u, LzwInv u ∧ u = { s with bitBuf := u.bitBuf, bitCnt := u.bitCnt, rdPtr := u.rdPtr } ∧
      (lzwStep s = .next (endLzw u) ∨
        (pendingBits s.data (readerOf u) + s.codeSize.toNat = pendingBits s.data (readerOf s) ∧
          (lzwStep s = .next (endLzw u) ∨ lzwStep s = .next (resetCodes u) ∨ lzwStep s = .next (endDecode .lzwNoPrevious u) ∨
            (∃ c : Code, c.toNat < u.clearCode.toNat ∧
              lzwStep s = .next { u with idx := u.idx ++ [BitVec.ofNat 11 c.toNat], prevCode := some c }) ∨
            ∃ (run : List Sym) (pc c : Code) (k : Sym), u.prevCode = some pc ∧ (∀ x ∈ run, x.toNat < u.clearCode.toNat) ∧
              k.toNat < u.clearCode.toNat ∧ (namesRun u u.nextCode.toNat c.toNat ∨ c.toNat = u.nextCode.toNat) ∧
              lzwStep s = .next (emitRun run pc k c u)))) := by
  obtain ⟨hok, -, hsome⟩ := readCode_spec hd h.codeSize.2 h.codeMask h.reader
  have hframe := readCode_frame s
  generalize hR : readCode s = R at *
  obtain ⟨u, oc⟩ := R
  simp only at hok hsome hframe
  have hinv : LzwInv u := by
    apply h.congr
    case hr => rw [show u.data = s.data by rw [hframe]]; exact hok
    case hi => rw [show u.idx = s.idx by rw [hframe]]; exact h.symbols
    all_goals rw [hframe]
  refine ⟨u, hinv, hframe, ?_⟩
  cases oc with
  | none => left; simp only [lzwStep, hR]
  | some c =>
    right
    obtain ⟨hc, -, hbits⟩ := hsome c rfl
    refine ⟨hbits, ?_⟩
    have hsz : u.codeSize = s.codeSize := by rw [hframe]
    have hfit : c.toNat < 2 ^ (lzwCtx u).size := by
      show c.toNat < 2 ^ u.codeSize.toNat
      rw [hsz, hc]; exact Nat.mod_lt _ (Nat.two_pow_pos _)
    have hstep : lzwStep s = runWord (.lzwCode (lzwCtx u)) c.toNat u := by simp only [lzwStep, hR]
    rw [hstep]
    simp only [runWord, decode_lzwCode hfit]
    have h4 := hinv.clear_le
    have hpn : (lzwCtx u).prev = u.prevCode := rfl
    rcases classifyCode_cases (lzwCtx_wf hinv) c with ⟨-, hd⟩ | ⟨-, hd⟩ | ⟨-, hd⟩ | ⟨-, hlit, hd⟩ | ⟨-, -, hd⟩ | ⟨hp, hlit, hd⟩ |
      ⟨hp, hlive, hd⟩ | ⟨hp, hkw, hd⟩ <;> rw [hd]
    · exact .inl rfl
    · exact .inl rfl
    · exact .inr (.inl rfl)
    · exact .inr (.inr (.inr (.inl ⟨c, hlit, rfl⟩)))
    · exact .inr (.inr (.inl rfl))
    all_goals
      rw [hpn] at hp
      obtain ⟨pc, hprev⟩ := Option.ne_none_iff_exists'.mp hp
      refine .inr (.inr (.inr (.inr ?_)))
    · have hlit' : c.toNat < u.clearCode.toNat := hlit
      have hk : (BitVec.ofNat 11 c.toNat).toNat < u.clearCode.toNat := by rw [sym_toNat_ofNat (by omega)]; exact hlit'
      refine ⟨[BitVec.ofNat 11 c.toNat], pc, c, BitVec.ofNat 11 c.toNat, hprev, ?_, hk, .inl (.inl hlit'), ?_⟩
      · intro x hx
        rw [List.mem_singleton.mp hx]; exact hk
      · simp only [exec, execLiteral, hprev]
    · obtain ⟨k, rest, hn, hlen, hsyms⟩ := namesString_exists hinv (.inr hlive)
      refine ⟨k :: rest, pc, c, k, hprev, hsyms, hsyms k (List.mem_cons_self ..), .inl (.inr hlive), ?_⟩
      simp only [exec, execTable, hprev, stringOf_of_namesString hn hlen]
    · obtain ⟨k, rest, hn, hlen, hsyms⟩ := namesString_exists hinv (hinv.prevSome pc hprev)
      refine ⟨k :: rest ++ [k], pc, c, k, hprev, ?_, hsyms k (List.mem_cons_self ..), .inr hkw, ?_⟩
      · intro x hx
        rcases List.mem_append.mp hx with hx | hx
        · exact hsyms x hx
        · rw [List.mem_singleton.mp hx]; exact hsyms k (List.mem_cons_self ..)
      · simp only [exec, execKwkwk, hprev, stringOf_of_namesString hn hlen]

/-- FIRST keeps the invariant between codes (R178). -/
theorem first_inv {s : State} (h : LzwInv s) {c : Code} (hc : c.toNat < s.clearCode.toNat) :
    LzwInv { s with idx := s.idx ++ [BitVec.ofNat 11 c.toNat], prevCode := some c } := by
  have h4 := h.clear_le
  have hr := h.reader
  refine ⟨h.minCode, h.clearCode, h.eoiCode, h.codeSize, h.codeMask, h.nextCode, h.nextFits, h.bitCnt, h.bitBuf, h.rdPtr, h.live,
    fun hn => (nomatch hn), ?_, ?_⟩
  · intro pc hpc
    cases hpc
    exact .inl hc
  · intro x hx
    rcases List.mem_append.mp hx with hx | hx
    · exact h.symbols x hx
    · rw [List.mem_singleton.mp hx, sym_toNat_ofNat (by omega)]; exact hc

theorem lzwStep_inv {s t : State} (h : Inv s) (hp : s.phase = .busy) (hs : s.stage = .lzw) (ht : lzwStep s = .next t) : Inv t := by
  have hst := h.running hp
  simp only [StageInv, hs] at hst
  obtain ⟨hc, hin, hcount, he, hlzw⟩ := hst
  have hd : s.data.length < 2 ^ 32 := Nat.lt_of_le_of_lt hin.2.2 s.srcLen.isLt
  have hr := h.noOutcome hp
  have hm := h.memory
  obtain ⟨u, hinv, hu, hcases⟩ := lzwStep_cases hlzw hd
  have k : KeepsBlock s u := by rw [hu]; exact ⟨rfl, rfl, rfl, rfl, rfl, rfl, rfl, rfl, rfl, rfl, rfl, rfl, rfl, rfl, rfl, rfl,
      rfl, rfl⟩
  have hup : u.phase = .busy := by rw [k.phase]; exact hp
  have hus : u.stage = .lzw := by rw [hu]; exact hs
  have hum := k.memory hm (by rw [hu])
  have hupal := k.palette h.palette
  have huo := k.output h.output
  have hur := k.noOutcome hr
  have huc := k.canvasSized hc (by rw [hu]) (by rw [hu])
  have huin := k.inImage hin (by rw [hu]) (by rw [hu]) (by rw [hu])
  have hucount := k.counted hcount (by rw [hu])
  have hue : EmptyAfter u.prevDisposal u := he.congr (by rw [hu]) (by rw [hu])
  clear hu k
  have hend : Inv (endLzw u) := Inv.busy ⟨hum.src, hum.table, hum.slots⟩
    ⟨hupal.gpalLength, hupal.apalLength, hupal.gctSize, hupal.apalLen, hupal.noTable, hupal.gpalUnmarked, hupal.oneMark⟩
    ⟨huo.tagLog, huo.frameCount, huo.frameSize, huo.capacity⟩ hup hur ⟨huc, huin, hucount, hue⟩
  rcases hcases with h1 | ⟨-, h1 | h1 | h1 | ⟨c, hlit, h1⟩ | ⟨run, pc, c, sym, hpc, hrun, hsym, hcode,
      h1⟩⟩ <;> rw [h1] at ht <;> cases ht
  · exact hend
  · exact hend
  · have hclear := resetCodes_inv hinv
    have kt : KeepsBlock u (resetCodes u) := ⟨rfl, rfl, rfl, rfl, rfl, rfl, rfl, rfl, rfl, rfl, rfl, rfl, rfl, rfl, rfl, rfl,
        rfl, rfl⟩
    have hstage : (resetCodes u).stage = .lzw := hus
    have hphase : (resetCodes u).phase = .busy := hup
    have h1 := kt.canvasSized huc rfl rfl
    have h2 := kt.inImage huin rfl rfl rfl
    have h3 := kt.counted hucount rfl
    have h4 : EmptyAfter (resetCodes u).prevDisposal (resetCodes u) := hue.congr rfl rfl
    exact Inv.busy (kt.memory hum rfl) (kt.palette hupal) (kt.output huo) hphase (kt.noOutcome hur)
      (by rw [StageInv, hstage]; exact ⟨h1, h2, h3, h4, hclear⟩)
  · exact Inv.ended hum hupal huo (by simp)
  · have hfirst := first_inv hinv hlit
    exact Inv.busy ⟨hum.src, hum.table, hum.slots⟩
      ⟨hupal.gpalLength, hupal.apalLength, hupal.gctSize, hupal.apalLen, hupal.noTable, hupal.gpalUnmarked, hupal.oneMark⟩
      ⟨huo.tagLog, huo.frameCount, huo.frameSize, huo.capacity⟩ hup hur
      (by
        simp only [StageInv, hus]
        refine ⟨huc, huin, hucount, hue, ?_⟩
        rw [← hus]
        exact hfirst)
  · have hemit := emitRun_inv hinv hpc hrun hsym hcode
    have htable : CellsRising (emitRun run pc sym c u).table ∧ ∀ x ∈ (emitRun run pc sym c u).table, x.1 < 4096 :=
      memoryInv_addEntry (s := { u with idx := u.idx ++ run }) ⟨hum.src, hum.table, hum.slots⟩ hinv.codeSize.2 pc sym
    have hframe := emitRun_frame run pc sym c u
    generalize emitRun run pc sym c u = v at *
    have kt : KeepsBlock u v := by rw [hframe]; exact ⟨rfl, rfl, rfl, rfl, rfl, rfl, rfl, rfl, rfl, rfl, rfl, rfl, rfl, rfl, rfl,
        rfl, rfl, rfl⟩
    have hstage : v.stage = .lzw := by rw [hframe]; exact hus
    have h1 := kt.canvasSized huc (by rw [hframe]) (by rw [hframe])
    have h2 := kt.inImage huin (by rw [hframe]) (by rw [hframe]) (by rw [hframe])
    have h3 := kt.counted hucount (by rw [hframe])
    have h4 : EmptyAfter v.prevDisposal v := hue.congr (by rw [hframe]) (by rw [hframe])
    exact Inv.busy ⟨by rw [kt.src]; exact hum.src, htable.1, htable.2⟩ (kt.palette hupal) (kt.output huo)
      (by rw [kt.phase]; exact hup) (kt.noOutcome hur) (by rw [StageInv, hstage]; exact ⟨h1, h2, h3, h4, hemit⟩)

/-! ## The compositor stages (43_compositor R223) -/

theorem composeStep_inv {s : State} (h : Inv s) (hp : s.phase = .busy) (hs : s.stage = .compose) : Inv (composeStep s) := by
  have hst := h.running hp
  simp only [StageInv, hs] at hst
  obtain ⟨⟨hcv, -⟩, ⟨hcur, hend, hdata⟩, ⟨htags, hframes⟩, -⟩ := hst
  have hm := h.memory
  have hpal := h.palette
  have ho := h.output
  rcases composeStep_cases s with ⟨r, canvas, hr, -, heq⟩ | ⟨canvas, hlen, hfull, heq⟩ <;> rw [heq]
  · exact Inv.ended ⟨hm.src, hm.table, hm.slots⟩
      ⟨hpal.gpalLength, hpal.apalLength, hpal.gctSize, hpal.apalLen, hpal.noTable, hpal.gpalUnmarked, hpal.oneMark⟩
      ⟨ho.tagLog, ho.frameCount, ho.frameSize, ho.capacity⟩ hr
  · have hN : srcEnd s < 2 ^ 32 := s.srcLen.isLt
    have hfc := ho.frameCount
    have hsucc : (s.frameCount + 1).toNat = s.frameCount.toNat + 1 := by
      rw [BitVec.toNat_add, show (1 : Word).toNat = 1 from rfl, Nat.mod_eq_of_lt (by omega)]
    refine Inv.busy ⟨hm.src, hm.table, hm.slots⟩
      ⟨hpal.gpalLength, hpal.apalLength, hpal.gctSize, hpal.apalLen, hpal.noTable, hpal.gpalUnmarked, hpal.oneMark⟩
      ⟨ho.tagLog, ?_, ?_, ?_⟩ hp (h.noOutcome hp) ⟨⟨hlen.trans hcv, hcv⟩, ⟨hcur, hend, hdata⟩, ⟨htags, ?_⟩⟩
    · simp only [hsucc, List.length_append, List.length_singleton]; omega
    · intro f hf
      rcases List.mem_append.mp hf with hf | hf
      · exact ho.frameSize f hf
      · rw [List.mem_singleton.mp hf]; exact hlen.trans hcv
    · intro c hc
      have hc' : s.cfg.frameCapacity = some c := hc
      simp only [framesFull, hc', decide_eq_false_iff_not] at hfull
      simp only [List.length_append, List.length_singleton]; omega
    · simp only [List.length_append, List.length_singleton]; omega

/-- The disposal field selects a meaning, all of which leave everything but the canvas (R217 to R220). -/
theorem disposeStep_cases {s t : State} (hc : CanvasSized s) (ht : disposeStep s = .next t) :
    t = endDecode .reservedDisposal s ∨ ∃ canvas : List Pixel, canvas.length = canvasPixels s ∧
      (s.gceDisposal = 2#3 → ∀ px ∈ canvas, px = .transparent) ∧ t = { s with canvas := canvas, stage := .retire } := by
  simp only [disposeStep, runWord, decode_disposal3, decodeDisposal] at ht
  by_cases h0 : s.gceDisposal = 0#3
  · rw [if_pos h0] at ht; cases ht
    exact .inr ⟨s.canvas, hc.1, fun h2 => absurd (h0.symm.trans h2) (by decide), rfl⟩
  by_cases h1 : s.gceDisposal = 1#3
  · rw [if_neg h0, if_pos h1] at ht; cases ht
    exact .inr ⟨s.canvas, hc.1, fun h2 => absurd (h1.symm.trans h2) (by decide), rfl⟩
  by_cases h2 : s.gceDisposal = 2#3
  · rw [if_neg h0, if_neg h1, if_pos h2] at ht; cases ht
    exact .inr ⟨emptyCanvas s, List.length_replicate, fun _ px hpx => List.eq_of_mem_replicate hpx, rfl⟩
  by_cases h3 : s.gceDisposal = 3#3
  · rw [if_neg h0, if_neg h1, if_neg h2, if_pos h3] at ht; cases ht
    exact .inr ⟨s.snap, hc.2, fun h => absurd h h2, rfl⟩
  · rw [if_neg h0, if_neg h1, if_neg h2, if_neg h3] at ht
    simp only [exec, execDisposeReserved] at ht
    split at ht <;> cases ht
    · exact .inl rfl
    · exact .inr ⟨s.canvas, hc.1, fun h => absurd h h2, rfl⟩

theorem disposeStep_inv {s t : State} (h : Inv s) (hp : s.phase = .busy) (hs : s.stage = .dispose) (ht : disposeStep s = .next t) :
    Inv t := by
  have hst := h.running hp
  simp only [StageInv, hs] at hst
  obtain ⟨hc, hin, hcount⟩ := hst
  have hm := h.memory
  have hpal := h.palette
  have ho := h.output
  rcases disposeStep_cases hc ht with rfl | ⟨canvas, hlen, hempty, rfl⟩
  · exact Inv.ended hm hpal ho (by simp)
  · exact Inv.busy ⟨hm.src, hm.table, hm.slots⟩
      ⟨hpal.gpalLength, hpal.apalLength, hpal.gctSize, hpal.apalLen, hpal.noTable, hpal.gpalUnmarked, hpal.oneMark⟩
      ⟨ho.tagLog, ho.frameCount, ho.frameSize, ho.capacity⟩ hp (h.noOutcome hp) ⟨⟨hlen, hc.2⟩, hin, hcount, hempty⟩

theorem retireImage_inv {s : State} (h : Inv s) (hp : s.phase = .busy) (hs : s.stage = .retire) : Inv (retireImage s) := by
  have hst := h.running hp
  simp only [StageInv, hs] at hst
  obtain ⟨hc, ⟨h1, h2, -⟩, ⟨h3, h4⟩, he⟩ := hst
  have hm := h.memory
  have hpal := h.palette
  have ho := h.output
  exact Inv.busy ⟨hm.src, hm.table, hm.slots⟩
    ⟨hpal.gpalLength, hpal.apalLength, hpal.gctSize, hpal.apalLen, hpal.noTable, hpal.gpalUnmarked, hpal.oneMark⟩
    ⟨ho.tagLog, ho.frameCount, ho.frameSize, ho.capacity⟩ hp (h.noOutcome hp)
    ⟨hc, h2, ⟨by show s.tagCount.toNat ≤ s.blockEnd.toNat + 0; omega, by show s.frames.length ≤ s.blockEnd.toNat + 0; omega⟩, he⟩

/-! ## The host's moves (70_reset R270 to R275) -/

theorem reset_paletteInv : PaletteInv State.reset where
  gpalLength := List.length_replicate
  apalLength := List.length_replicate
  gctSize := Nat.zero_le _
  apalLen := Nat.zero_le _
  noTable := fun _ => ⟨rfl, rfl⟩
  gpalUnmarked := fun e he => by rw [List.eq_of_mem_replicate he]; rfl
  oneMark := by
    show ([] : List PalEntry).countP (·.t) ≤ 1
    exact Nat.zero_le _

/-- A state with no output yet, whatever its configuration. -/
theorem outputInv_of_empty {s : State} (h1 : s.frames = []) (h2 : s.frameCount = 0) (h3 : s.tagLog = []) (h4 : s.tagCount = 0) :
    OutputInv s where
  tagLog := by
    rw [h3, h4]
    cases s.cfg.tagLogCapacity with
    | none => rfl
    | some c => exact (Nat.zero_min c).symm
  frameCount := by rw [h1, h2]; rfl
  frameSize := by rw [h1]; intro f hf; cases hf
  capacity := by rw [h1]; intro c _; exact Nat.zero_le c

theorem startDecode_inv {s : State} (h : Inv s) : Inv (startDecode s) :=
  Inv.busy ⟨h.memory.src, List.Pairwise.nil, fun _ hc => (nomatch hc)⟩
    ⟨reset_paletteInv.gpalLength, reset_paletteInv.apalLength, reset_paletteInv.gctSize, reset_paletteInv.apalLen,
      reset_paletteInv.noTable, reset_paletteInv.gpalUnmarked, reset_paletteInv.oneMark⟩
    (outputInv_of_empty rfl rfl rfl rfl) rfl ⟨rfl, rfl⟩ (show startDecode (startDecode s) = startDecode s from rfl)

theorem hardReset_inv (s : State) : Inv (hardReset s) where
  memory := ⟨⟨List.Pairwise.nil, fun _ hc => (nomatch hc)⟩, List.Pairwise.nil, fun _ hc => (nomatch hc)⟩
  palette := ⟨reset_paletteInv.gpalLength, reset_paletteInv.apalLength, reset_paletteInv.gctSize, reset_paletteInv.apalLen,
      reset_paletteInv.noTable, reset_paletteInv.gpalUnmarked, reset_paletteInv.oneMark⟩
  outcome := ⟨⟨fun h => (nomatch h), fun h => absurd rfl h⟩, rfl, fun _ => rfl⟩
  output := outputInv_of_empty rfl rfl rfl rfl
  running := fun h => (nomatch h)

/-- At rest the host may rewrite `SRC` and `SRC_LEN`. -/
theorem Inv.withSource {s : State} (h : Inv s) (hp : s.phase ≠ .busy) {src : List Host.Cell} (hsrc : Memory.wf src) (n : Word) :
    Inv { s with src := src, srcLen := n } where
  memory := ⟨hsrc, h.memory.table, h.memory.slots⟩
  palette := ⟨h.palette.gpalLength, h.palette.apalLength, h.palette.gctSize, h.palette.apalLen, h.palette.noTable,
    h.palette.gpalUnmarked, h.palette.oneMark⟩
  outcome := ⟨h.outcome.outcome, h.outcome.faultPos, fun hi =>
    congrArg (fun u : State => { u with src := src, srcLen := n }) (h.outcome.idle hi)⟩
  output := ⟨h.output.tagLog, h.output.frameCount, h.output.frameSize, h.output.capacity⟩
  running := fun hb => absurd hb hp

theorem answerAtRest_inv {s t : State} (h : Inv s) {w : Word} (ht : answerAtRest w s = .next t) : Inv t := by
  by_cases hp : s.phase = .busy
  · rw [answerAtRest_busy hp] at ht; cases ht; exact h.withHost ..
  · rw [answerAtRest_rest hp] at ht; cases ht; exact h.withHost ..

theorem hostStep_inv {s t : State} (op : HostOp) (h : Inv s) (ht : hostStep op s = .next t) : Inv t := by
  cases op with
  | yield => cases ht; exact h
  | hardReset => cases ht; exact hardReset_inv s
  | writeReg off v =>
    simp only [hostStep, hostWriteReg] at ht
    split at ht
    · cases ht
      split
      · exact startDecode_inv h
      · exact h
    split at ht
    · cases ht
      split
      · exact h
      · exact h.withSource ‹_› h.memory.src v
    split at ht <;> cases ht
    exact h
  | readReg off =>
    simp only [hostStep, hostReadReg] at ht
    split at ht
    · cases ht; exact h.withHost ..
    split at ht
    · cases ht; exact h.withHost ..
    · exact answerAtRest_inv h ht
  | writeSrc a b =>
    simp only [hostStep, hostWriteSrc] at ht
    split at ht
    · cases ht
    split at ht <;> cases ht
    exact h.withSource ‹_› (memory_wf_insert b h.memory.src ‹_›) s.srcLen
  | readSrc a =>
    simp only [hostStep, hostReadSrc] at ht
    split at ht
    · exact answerAtRest_inv h ht
    · cases ht
  | readFrame k i => exact answerAtRest_inv h ht
  | readDelay k => exact answerAtRest_inv h ht
  | readTag j => exact answerAtRest_inv h ht

end Sys2Proof.Machine
end

