-- ==== Sys2Proof/Laws/Engine.lean ====
section
/-! SUPPORT. What a step of the engine never writes, and the measure that makes every decode end. -/

namespace Sys2Proof.Machine

theorem KeepsSource.trans {s t u : State} (h : KeepsSource s t) (h' : KeepsSource t u) : KeepsSource s u := by
  constructor
  · rw [h'.src, h.src]
  · rw [h'.srcLen, h.srcLen]
  · rw [h'.srcEpoch, h.srcEpoch]
  · rw [h'.cfg, h.cfg]
  · rw [h'.host, h.host]
  · rw [h'.busData, h.busData]
  · rw [h'.freeIdx, h.freeIdx]
  · rw [h'.sig, h.sig]
  · rw [h'.version, h.version]
  · rw [h'.canvasW, h.canvasW]
  · rw [h'.canvasH, h.canvasH]
  · rw [h'.hasGct, h.hasGct]
  · rw [h'.gctSize, h.gctSize]
  · rw [h'.bgIndex, h.bgIndex]
  · rw [h'.gpal, h.gpal]

/-- After the container phase the engine keeps `SRC`, the screen registers and the global palette (10_state R25-R27). -/
theorem engineStep_keepsSource {s t : State} (hc : s.stage ≠ .container) (h : engineStep s = .next t) : KeepsSource s t := by
  by_cases hp : s.phase = .busy
  · cases hs : s.stage with
    | container => exact absurd hs hc
    | walker =>
      rw [engineStep_walker hp hs] at h
      rcases walkerStep_cases h with ⟨-, rfl⟩ | ⟨-, i, -, hx⟩
      · constructor <;> rfl
      · exact KeepsSource.trans (by constructor <;> rfl) (exec_keepsSource hx)
    | extension => rw [engineStep_extension hp hs] at h; obtain ⟨i, -, hx⟩ := runWord_cases h; exact exec_keepsSource hx
    | lzwSetup =>
      rw [engineStep_lzwSetup hp hs] at h; cases h
      obtain ⟨c, e, z, m, n, hu⟩ := initLzw_frame s
      simp only [lzwSetup]
      split
      · constructor <;> rfl
      · rw [hu]; constructor <;> rfl
    | lzw =>
      rw [engineStep_lzw hp hs] at h
      have hf := readCode_frame s
      rcases lzwStep_fetch_cases h with rfl | ⟨c, i, -, -, hx⟩
      · generalize (readCode s).1 = u at *
        rw [hf]; constructor <;> rfl
      · refine KeepsSource.trans ?_ (exec_keepsSource hx)
        generalize (readCode s).1 = u at *
        rw [hf]; constructor <;> rfl
    | compose =>
      rw [engineStep_compose hp hs] at h; cases h
      rcases composeStep_cases s with ⟨r, canvas, hr, -, heq⟩ | ⟨canvas, hlen, hfull, heq⟩ <;> rw [heq] <;> constructor <;> rfl
    | dispose => rw [engineStep_dispose hp hs] at h; obtain ⟨i, -, hx⟩ := runWord_cases h; exact exec_keepsSource hx
    | retire => rw [engineStep_retire hp hs] at h; cases h; constructor <;> rfl
  · rw [engineStep_rest hp] at h; cases h; constructor <;> rfl

/-- What belongs to the host: no step of the engine writes it (20_memory R60, 10_state R20, R25). -/
structure KeepsHost (s t : State) : Prop where
  src : t.src = s.src
  srcLen : t.srcLen = s.srcLen
  cfg : t.cfg = s.cfg
  host : t.host = s.host
  busData : t.busData = s.busData
  freeIdx : t.freeIdx = s.freeIdx
  srcEpoch : t.srcEpoch = s.srcEpoch

theorem containerPhase_keepsHost (s : State) : KeepsHost s (containerPhase s) := by
  unfold containerPhase containerTail
  repeat' split
  all_goals constructor <;> rfl

theorem KeepsSource.keepsHost {s t : State} (h : KeepsSource s t) : KeepsHost s t :=
  ⟨h.src, h.srcLen, h.cfg, h.host, h.busData, h.freeIdx, h.srcEpoch⟩

theorem engineStep_keepsHost {s t : State} (h : engineStep s = .next t) : KeepsHost s t := by
  by_cases hc : s.stage = .container
  · by_cases hp : s.phase = .busy
    · rw [engineStep_container hp hc] at h; cases h; exact containerPhase_keepsHost s
    · rw [engineStep_rest hp] at h; cases h; constructor <;> rfl
  · exact (engineStep_keepsSource hc h).keepsHost

/-! ## Every decode ends -/

/-- What is left to do inside the current block. -/
def blockWork (s : State) : Nat :=
  match s.stage with
  | .container => 0
  | .walker => 8 * srcEnd s + 39
  | .extension => 1
  | .lzwSetup => 8 * srcEnd s + 30
  | .lzw => pendingBits s.data (readerOf s) + 4
  | .compose => 3
  | .dispose => 2
  | .retire => 1
/-- What is left to do of the decode: the bytes from `CUR` to N, each worth more than a whole block. -/
def workLeft (s : State) : Nat :=
  (match s.stage with | .container => srcEnd s + 1 | _ => srcEnd s - s.cur.toNat) * (8 * srcEnd s + 40) + blockWork s

theorem workLeft_same {s t : State} (h1 : s.stage ≠ .container) (h2 : t.stage ≠ .container) (hc : t.cur = s.cur) (hl : t.srcLen = s.srcLen) (hr : blockWork t < blockWork s) : workLeft t < workLeft s := by
  have he : srcEnd t = srcEnd s := by simp [srcEnd, hl]
  unfold workLeft
  cases hs : s.stage <;> cases ht : t.stage <;> simp_all

theorem workLeft_forward {s t : State} (ht : t.stage = .walker) (hl : t.srcLen = s.srcLen) (hlt : s.stage = .container ∨ s.cur.toNat < t.cur.toNat) (hle : t.cur.toNat ≤ srcEnd s) : workLeft t < workLeft s := by
  have he : srcEnd t = srcEnd s := by simp [srcEnd, hl]
  have hr : blockWork t = 8 * srcEnd s + 39 := by simp [blockWork, ht, he]
  simp only [workLeft, ht, hr, he]
  have key : ∀ a b : Nat, b + 1 ≤ a → b * (8 * srcEnd s + 40) + (8 * srcEnd s + 39) < a * (8 * srcEnd s + 40) + blockWork s := by
    intro a b hab
    have := Nat.mul_le_mul_right (8 * srcEnd s + 40) hab
    rw [Nat.add_mul] at this
    omega
  cases hs : s.stage <;> apply key <;> simp_all <;> omega

/-- A step of a running engine ends the decode or leaves less to do. -/
theorem engineStep_decreases {s t : State} (hinv : Inv s) (hp : s.phase = .busy) (h : engineStep s = .next t) : t.phase = .done ∨ (t.phase = .busy ∧ workLeft t < workLeft s) := by
  have hN : srcEnd s < 2 ^ 32 := s.srcLen.isLt
  have hst := hinv.running hp
  have hlen : t.srcLen = s.srcLen := (engineStep_keepsHost h).srcLen
  cases hs : s.stage with
  | container =>
    rw [engineStep_container hp hs] at h; cases h
    have hg : (readScreen (readSignature s)).gctSize.toNat ≤ 256 := packedTableSize_le _
    have key : (containerPhase s).phase = .done ∨ ((containerPhase s).phase = .busy ∧ (containerPhase s).stage = .walker ∧
        (containerPhase s).cur.toNat ≤ srcEnd s) := by
      unfold containerPhase containerTail
      split
      · exact .inl rfl
      split
      · exact .inl rfl
      split
      · exact .inl rfl
      split
      · exact .inl rfl
      · rename_i hend _
        have hend' : 13 + 3 * (readScreen (readSignature s)).gctSize.toNat ≤ srcEnd s := Nat.not_lt.mp hend
        refine .inr ⟨hp, rfl, ?_⟩
        show (BitVec.ofNat 32 (13 + 3 * (readScreen (readSignature s)).gctSize.toNat)).toNat ≤ srcEnd s
        rw [BitVec.toNat_ofNat]; omega
    rcases key with k | ⟨k1, k2, k3⟩
    · exact .inl k
    · exact .inr ⟨k1, workLeft_forward k2 hlen (.inl hs) k3⟩
  | walker =>
    rw [engineStep_walker hp hs] at h
    rcases walkerStep_cases h with ⟨-, rfl⟩ | ⟨hlt, i, hd, hx⟩
    · exact .inl rfl
    · rw [decode_tag8] at hd; cases hd
      rcases decodeTag_cases (srcByte s s.cur.toNat) with ⟨-, hd⟩ | ⟨-, hd⟩ | ⟨-, hd⟩ | hd <;> rw [hd] at hx
      · have hm := imagePalette_frame s.cur.toNat (s.cur.toNat + 10) (logTag (srcByte s s.cur.toNat) s)
        rcases execImage_cases hx with rfl | rfl | ⟨b, rfl⟩ | ⟨b, r, q, hq, hcol, rfl⟩
        · exact .inl rfl
        · exact .inl rfl
        · exact .inl rfl
        · rw [show (logTag (srcByte s s.cur.toNat) s).cur = s.cur from rfl] at *
          generalize markTransparent (selectPalette (s.cur.toNat + 10) (readDescriptor s.cur.toNat (logTag (srcByte s s.cur.toNat) s))) = m at *
          refine .inr ⟨by rw [hm]; exact hp, workLeft_same (by rw [hs]; simp) (by simp) (by rw [hm]; rfl) hlen ?_⟩
          simp [blockWork, hs, srcEnd] at hlen ⊢; rw [hlen]; omega
      · rcases execExtension_cases hx with rfl | ⟨hq, rfl⟩
        · exact .inl rfl
        · refine .inr ⟨hp, workLeft_same (by rw [hs]; simp) (by simp) rfl hlen ?_⟩
          simp [blockWork, hs]
      · cases hx; exact .inl rfl
      · cases hx; exact .inl rfl
  | extension =>
    rw [engineStep_extension hp hs] at h
    simp only [StageInv, hs] at hst
    obtain ⟨hc, hle, h21, hcount, he⟩ := hst
    rw [extensionStep_eq h21] at h
    have key : t.phase = .done ∨ ∃ q u, u.phase = .busy ∧ s.cur.toNat < q ∧ q ≤ srcEnd s ∧ t = toNextBlock q u := by
      rcases decodeLabel_cases (srcByte s (s.cur.toNat + 1)) with hd | hd | hd | hd | hd <;> rw [hd] at h
      · rcases execGce_cases h with rfl | ⟨h8, heq⟩
        · exact .inl rfl
        · refine .inr ⟨_, _, ?_, ?_, h8, heq⟩
          · exact hp
          · omega
      · rcases execApp_cases h with rfl | ⟨r, hcol, heq⟩
        · exact .inl rfl
        · obtain ⟨h1, h2, -⟩ := collectSubBlocks_bounds hcol
          exact .inr ⟨_, _, hp, by omega, h2, heq⟩
      · rcases execComment_cases h with rfl | ⟨r, hcol, heq⟩
        · exact .inl rfl
        · obtain ⟨h1, h2, -⟩ := collectSubBlocks_bounds hcol
          exact .inr ⟨_, _, hp, by omega, h2, heq⟩
      · cases h; exact .inl rfl
      · cases h; exact .inl rfl
    rcases key with k | ⟨q, u, k1, k2, k3, rfl⟩
    · exact .inl k
    · have hq : (BitVec.ofNat 32 q).toNat = q := by rw [BitVec.toNat_ofNat, Nat.mod_eq_of_lt (by omega)]
      refine .inr ⟨k1, workLeft_forward rfl hlen (.inr ?_) ?_⟩
      · show _ < (BitVec.ofNat 32 q).toNat; omega
      · show (BitVec.ofNat 32 q).toNat ≤ _; omega
  | lzwSetup =>
    rw [engineStep_lzwSetup hp hs] at h; cases h
    simp only [StageInv, hs] at hst
    obtain ⟨-, ⟨h1, h2, h3⟩, -⟩ := hst
    obtain ⟨c, e, z, m, n, hu⟩ := initLzw_frame s
    simp only [lzwSetup]
    split
    · exact .inl rfl
    · rw [hu]
      refine .inr ⟨hp, workLeft_same (by rw [hs]; simp) (by simp) rfl rfl ?_⟩
      simp [blockWork, hs, pendingBits, readerOf]; omega
  | lzw =>
    rw [engineStep_lzw hp hs] at h
    simp only [StageInv, hs] at hst
    obtain ⟨-, hin, -, -, hl⟩ := hst
    have hd : s.data.length < 2 ^ 32 := Nat.lt_of_le_of_lt hin.2.2 s.srcLen.isLt
    obtain ⟨u, hui, hu, hc⟩ := lzwStep_cases hl hd
    have hud : u.data = s.data := by rw [hu]
    have huc : u.cur = s.cur := by rw [hu]
    have hul : u.srcLen = s.srcLen := by rw [hu]
    have hup : u.phase = .busy := by rw [hu]; exact hp
    have hus : u.stage = .lzw := by rw [hu]; exact hs
    have hend : workLeft (endLzw u) < workLeft s :=
        workLeft_same (by rw [hs]; simp) (by simp) (by rw [← huc]; rfl) (by rw [← hul]; rfl) (by simp [blockWork, hs])
    have hsz := hl.codeSize.1
    have hkeep : ∀ v : State, v.stage = .lzw → v.cur = u.cur → v.srcLen = u.srcLen → v.data = u.data → readerOf v = readerOf u → 
       pendingBits s.data (readerOf u) + s.codeSize.toNat = pendingBits s.data (readerOf s) → workLeft v < workLeft s := by
      intro v h1 h2 h3 h4 h5 h6
      refine workLeft_same (by rw [hs]; simp) (by rw [h1]; simp) (by rw [h2, huc]) (by rw [h3, hul]) ?_
      simp only [blockWork, hs, h1, h5, h4, hud]; omega
    rcases hc with h1 | ⟨hb, h1 | h1 | h1 | ⟨c, hlit, h1⟩ | ⟨run, pc, c, sym, hpc, hrun, hsym, hcode,
        h1⟩⟩ <;> rw [h1] at h <;> cases h
    · exact .inr ⟨hup, hend⟩
    · exact .inr ⟨hup, hend⟩
    · exact .inr ⟨hup, hkeep _ hus rfl rfl rfl rfl hb⟩
    · exact .inl rfl
    · exact .inr ⟨hup, hkeep _ hus rfl rfl rfl rfl hb⟩
    · rw [emitRun_frame]; exact .inr ⟨hup, hkeep _ hus rfl rfl rfl rfl hb⟩
  | compose =>
    rw [engineStep_compose hp hs] at h; cases h
    rcases composeStep_cases s with ⟨r, canvas, hr, -, heq⟩ | ⟨canvas, hlen, hfull, heq⟩ <;> rw [heq]
    · exact .inl rfl
    · exact .inr ⟨hp, workLeft_same (by rw [hs]; simp) (by simp) rfl rfl (by simp [blockWork, hs])⟩
  | dispose =>
    rw [engineStep_dispose hp hs] at h
    simp only [StageInv, hs] at hst
    rcases disposeStep_cases hst.1 h with rfl | ⟨canvas, -, -, rfl⟩
    · exact .inl rfl
    · exact .inr ⟨hp, workLeft_same (by rw [hs]; simp) (by simp) rfl rfl (by simp [blockWork, hs])⟩
  | retire =>
    rw [engineStep_retire hp hs] at h; cases h
    simp only [StageInv, hs] at hst
    exact .inr ⟨hp, workLeft_forward rfl rfl (.inr hst.2.1.1) hst.2.1.2.1⟩

end Sys2Proof.Machine
end

