-- ==== Sys2Proof/Laws/Launch.lean ====
section
/-! SUPPORT. A step of the engine depends on `SRC` only through the bytes below N (20_memory R61). -/

namespace Sys2Proof.Machine

/-- What two machines with the same launch may differ in. -/
structure Other where
  src : List Host.Cell
  epoch : Nat
  bus : Word
  free : Nat

/-- A state with that part exchanged. -/
def reload (o : Other) (s : State) : State := { s with src := o.src, srcEpoch := o.epoch, busData := o.bus, freeIdx := o.free }
/-- The exchanged memory holds the same bytes below N. -/
def Agrees (o : Other) (s : State) : Prop := ∀ p, p < srcEnd s → srcByte (reload o s) p = srcByte s p
/-- The outcome with a next state mapped. -/
def mapNext (f : State → State) : Host.Outcome State Fault Refusal → Host.Outcome State Fault Refusal
  | .next s => .next (f s)
  | .fault r => .fault r
  | .refused r => .refused r

variable {o : Other} {s : State}
theorem srcByte_reload (t : State) (p : Nat) : srcByte (reload o t) p = srcByte (reload o s) p := rfl
theorem u16_reload (h : Agrees o s) {p : Nat} (hp : p + 1 < srcEnd s) : srcU16 (reload o s) p = srcU16 s p := by
  simp only [srcU16, h p (by omega), h (p+1) hp]
theorem bytes_reload (h : Agrees o s) {p n : Nat} (hp : p + n ≤ srcEnd s) : srcBytes (reload o s) p n = srcBytes s p n := by
  induction n generalizing p with
  | zero => rfl
  | succ n ih => simp only [srcBytes]; rw [h p (by omega), ih (by omega)]
theorem table_reload (h : Agrees o s) {p n : Nat} (hp : p + 3 * n ≤ srcEnd s) : readColorTable (reload o s) p n = readColorTable s p n := by
  induction n generalizing p with
  | zero => rfl
  | succ n ih => simp only [readColorTable]; rw [h p (by omega), h (p+1) (by omega), h (p+2) (by omega), ih (by omega)]
theorem loop_reload (h : Agrees o s) (fuel q : Nat) (acc : List Byte) (first : Bool) :
   collectLoop (reload o s) fuel q acc first = collectLoop s fuel q acc first := by
  induction fuel generalizing q acc first with
  | zero => rfl
  | succ n ih =>
    simp only [collectLoop]
    have he : srcEnd (reload o s) = srcEnd s := rfl
    rw [he]
    by_cases hq : srcEnd s ≤ q
    · rw [if_pos hq, if_pos hq]
    rw [if_neg hq, if_neg hq, h q (by omega)]
    by_cases h0 : (srcByte s q).toNat = 0
    · rw [if_pos h0, if_pos h0]
    rw [if_neg h0, if_neg h0]
    by_cases hl : srcEnd s < q + 1 + (srcByte s q).toNat
    · rw [if_pos hl, if_pos hl]
    rw [if_neg hl, if_neg hl, ih, bytes_reload h (by omega)]
theorem collect_reload (h : Agrees o s) (q : Nat) : collectSubBlocks (reload o s) q = collectSubBlocks s q := loop_reload h _ _ _ _

theorem agrees_congr {t : State} (h : Agrees o s) (h1 : t.src = s.src) (h2 : t.srcEpoch = s.srcEpoch) (h3 : t.srcLen = s.srcLen) : Agrees o t := by
  intro p hp
  rw [srcByte_congr h1 h2, ← h p (by rw [srcEnd, h3] at hp; exact hp)]; rfl

theorem container_reload (h : Agrees o s) : containerPhase (reload o s) = reload o (containerPhase s) := by
  have he : srcEnd (reload o s) = srcEnd s := rfl
  by_cases h3 : 3 ≤ srcEnd s
  swap
  · have f1 : signatureOk s = false := by simp [signatureOk, h3]
    have f2 : signatureOk (reload o s) = false := by simp [signatureOk, he, h3]
    simp only [containerPhase, f1, f2]; rfl
  have hsig : signatureOk (reload o s) = signatureOk s := by
    simp only [signatureOk, he, h 0 (by omega), h 1 (by omega), h 2 (by omega)]
  have hrs : readSignature (reload o s) = reload o (readSignature s) := by
    simp only [readSignature, h 0 (by omega), h 1 (by omega), h 2 (by omega)]; rfl
  simp only [containerPhase, hsig, he, hrs]
  split
  · rfl
  split
  · rfl
  rename_i hn
  have ha : Agrees o (readSignature s) := agrees_congr h rfl rfl rfl
  have he2 : srcEnd (readSignature s) = srcEnd s := rfl
  have hsc : readScreen (reload o (readSignature s)) = reload o (readScreen (readSignature s)) := by
    simp only [readScreen, ha 3 (by omega), ha 4 (by omega), ha 5 (by omega), ha 10 (by omega), ha 11 (by omega),
        u16_reload ha (p := 6) (by omega), u16_reload ha (p := 8) (by omega)]; rfl
  rw [hsc]
  have hb : Agrees o (readScreen (readSignature s)) := agrees_congr h rfl rfl rfl
  generalize readScreen (readSignature s) = u at *
  simp only [containerTail]
  by_cases hl : srcEnd u < 13 + 3 * u.gctSize.toNat
  · rw [if_pos hl, if_pos (show srcEnd (reload o u) < 13 + 3 * (reload o u).gctSize.toNat from hl)]; rfl
  rw [if_neg hl, if_neg (show ¬ srcEnd (reload o u) < 13 + 3 * (reload o u).gctSize.toNat from hl)]
  have hg : readGlobalTable (reload o u) = reload o (readGlobalTable u) := by
    simp only [readGlobalTable, show (reload o u).gctSize = u.gctSize from rfl, table_reload hb (p := 13) (n :=
        u.gctSize.toNat) (by omega)]; rfl
  rw [hg]
  by_cases hm : u.cfg.maxCanvasPixels < canvasPixels u
  · rw [if_pos hm, if_pos (show (reload o u).cfg.maxCanvasPixels < canvasPixels (reload o u) from hm)]; rfl
  · rw [if_neg hm, if_neg (show ¬ (reload o u).cfg.maxCanvasPixels < canvasPixels (reload o u) from hm)]; rfl

theorem image_reload (h : Agrees o s) : execImage (reload o s) = mapNext (reload o) (execImage s) := by
  have he : srcEnd (reload o s) = srcEnd s := rfl
  have hcur : (reload o s).cur = s.cur := rfl
  simp only [execImage, he, hcur]
  by_cases h10 : srcEnd s < s.cur.toNat + 10
  · rw [if_pos h10, if_pos h10]; rfl
  rw [if_neg h10, if_neg h10]
  have hd : readDescriptor s.cur.toNat (reload o s) = reload o (readDescriptor s.cur.toNat s) := by
    simp only [readDescriptor, u16_reload h (p := s.cur.toNat + 1) (by omega), u16_reload h (p := s.cur.toNat + 3) (by omega),
        u16_reload h (p := s.cur.toNat + 5) (by omega),
      u16_reload h (p := s.cur.toNat + 7) (by omega), h (s.cur.toNat + 9) (by omega)]; rfl
  rw [hd]
  have ha : Agrees o (readDescriptor s.cur.toNat s) := agrees_congr h rfl rfl rfl
  generalize s.cur.toNat = p at *
  generalize readDescriptor p s = u at *
  simp only [imagePalette]
  by_cases hl : u.imgLct = true ∧ srcEnd u < p + 10 + 3 * u.imgLctSize.toNat
  · rw [if_pos hl, if_pos (show (reload o u).imgLct = true ∧
      srcEnd (reload o u) < p + 10 + 3 * (reload o u).imgLctSize.toNat from hl)]; rfl
  rw [if_neg hl, if_neg (show ¬ ((reload o u).imgLct = true ∧
      srcEnd (reload o u) < p + 10 + 3 * (reload o u).imgLctSize.toNat) from hl)]
  have hp : selectPalette (p + 10) (reload o u) = reload o (selectPalette (p + 10) u) := by
    simp only [selectPalette, show (reload o u).imgLct = u.imgLct from rfl]
    by_cases hlc : u.imgLct = true
    · rw [if_pos hlc, if_pos hlc]
      simp only [show (reload o u).imgLctSize = u.imgLctSize from rfl, table_reload ha (p := p + 10) (n :=
          u.imgLctSize.toNat) (by have := (not_and.mp hl) hlc; omega)]; rfl
    · rw [if_neg hlc, if_neg hlc]; rfl
  rw [hp]
  have hb : Agrees o (selectPalette (p + 10) u) := by apply agrees_congr ha <;> simp
  have hle : (reload o u).imgLctSize = u.imgLctSize := rfl
  rw [hle]
  generalize p + 10 + 3 * u.imgLctSize.toNat = q at *
  generalize selectPalette (p + 10) u = v at *
  have hm : markTransparent (reload o v) = reload o (markTransparent v) := rfl
  rw [hm]
  have hc : Agrees o (markTransparent v) := agrees_congr hb rfl rfl rfl
  generalize markTransparent v = w at *
  simp only [imageData]
  by_cases hq : srcEnd w ≤ q
  · rw [if_pos hq, if_pos (show srcEnd (reload o w) ≤ q from hq)]; rfl
  rw [if_neg hq, if_neg (show ¬ srcEnd (reload o w) ≤ q from hq)]
  rw [hc q (by omega)]
  have hdd : Agrees o { w with minCodeSize := srcByte w q } := agrees_congr hc rfl rfl rfl
  have hcol := collect_reload hdd (q + 1)
  have hrr : reload o { w with minCodeSize := srcByte w q } = { reload o w with minCodeSize := srcByte w q } := rfl
  rw [hrr] at hcol
  simp only [hcol]
  cases collectSubBlocks { w with minCodeSize := srcByte w q } (q + 1) <;> rfl

theorem string_reload (c : Code) : stringOf (reload o s) c = stringOf s c := rfl
theorem widthGrowth_reload (s : State) : widthGrowth (reload o s) = reload o (widthGrowth s) := by
  simp only [widthGrowth]
  by_cases h : s.nextCode.toNat = 2 ^ s.codeSize.toNat ∧ s.nextCode.toNat ≤ 4095
  · rw [if_pos h, if_pos (show (reload o s).nextCode.toNat = 2 ^ (reload o s).codeSize.toNat ∧
      (reload o s).nextCode.toNat ≤ 4095 from h)]; rfl
  · rw [if_neg h, if_neg (show ¬ ((reload o s).nextCode.toNat = 2 ^ (reload o s).codeSize.toNat ∧
      (reload o s).nextCode.toNat ≤ 4095) from h)]
theorem addEntry_reload (pc : Code) (k : Sym) (s : State) : addEntry pc k (reload o s) = reload o (addEntry pc k s) := by
  simp only [addEntry]
  by_cases h : s.nextCode.toNat < 4096
  · rw [if_pos h, if_pos (show (reload o s).nextCode.toNat < 4096 from h), ← widthGrowth_reload]; rfl
  · rw [if_neg h, if_neg (show ¬ (reload o s).nextCode.toNat < 4096 from h)]
theorem emit_reload (run : List Sym) (pc : Code) (k : Sym) (c : Code) (s : State) : emitRun run pc k c (reload o s) = reload o (emitRun run pc k c s) := by
  simp only [emitRun]
  have := addEntry_reload (o := o) pc k { s with idx := s.idx ++ run }
  rw [show ({ reload o s with idx := (reload o s).idx ++ run } : State) = reload o { s with idx := s.idx ++ run } from rfl,
      this]; rfl

theorem exec_reload (h : Agrees o s) (i : Instr) : exec i (reload o s) = mapNext (reload o) (exec i s) := by
  have he : srcEnd (reload o s) = srcEnd s := rfl
  have hcur : (reload o s).cur = s.cur := rfl
  cases i with
  | image => exact image_reload h
  | extension =>
    simp only [exec, execExtension, he, hcur]
    by_cases h1 : srcEnd s ≤ s.cur.toNat + 1
    · rw [if_pos h1, if_pos h1]; rfl
    · rw [if_neg h1, if_neg h1, h _ (by omega)]; rfl
  | trailer => rfl
  | tagUnknown _ => rfl
  | gce =>
    simp only [exec, execGce, he, hcur]
    by_cases h1 : srcEnd s < s.cur.toNat + 8
    · rw [if_pos h1, if_pos h1]; rfl
    · rw [if_neg h1, if_neg h1]
      simp only [h (s.cur.toNat + 3) (by omega), h (s.cur.toNat + 6) (by omega), u16_reload h (p :=
          s.cur.toNat + 4) (by omega)]; rfl
  | app =>
    simp only [exec, execApp, he, hcur]
    by_cases h1 : srcEnd s < s.cur.toNat + 14
    · rw [if_pos h1, if_pos h1]; rfl
    · rw [if_neg h1, if_neg h1, collect_reload h]
      cases collectSubBlocks s (s.cur.toNat + 14) <;> rfl
  | comment =>
    simp only [exec, execComment, hcur, collect_reload h]
    cases collectSubBlocks s (s.cur.toNat + 2) with
    | none => rfl
    | some r => simp only []; split <;> rfl
  | plainText => rfl
  | extUnknown _ => rfl
  | invalid _ => rfl
  | eoi => rfl
  | clear => rfl
  | first _ => rfl
  | firstNonliteral _ => rfl
  | literal c =>
    simp only [exec, execLiteral, show (reload o s).prevCode = s.prevCode from rfl]
    cases s.prevCode with
    | none => rfl
    | some pc => simp only [emit_reload]; rfl
  | table c =>
    simp only [exec, execTable, show (reload o s).prevCode = s.prevCode from rfl, string_reload]
    cases s.prevCode with
    | none => rfl
    | some pc =>
      simp only []
      cases stringOf s c with
      | none => rfl
      | some r => cases r <;> simp only [emit_reload] <;> rfl
  | kwkwk c =>
    simp only [exec, execKwkwk, show (reload o s).prevCode = s.prevCode from rfl, string_reload]
    cases s.prevCode with
    | none => rfl
    | some pc =>
      simp only []
      cases stringOf s pc with
      | none => rfl
      | some r => cases r <;> simp only [emit_reload] <;> rfl
  | disposeNone => rfl
  | disposeKeep => rfl
  | disposeBackground => rfl
  | disposePrevious => rfl
  | disposeReserved v =>
    simp only [exec, execDisposeReserved, show (reload o s).cfg = s.cfg from rfl]
    cases s.cfg.reservedDisposal <;> rfl

theorem readCode_reload : readCode (reload o s) = (reload o (readCode s).1, (readCode s).2) := by
  simp only [readCode, show (reload o s).data = s.data from rfl, show (reload o s).codeSize = s.codeSize from rfl,
      show (reload o s).bitBuf = s.bitBuf from rfl, show (reload o s).bitCnt = s.bitCnt from rfl,
          show (reload o s).rdPtr = s.rdPtr from rfl]
  generalize refill s.data s.codeSize.toNat s.codeSize.toNat ⟨s.bitBuf, s.bitCnt, s.rdPtr⟩ = r
  cases r.2 <;> rfl

theorem compose_reload : composeStep (reload o s) = reload o (composeStep s) := by
  have hp : paintRect { reload o s with snap := (reload o s).canvas } = paintRect { s with snap := s.canvas } :=
    paint_congr (s := { s with snap := s.canvas }) (t := { reload o s with snap := (reload o s).canvas }) ⟨rfl, rfl, rfl, rfl,
        rfl, rfl, rfl, rfl, rfl⟩ _ _ _
  simp only [composeStep, composePixels, hp]
  have hr : rectOutside { reload o s with snap := (reload o s).canvas } = rectOutside { s with snap := s.canvas } := rfl
  rw [hr]
  cases rectOutside { s with snap := s.canvas } with
  | true => rfl
  | false =>
    simp only [Bool.false_eq_true, if_false]
    cases (paintRect { s with snap := s.canvas }).2 with
    | false => rfl
    | true =>
      simp only [if_true, emitFrame]
      generalize paintRect { s with snap := s.canvas } = pr
      have hf : framesFull { { reload o s with snap := (reload o s).canvas } with canvas :=
          pr.1 } = framesFull { { s with snap := s.canvas } with canvas := pr.1 } := rfl
      have hf' := hf
      cases hq : framesFull { { s with snap := s.canvas } with canvas := pr.1 } <;> rw [hq] at hf <;> simp only [hf] <;> rfl

theorem setup_reload : lzwSetup (reload o s) = reload o (lzwSetup s) := by
  simp only [lzwSetup, show (reload o s).minCodeSize = s.minCodeSize from rfl]
  split
  · rfl
  · simp only [initLzw, resetCodes, setCodeSize]; rfl

theorem runWord_reload (h : Agrees o s) (f : Format) (w : Nat) : runWord f w (reload o s) = mapNext (reload o) (runWord f w s) := by
  simp only [runWord]
  cases decode f w with
  | error e => rfl
  | ok i => exact exec_reload h i

/-- The engine reads `SRC` below N only (20_memory R61), so it cannot tell the two machines apart. -/
theorem engineStep_reload (h : Agrees o s) (hext : s.phase = .busy → s.stage = .extension → s.cur.toNat + 2 ≤ srcEnd s) :
    engineStep (reload o s) = mapNext (reload o) (engineStep s) := by
  by_cases hp : s.phase = .busy
  · have hp' : (reload o s).phase = .busy := hp
    cases hs : s.stage with
    | container => rw [engineStep_container hp hs, engineStep_container hp' hs, container_reload h]; rfl
    | walker =>
      rw [engineStep_walker hp hs, engineStep_walker hp' hs]
      simp only [walkerStep, show srcEnd (reload o s) = srcEnd s from rfl, show (reload o s).cur = s.cur from rfl]
      by_cases h1 : srcEnd s ≤ s.cur.toNat
      · rw [if_pos h1, if_pos h1]; rfl
      · rw [if_neg h1, if_neg h1, h _ (by omega)]
        exact runWord_reload (s := logTag (srcByte s s.cur.toNat) s) (agrees_congr h rfl rfl rfl) _ _
    | extension =>
      have := hext hp hs
      rw [engineStep_extension hp hs, engineStep_extension hp' hs]
      simp only [extensionStep, extWord, show (reload o s).cur = s.cur from rfl]
      rw [h _ (by omega), h _ (by omega)]
      exact runWord_reload h _ _
    | lzwSetup => rw [engineStep_lzwSetup hp hs, engineStep_lzwSetup hp' hs, setup_reload]; rfl
    | lzw =>
      rw [engineStep_lzw hp hs, engineStep_lzw hp' hs]
      simp only [lzwStep, readCode_reload]
      have hf := readCode_frame s
      generalize readCode s = r at *
      obtain ⟨u, oc⟩ := r
      simp only at hf
      have hu : Agrees o u := by rw [hf]; exact agrees_congr h rfl rfl rfl
      cases oc with
      | none => rfl
      | some c => exact runWord_reload hu _ _
    | compose => rw [engineStep_compose hp hs, engineStep_compose hp' hs, compose_reload]; rfl
    | dispose => rw [engineStep_dispose hp hs, engineStep_dispose hp' hs]; exact runWord_reload h _ _
    | retire => rw [engineStep_retire hp hs, engineStep_retire hp' hs]; rfl
  · rw [engineStep_rest hp, engineStep_rest (s := reload o s) hp]; rfl

end Sys2Proof.Machine
end

