-- ==== Sys2Proof/Laws/PerInstr.lean ====
section
/-! SUPPORT. The family EncodeWidth: what every instruction's encoding satisfies, one lemma a constructor. -/

namespace Sys2Proof.Laws.EncodeWidth

/-- In a context an image block reaches, the word of a well-formed instruction of the context's class has no bit above its format's
width (30_encoding R103). -/
def Statement (i : Instr) : Prop :=
  ∀ k : LzwCtx, k.wf = true → i.wf = true → i.inClass k = true → encode k i < 2 ^ (i.format k).bits

/-- A literal code or one of the two special codes fits the width. -/
theorem small_lt {k : LzwCtx} (h : k.wf = true) {c : Nat} (hc : c ≤ k.clear + 1) : c < 2 ^ k.size := by
  simp only [LzwCtx.wf, Bool.and_eq_true, decide_eq_true_eq] at h
  omega

theorem image : Statement .image := by intro k _ _ _; simp [encode, Instr.format, Format.bits]
theorem extension : Statement .extension := by intro k _ _ _; simp [encode, Instr.format, Format.bits]
theorem trailer : Statement .trailer := by intro k _ _ _; simp [encode, Instr.format, Format.bits]
theorem tagUnknown (t : Byte) : Statement (.tagUnknown t) := fun _ _ _ _ => t.isLt
theorem gce : Statement .gce := by intro k _ _ _; simp [encode, Instr.format, Format.bits]
theorem app : Statement .app := by intro k _ _ _; simp [encode, Instr.format, Format.bits]
theorem comment : Statement .comment := by intro k _ _ _; simp [encode, Instr.format, Format.bits]
theorem plainText : Statement .plainText := by intro k _ _ _; simp [encode, Instr.format, Format.bits]
theorem extUnknown (l : Byte) : Statement (.extUnknown l) := by
  intro k _ _ _
  have := l.isLt
  simp only [encode, Instr.format, Format.bits]
  omega
theorem invalid (c : Code) : Statement (.invalid c) := by
  intro k _ _ hc
  simp only [Instr.inClass, Bool.and_eq_true, decide_eq_true_eq] at hc
  exact hc.2
theorem eoi : Statement .eoi := by
  intro k hk _ _
  refine small_lt hk ?_
  simp only [LzwCtx.wf, Bool.and_eq_true, decide_eq_true_eq] at hk
  simp only [encode]
  omega
theorem clear : Statement .clear := fun _ hk _ _ => small_lt hk (Nat.le_succ _)
theorem first (c : Code) : Statement (.first c) := by
  intro k hk _ hc
  simp only [Instr.inClass, Bool.and_eq_true, decide_eq_true_eq] at hc
  exact small_lt hk (Nat.le_succ_of_le (Nat.le_of_lt hc.2))
theorem firstNonliteral (c : Code) : Statement (.firstNonliteral c) := by
  intro k _ _ hc
  simp only [Instr.inClass, Bool.and_eq_true, decide_eq_true_eq] at hc
  exact hc.2
theorem literal (c : Code) : Statement (.literal c) := by
  intro k hk _ hc
  simp only [Instr.inClass, Bool.and_eq_true, decide_eq_true_eq] at hc
  exact small_lt hk (Nat.le_succ_of_le (Nat.le_of_lt hc.2))
theorem table (c : Code) : Statement (.table c) := by
  intro k hk _ hc
  simp only [Instr.inClass, Bool.and_eq_true, decide_eq_true_eq] at hc
  simp only [LzwCtx.wf, Bool.and_eq_true, decide_eq_true_eq] at hk
  simp only [encode, Instr.format, Format.bits]
  omega
theorem kwkwk (c : Code) : Statement (.kwkwk c) := by
  intro k _ _ hc
  simp only [Instr.inClass, Bool.and_eq_true, decide_eq_true_eq] at hc
  exact hc.2
theorem disposeNone : Statement .disposeNone := by intro k _ _ _; simp [encode, Instr.format, Format.bits]
theorem disposeKeep : Statement .disposeKeep := by intro k _ _ _; simp [encode, Instr.format, Format.bits]
theorem disposeBackground : Statement .disposeBackground := by intro k _ _ _; simp [encode, Instr.format, Format.bits]
theorem disposePrevious : Statement .disposePrevious := by intro k _ _ _; simp [encode, Instr.format, Format.bits]
theorem disposeReserved (v : BitVec 3) : Statement (.disposeReserved v) := fun _ _ _ _ => v.isLt

end Sys2Proof.Laws.EncodeWidth
end

