-- ==== Sys2Proof/Tests/Slice0.lean ====
section
/-! SUPPORT. Tests. Expected values come from the spec: encodings from 30_encoding, results from 95_test_vectors (named V-…, P…) or
worked by hand from the rule named. `witness_<Obligation>` shows that a statement's hypotheses are met together. -/

namespace Sys2Proof.Tests

open Sys2Proof.Machine

/-! ## Helpers -/

/-- Reset, with `bytes` in `SRC` from offset 0 and N their number. -/
def loaded (bytes : List Byte) : State :=
  { State.reset with src := storeBytes [] 0 bytes, srcLen := BitVec.ofNat 32 bytes.length }

/-- The engine running at a stage, the current block at offset 0. -/
def running (stage : Stage) (bytes : List Byte) : State := { loaded bytes with phase := .busy, stage := stage }

/-- An LZW state between codes, m = 2 after CLEAR (42_lzw R170). -/
def codes (data : List Byte) : State :=
  { running .lzw [] with
    minCodeSize := 2
    data := data
    clearCode := 4
    eoiCode := 5
    codeSize := 3
    codeMask := 7
    nextCode := 6 }

/-- V-L2 after its third code: slot 6 = (0, 1), `NEXT_CODE = 7`, previous code 1. -/
def codesWithSlot (data : List Byte) : State :=
  { codes data with nextCode := 7, table := [(6, ⟨0, 1⟩)], prevCode := some 1, idx := [0, 1] }

/-- A canvas of one pixel, of colour K, and a palette K, R. -/
def onePixel : State :=
  { running .compose [] with
    canvasW := 1
    canvasH := 1
    canvas := [.rgb 0 0 0]
    snap := [.transparent]
    imgW := 1
    imgH := 1
    apal := writeEntries State.reset.apal [⟨0, 0, 0, false⟩, ⟨255, 0, 0, false⟩]
    apalLen := 2
    idx := [1]
    gceDelay := 100 }

/-- The outcome is a next state, and `p` holds of it. -/
def nextIs (o : Host.Outcome State Fault Refusal) (p : State → Bool) : Bool :=
  match o with
  | .next t => p t
  | .fault _ | .refused _ => false

theorem nextIs_exists {o : Host.Outcome State Fault Refusal} {p : State → Bool} (h : nextIs o p = true) :
    ∃ t, o = .next t ∧ p t = true := by
  cases o with
  | next t => exact ⟨t, rfl, h⟩
  | fault r => cases h
  | refused r => cases h

/-! ## WellFormed: each check refuses an ill-formed term -/

theorem test_wf_tagUnknown : Instr.wf (.tagUnknown 0x2C) = false ∧ Instr.wf (.tagUnknown 0x21) = false ∧
    Instr.wf (.tagUnknown 0x3B) = false ∧ Instr.wf (.tagUnknown 0x00) = true := by decide
theorem test_wf_extUnknown : Instr.wf (.extUnknown 0xF9) = false ∧ Instr.wf (.extUnknown 0xFF) = false ∧
    Instr.wf (.extUnknown 0xFE) = false ∧ Instr.wf (.extUnknown 0x01) = false ∧ Instr.wf (.extUnknown 0x99) = true := by decide
theorem test_wf_codes : Instr.wf (.invalid 6) = false ∧ Instr.wf (.first 2048) = false ∧ Instr.wf (.firstNonliteral 5) = false ∧
    Instr.wf (.literal 2048) = false ∧ Instr.wf (.table 5) = false ∧ Instr.wf (.kwkwk 5) = false := by decide
theorem test_wf_disposeReserved : Instr.wf (.disposeReserved 3) = false ∧ Instr.wf (.disposeReserved 4) = true := by decide
theorem test_wf_context :
    LzwCtx.wf ⟨3, 4, 6, some 1, 3⟩ = false ∧ LzwCtx.wf ⟨4096, 4097, 4098, some 1, 12⟩ = false ∧
    LzwCtx.wf ⟨4, 6, 7, some 1, 3⟩ = false ∧ LzwCtx.wf ⟨4, 5, 5, some 1, 3⟩ = false ∧ LzwCtx.wf ⟨4, 5, 9, some 1, 3⟩ = false ∧
    LzwCtx.wf ⟨4, 5, 7, some 1, 13⟩ = false ∧ LzwCtx.wf ⟨4, 5, 7, none, 3⟩ = false ∧ LzwCtx.wf ⟨4, 5, 7, some 1, 3⟩ = true := by decide
theorem test_inClass :
    Instr.inClass ⟨4, 5, 7, some 1, 3⟩ (.invalid 7) = false ∧ Instr.inClass ⟨4, 5, 6, none, 3⟩ (.invalid 8) = false ∧
    Instr.inClass ⟨4, 5, 6, none, 3⟩ (.first 4) = false ∧ Instr.inClass ⟨4, 5, 7, some 1, 3⟩ (.first 3) = false ∧
    Instr.inClass ⟨4, 5, 6, none, 3⟩ (.firstNonliteral 7) = false ∧ Instr.inClass ⟨4, 5, 7, some 1, 3⟩ (.literal 4) = false ∧
    Instr.inClass ⟨4, 5, 6, none, 3⟩ (.literal 3) = false ∧ Instr.inClass ⟨4, 5, 7, some 1, 3⟩ (.table 7) = false ∧
    Instr.inClass ⟨4, 5, 7, some 1, 3⟩ (.kwkwk 6) = false ∧ Instr.inClass ⟨4, 5, 8, some 1, 3⟩ (.kwkwk 8) = false := by decide

/-! ## Decode: one written-out word for every constructor -/

theorem test_decode_image : decodeBytes .tag8 [0b00101100] = .ok (.image, []) := by decide
theorem test_decode_extension : decodeBytes .tag8 [0b00100001, 0xF9] = .ok (.extension, [0xF9]) := by decide
theorem test_decode_trailer : decodeBytes .tag8 [0b00111011] = .ok (.trailer, []) := by decide
theorem test_decode_tagUnknown : decodeBytes .tag8 [0x01] = .ok (.tagUnknown 0x01, []) := by decide
theorem test_decode_gce : decodeBytes .ext16 [0x21, 0xF9, 0x04] = .ok (.gce, [0x04]) := by decide
theorem test_decode_app : decodeBytes .ext16 [0x21, 0xFF] = .ok (.app, []) := by decide
theorem test_decode_comment : decodeBytes .ext16 [0x21, 0xFE] = .ok (.comment, []) := by decide
theorem test_decode_plainText : decodeBytes .ext16 [0x21, 0x01] = .ok (.plainText, []) := by decide
theorem test_decode_extUnknown : decodeBytes .ext16 [0x21, 0x99] = .ok (.extUnknown 0x99, []) := by decide
theorem test_decode_ext_errors : decodeBytes .ext16 [0x2C, 0xF9] = .error .notAnExtension ∧ decodeBytes .ext16 [0x21] = .error .endOfBytes ∧
    decode .tag8 256 = .error .wordTooWide := by decide
/-- V-L4: after CLEAR and FIRST 1, code 7 is past `NEXT_CODE = 6`; and V-L5's EOI. -/
theorem test_decode_invalid_eoi : decode (.lzwCode ⟨4, 5, 6, some 1, 3⟩) 0b111 = .ok (.invalid 7) ∧
    decode (.lzwCode ⟨4, 5, 6, some 1, 3⟩) 0b101 = .ok .eoi := by decide
/-- V-L6: the first two codes of `74 01`. -/
theorem test_decode_clear_firstNonliteral : decode (.lzwCode ⟨4, 5, 6, none, 3⟩) 0b100 = .ok .clear ∧
    decode (.lzwCode ⟨4, 5, 6, none, 3⟩) 0b110 = .ok (.firstNonliteral 6) := by decide
/-- V-L2, codes 2 to 4. -/
theorem test_decode_first_literal_table : decode (.lzwCode ⟨4, 5, 6, none, 3⟩) 0b000 = .ok (.first 0) ∧
    decode (.lzwCode ⟨4, 5, 6, some 0, 3⟩) 0b001 = .ok (.literal 1) ∧ decode (.lzwCode ⟨4, 5, 7, some 1, 3⟩) 0b110 = .ok (.table 6) := by decide
/-- V-L2, code 5. -/
theorem test_decode_kwkwk : decode (.lzwCode ⟨4, 5, 8, some 6, 4⟩) 0b1000 = .ok (.kwkwk 8) := by decide
theorem test_decode_disposals : decode .disposal3 0b000 = .ok .disposeNone ∧ decode .disposal3 0b001 = .ok .disposeKeep ∧
    decode .disposal3 0b010 = .ok .disposeBackground ∧ decode .disposal3 0b011 = .ok .disposePrevious ∧
    decode .disposal3 0b100 = .ok (.disposeReserved 4) ∧ decode .disposal3 0b111 = .ok (.disposeReserved 7) := by decide
theorem test_decodeTableWord : decodeTableWord 16 0x21F9 = some .gce ∧ decodeTableWord 8 0x2C = some .image ∧
    decodeTableWord 8 0x55 = some (.tagUnknown 0x55) ∧ decodeTableWord 8 3 = some .disposePrevious := by decide
/-- 95_test_vectors 0.1, V-L2 and P2: the stream notation gives the bytes written there. -/
theorem test_stream_notation :
    encodeCodes [(4, 3), (0, 3), (1, 3), (6, 3), (8, 4), (1, 4), (2, 4), (3, 4), (11, 4), (11, 4), (5, 4)] =
      [0x44, 0x8C, 0x21, 0xB3, 0x5B] ∧
    encodeGce 1 20 true 3 = [0x21, 0xF9, 0x04, 0x05, 0x14, 0x00, 0x03, 0x00] ∧
    encodeImage 0 0 2 2 2 [0x8C, 0x53] =
      [0x2C, 0x00, 0x00, 0x00, 0x00, 0x02, 0x00, 0x02, 0x00, 0x00, 0x02, 0x02, 0x8C, 0x53, 0x00] := by decide
theorem test_fetched_gce : nextIs (step (State.reset.withFetchWord 16 0x21F9))
    (fun t => t.stage == .walker && t.cur == 8 && t.gceDelay == 0) = true := by decide
theorem test_fetched_tags : nextIs (step (State.reset.withFetchWord 8 0x3B)) (fun t => t.result == .complete && t.cur == 1) = true ∧
    nextIs (step (State.reset.withFetchWord 8 0x55)) (fun t => t.result == .unknownBlock) = true ∧
    nextIs (step (State.reset.withFetchWord 8 2)) (fun t => t.stage == .retire && t.canvas == []) = true := by decide

/-! ## One step on a small state -/

/-- V-C5's screen: packed 0x81 announces four entries, seven of the twelve bytes follow. -/
theorem test_container_shortPalette : nextIs (step (running .container
      [0x47, 0x49, 0x46, 0x38, 0x39, 0x61, 1, 0, 1, 0, 0x81, 0, 0, 0, 0, 0, 255, 0, 0, 0]))
    (fun t => t.result == .truncated && t.cur == 0 && t.canvasW == 1 && t.canvasH == 1 && t.gctSize == 4) = true := by decide
/-- V-C9: "GIF87a", packed 0x05 with bit 7 clear, background byte 5 ignored, aspect 0x31. -/
theorem test_container_noTable : nextIs (step (running .container
      [0x47, 0x49, 0x46, 0x38, 0x37, 0x61, 0x02, 0, 0x01, 0, 0x05, 0x05, 0x31, 0x3B]))
    (fun t => t.hasGct == false && t.gctSize == 0 && t.bgIndex == 0 && t.cur == 13 && t.canvas == [.transparent, .transparent] &&
      t.phase == .busy) = true := by decide
/-- V-W12: two one-byte sub-blocks give `DATA = [8C, 5F]`. -/
theorem test_image : nextIs (exec .image (running .walker [0x2C, 0, 0, 0, 0, 3, 0, 2, 0, 0, 2, 0x01, 0x8C, 0x01, 0x5F, 0]))
    (fun t => t.imgW == 3 && t.imgH == 2 && t.minCodeSize == 2 && t.data == [0x8C, 0x5F] && t.blockEnd == 16 && t.cur == 0) = true := by
  decide
/-- V-W11: the sub-block announces five bytes, one follows. -/
theorem test_image_cut : nextIs (exec .image (running .walker [0x2C, 0, 0, 0, 0, 2, 0, 1, 0, 0, 2, 0x05, 0x8C]))
    (fun t => t.result == .truncated && t.cur == 0) = true := by decide
/-- V-W8: `21` at the end of the buffer. -/
theorem test_extension_cut : nextIs (step (running .walker [0x21]))
    (fun t => t.result == .truncated && t.tagLog == [⟨0x21, none⟩]) = true := by decide
/-- V-W6's label is logged before the dispatch. -/
theorem test_extension : nextIs (step (running .walker [0x21, 0x99, 0x00, 0x3B]))
    (fun t => t.tagLog == [⟨0x21, some 0x99⟩] && t.stage == .extension && t.cur == 0) = true := by decide
/-- V-C1: the Trailer ends COMPLETE past its byte. -/
theorem test_trailer : nextIs (step (running .walker [0x3B]))
    (fun t => t.result == .complete && t.cur == 1 && t.faultPos == 0 && t.tagLog == [⟨0x3B, none⟩]) = true := by decide
/-- V-W7, V-W9. -/
theorem test_tagUnknown : nextIs (step { running .walker [0, 0x01, 0x3B] with cur := 1 })
    (fun t => t.result == .unknownBlock && t.faultPos == 1 && t.cur == 1) = true := by decide
/-- V-W1: delay 10 units, disposal 3, index 3 transparent. -/
theorem test_gce : nextIs (exec .gce (running .extension [0x21, 0xF9, 0x04, 0x0D, 0x0A, 0x00, 0x03, 0x00]))
    (fun t => t.gceDelay == 100 && t.gceDisposal == 3 && t.gceTflag == true && t.gceTindex == 3 && t.cur == 8) = true := by decide
/-- V-W2: size byte 5 is not checked; seven units. -/
theorem test_gce_size : nextIs (exec .gce (running .extension [0x21, 0xF9, 0x05, 0x00, 0x07, 0x00, 0x00, 0x00]))
    (fun t => t.gceDelay == 70 && t.gceTflag == false && t.cur == 8) = true := by decide
/-- V-W3: the App block takes 19 bytes. -/
theorem test_app : nextIs (exec .app (running .extension [0x21, 0xFF, 0x0B, 0x4E, 0x45, 0x54, 0x53, 0x43, 0x41, 0x50, 0x45, 0x32,
      0x2E, 0x30, 0x03, 0x01, 0x00, 0x00, 0x00])) (fun t => t.cur == 19 && t.stage == .walker) = true := by decide
/-- V-W4(c): two sub-blocks. -/
theorem test_comment : nextIs (exec .comment (running .extension [0x21, 0xFE, 0x01, 0x41, 0x01, 0x42, 0x00]))
    (fun t => t.cur == 7 && t.stage == .walker) = true := by decide
/-- V-W4(b): an empty first sub-block. -/
theorem test_comment_empty : nextIs (exec .comment (running .extension [0x21, 0xFE, 0x00, 0x3B]))
    (fun t => t.result == .truncated && t.cur == 0) = true := by decide
/-- V-W5. -/
theorem test_plainText : nextIs (exec .plainText (running .extension [0x21, 0x01, 0x3B]))
    (fun t => t.result == .unsupported && t.faultPos == 0) = true := by decide
/-- V-W6. -/
theorem test_extUnknown : nextIs (step { running .extension [0, 0x21, 0x99] with cur := 1 })
    (fun t => t.result == .unknownExtension && t.faultPos == 1) = true := by decide
/-- V-L7: m = 1 and m = 12. -/
theorem test_lzwSetup : nextIs (step { running .lzwSetup [] with minCodeSize := 1 }) (fun t => t.result == .badMinCodeSize) = true ∧
    nextIs (step { running .lzwSetup [] with minCodeSize := 12 }) (fun t => t.result == .badMinCodeSize) = true := by decide
/-- V-L2's first code, read from its bytes. -/
theorem test_clear : nextIs (step (codes [0x44, 0x8C, 0x21])) (fun t => t.nextCode == 6 && t.codeSize == 3 && t.prevCode == none &&
    t.bitCnt == 5 && t.rdPtr == 1) = true := by decide
/-- V-L4, code 3: `7/3` with `NEXT_CODE = 6`. -/
theorem test_invalid : nextIs (step { codes [0x07] with prevCode := some 1, idx := [1] })
    (fun t => t.stage == .compose && t.idx == [1] && t.phase == .busy) = true := by decide
theorem test_eoi : nextIs (exec .eoi (codes [])) (fun t => t.stage == .compose && t.result == .none) = true := by decide
/-- V-L2, code 2. -/
theorem test_first : nextIs (exec (.first 0) (codes [])) (fun t => t.idx == [0] && t.prevCode == some 0 && t.nextCode == 6) = true := by
  decide
/-- V-L6. -/
theorem test_firstNonliteral : nextIs (exec (.firstNonliteral 6) (codes [])) (fun t => t.result == .lzwNoPrevious) = true := by decide
/-- V-L2, code 3. -/
theorem test_literal : nextIs (exec (.literal 1) { codes [] with prevCode := some 0, idx := [0] })
    (fun t => t.idx == [0, 1] && t.table == [(6, ⟨0, 1⟩)] && t.nextCode == 7 && t.codeSize == 3 && t.prevCode == some 1) = true := by
  decide
/-- V-L2, code 4: slot 7 = (1, 0) and the width grows to 4. -/
theorem test_table : nextIs (exec (.table 6) (codesWithSlot []))
    (fun t => t.idx == [0, 1, 0, 1] && t.table == [(6, ⟨0, 1⟩), (7, ⟨1, 0⟩)] && t.nextCode == 8 && t.codeSize == 4 &&
      t.prevCode == some 6) = true := by decide
/-- V-L1, code 3: KWKWK 6 after FIRST 1. -/
theorem test_kwkwk : nextIs (exec (.kwkwk 6) { codes [] with prevCode := some 1, idx := [1] })
    (fun t => t.idx == [1, 1, 1] && t.table == [(6, ⟨1, 1⟩)] && t.nextCode == 7) = true := by decide
/-- V-L2, code 5: the string of a slot, repeated by its first symbol. -/
theorem test_kwkwk_slot : nextIs (exec (.kwkwk 8) { codesWithSlot [] with
      nextCode := 8, codeSize := 4, codeMask := 15, table := [(6, ⟨0, 1⟩), (7, ⟨1, 0⟩)], prevCode := some 6, idx := [] })
    (fun t => t.idx == [0, 1, 0] && t.table == [(6, ⟨0, 1⟩), (7, ⟨1, 0⟩), (8, ⟨6, 0⟩)] && t.nextCode == 9) = true := by decide
/-- V-L1's frame: index 1 is R. -/
theorem test_compose : nextIs (step onePixel) (fun t => t.frames == [⟨[.rgb 255 0 0], 100⟩] && t.frameCount == 1 &&
    t.snap == [.rgb 0 0 0] && t.stage == .dispose) = true := by decide
/-- V-F2's case: a transparent entry over disposal 1 keeps the pixel. -/
theorem test_compose_transparent : nextIs (step { onePixel with
      prevDisposal := 1
      apal := writeEntries State.reset.apal [⟨0, 0, 0, false⟩, ⟨255, 0, 0, true⟩] }) (fun t => t.canvas == [.rgb 0 0 0]) = true := by decide
theorem test_disposeNone_Keep : nextIs (exec .disposeNone onePixel) (fun t => t.canvas == onePixel.canvas) = true ∧
    nextIs (exec .disposeKeep onePixel) (fun t => t.canvas == onePixel.canvas) = true := by decide
theorem test_disposeBackground_Previous : nextIs (exec .disposeBackground onePixel) (fun t => t.canvas == [.transparent]) = true ∧
    nextIs (exec .disposePrevious { onePixel with canvas := [.rgb 255 0 0], snap := [.rgb 0 0 0] })
      (fun t => t.canvas == [.rgb 0 0 0]) = true := by decide
/-- V-F8, V-F9: the two policies. -/
theorem test_disposeReserved : nextIs (exec (.disposeReserved 5) onePixel) (fun t => t.result == .reservedDisposal) = true ∧
    nextIs (exec (.disposeReserved 5) { onePixel with cfg := { Config.default with reservedDisposal := .asNoAction } })
      (fun t => t.stage == .retire && t.phase == .busy) = true := by decide
/-- V-C7's version register, V-W8's and V-H4's tag-log words, V-H2's pixel word. -/
theorem test_host_reads : nextIs (step { State.reset with host := [.readReg 0x18], version := ⟨0x30, 0x30, 0x7A⟩ })
      (fun t => t.busData == 0x007A3030) = true ∧
    nextIs (step { State.reset with host := [.readTag 0], tagLog := [⟨0x21, none⟩] }) (fun t => t.busData == 0x21) = true ∧
    nextIs (step { State.reset with host := [.readTag 0], tagLog := [⟨0x21, some 0x99⟩] }) (fun t => t.busData == 0x00990121) = true ∧
    pixelWord (.rgb 255 0 0) = 0x01FF0000 := by decide

/-! ## Witnesses: the hypotheses of each statement are met together -/

theorem blank_palette : PaletteInv (running .walker []) :=
  ⟨reset_paletteInv.gpalLength, reset_paletteInv.apalLength, reset_paletteInv.gctSize, reset_paletteInv.apalLen,
    reset_paletteInv.noTable, reset_paletteInv.gpalUnmarked, reset_paletteInv.oneMark⟩

/-- An idle machine with one source byte and a host schedule. -/
def idle (host : List HostOp) : State := { loaded [0x3B] with host := host }

theorem idle_inv (host : List HostOp) : Inv (idle host) where
  memory := ⟨by show Memory.wf [(0, 0x3B#8)]; decide, List.Pairwise.nil, fun _ hc => (nomatch hc)⟩
  palette := ⟨reset_paletteInv.gpalLength, reset_paletteInv.apalLength, reset_paletteInv.gctSize, reset_paletteInv.apalLen,
    reset_paletteInv.noTable, reset_paletteInv.gpalUnmarked, reset_paletteInv.oneMark⟩
  outcome := ⟨⟨fun h => (nomatch h), fun h => absurd rfl h⟩, rfl, fun _ => rfl⟩
  output := outputInv_of_empty rfl rfl rfl rfl
  running := fun h => (nomatch h)

/-- The engine inside an image block of 12 bytes, on a canvas of one pixel. -/
def inBlock (stage : Stage) : State :=
  { running stage [0x21, 0xFE, 0x01, 0x41, 0x00, 0, 0, 0, 0, 0, 0, 0] with
    canvasW := 1
    canvasH := 1
    canvas := [.transparent]
    snap := [.transparent]
    blockEnd := 12 }

theorem inBlock_src : Memory.wf (inBlock .walker).src := by decide

theorem inBlock_inv {stage : Stage} (h : StageInv (inBlock stage)) : Inv (inBlock stage) :=
  Inv.busy ⟨inBlock_src, List.Pairwise.nil, fun _ hc => (nomatch hc)⟩
    ⟨reset_paletteInv.gpalLength, reset_paletteInv.apalLength, reset_paletteInv.gctSize, reset_paletteInv.apalLen,
      reset_paletteInv.noTable, reset_paletteInv.gpalUnmarked, reset_paletteInv.oneMark⟩
    (outputInv_of_empty rfl rfl rfl rfl) rfl ⟨rfl, rfl⟩ h

theorem inBlock_walker : Inv (inBlock .walker) := inBlock_inv (by
  show CanvasSized _ ∧ _ ∧ Counted 0 0 _ ∧ EmptyAfter _ _
  exact ⟨⟨rfl, rfl⟩, by decide, ⟨by decide, by decide⟩, fun h => absurd h (by decide)⟩)
theorem inBlock_extension : Inv (inBlock .extension) := inBlock_inv (by
  show CanvasSized _ ∧ _ ∧ _ ∧ Counted 1 0 _ ∧ EmptyAfter _ _
  exact ⟨⟨rfl, rfl⟩, by decide, by decide, ⟨by decide, by decide⟩, fun h => absurd h (by decide)⟩)
theorem inBlock_compose : Inv (inBlock .compose) := inBlock_inv (by
  show CanvasSized _ ∧ InImage _ ∧ Counted 1 0 _ ∧ EmptyAfter _ _
  exact ⟨⟨rfl, rfl⟩, ⟨by decide, by decide, by decide⟩, ⟨by decide, by decide⟩, fun h => absurd h (by decide)⟩)
theorem inBlock_retire : Inv (inBlock .retire) := inBlock_inv (by
  show CanvasSized _ ∧ InImage _ ∧ Counted 1 1 _ ∧ EmptyAfter _ _
  exact ⟨⟨rfl, rfl⟩, ⟨by decide, by decide, by decide⟩, ⟨by decide, by decide⟩, fun h => absurd h (by decide)⟩)

/-- A decode that ended COMPLETE with one frame of one pixel. -/
def shown (host : List HostOp) : State :=
  { loaded [0x3B] with
    host := host
    phase := .done
    result := .complete
    canvasW := 1
    canvasH := 1
    canvas := [.rgb 255 0 0]
    frames := [⟨[.rgb 255 0 0], 100⟩]
    frameCount := 1 }

theorem shown_inv (host : List HostOp) : Inv (shown host) where
  memory := ⟨by show Memory.wf [(0, 0x3B#8)]; decide, List.Pairwise.nil, fun _ hc => (nomatch hc)⟩
  palette := ⟨reset_paletteInv.gpalLength, reset_paletteInv.apalLength, reset_paletteInv.gctSize, reset_paletteInv.apalLen,
    reset_paletteInv.noTable, reset_paletteInv.gpalUnmarked, reset_paletteInv.oneMark⟩
  outcome := ⟨⟨fun _ h => (nomatch h), fun _ => rfl⟩, rfl, fun h => (nomatch h)⟩
  output := ⟨rfl, rfl, by intro f hf; rw [List.mem_singleton.mp hf]; rfl, fun c hc => (nomatch hc)⟩
  running := fun h => (nomatch h)

theorem codes_inv : LzwInv (codes [0x44]) where
  minCode := by decide
  clearCode := rfl
  eoiCode := rfl
  codeSize := by decide
  codeMask := rfl
  nextCode := by decide
  nextFits := .inl (by decide)
  bitCnt := by decide
  bitBuf := by decide
  rdPtr := Nat.zero_le _
  live := fun c h h' => by
    change 6 ≤ c at h
    change c < 6 at h'
    omega
  prevNone := fun _ => rfl
  prevSome := fun pc h => (nomatch h)
  symbols := fun x h => (nomatch h)

theorem codesWithSlot_inv : LzwInv (codesWithSlot []) where
  minCode := by decide
  clearCode := rfl
  eoiCode := rfl
  codeSize := by decide
  codeMask := rfl
  nextCode := by decide
  nextFits := .inl (by decide)
  bitCnt := by decide
  bitBuf := by decide
  rdPtr := Nat.zero_le _
  live := fun c h h' => by
    change 6 ≤ c at h
    change c < 7 at h'
    obtain rfl : c = 6 := by omega
    exact ⟨⟨0, 1⟩, rfl, .inl (by decide), by decide⟩
  prevNone := fun h => (nomatch h)
  prevSome := fun pc h => by cases h; exact .inl (by decide)
  symbols := by decide

theorem witness_DecodeEncodeRoundTrip :
    (∀ i ∈ [Instr.table 6, .kwkwk 7, .literal 3, .clear, .eoi, .gce, .extUnknown 0, .tagUnknown 0, .disposeReserved 4],
      i.wf = true ∧ i.inClass ⟨4, 5, 7, some 1, 3⟩ = true) ∧ LzwCtx.wf ⟨4, 5, 7, some 1, 3⟩ = true ∧
    (∀ i ∈ [Instr.first 3, .firstNonliteral 6, .invalid 7], i.wf = true ∧ i.inClass ⟨4, 5, 6, none, 3⟩ = true) ∧
    LzwCtx.wf ⟨4, 5, 6, none, 3⟩ = true := by decide
theorem witness_EncodeDecodeRoundTrip : LzwCtx.wf ⟨4, 5, 7, some 1, 3⟩ = true ∧
    decode (.lzwCode ⟨4, 5, 7, some 1, 3⟩) 6 = .ok (.table 6) ∧ decode .tag8 0x2C = .ok .image ∧ decode .ext16 0x21F9 = .ok .gce ∧
    decode .disposal3 7 = .ok (.disposeReserved 7) := by decide
/-- One code for each clause, at the edge of its range. -/
theorem witness_EveryCodeHasItsClass :
    let k : LzwCtx := ⟨4, 5, 6, none, 3⟩;
    let m : LzwCtx := ⟨4, 5, 7, some 1, 3⟩;
    k.wf = true ∧ m.wf = true ∧ (7 : Code).toNat < 2 ^ k.size ∧ k.next < (7 : Code).toNat ∧ (5 : Code).toNat = k.eoi ∧
    (4 : Code).toNat = k.clear ∧ k.prev = none ∧ (3 : Code).toNat < k.clear ∧ k.eoi < (6 : Code).toNat ∧ (6 : Code).toNat ≤ k.next ∧
    m.prev ≠ none ∧ (3 : Code).toNat < m.clear ∧ m.clear + 2 ≤ (6 : Code).toNat ∧ (6 : Code).toNat < m.next ∧
    (7 : Code).toNat = m.next := by decide
theorem witness_CollectSubBlocks :
    collectSubBlocks (loaded [0x01, 0x41, 0x01, 0x42, 0x00]) 0 = some ⟨[0x41, 0x42], 5, false⟩ ∧
    collectSubBlocks (loaded [0x00]) 0 = some ⟨[], 1, true⟩ := by decide
theorem witness_SubBlocksOfDataReadBack :
    holdsBytes (loaded [0x02, 0x68, 0x69, 0x00]) 0 (encodeSubBlocks [0x68, 0x69]) ∧ holdsBytes (loaded [0x00]) 0 (encodeSubBlocks []) := by
  decide
/-- V-L1's codes; and the widest code. -/
theorem witness_PackedCodesReadBack :
    ∀ cs ∈ [[(4, 3), (1, 3), (6, 3), (5, 3)], [(4095, 12), (1, 1)]],
      (∀ c ∈ cs, 1 ≤ c.2 ∧ c.2 ≤ 12 ∧ c.1 < 2 ^ c.2) ∧ (encodeCodes cs).length < 2 ^ 32 ∧
      (codes (encodeCodes cs)).data = encodeCodes cs ∧ (codes (encodeCodes cs)).bitBuf = 0 ∧ (codes (encodeCodes cs)).bitCnt = 0 ∧
      (codes (encodeCodes cs)).rdPtr = 0 := by decide
theorem witness_DescriptorReadsBack :
    holdsBytes (loaded [0x2C, 1, 0, 0, 0, 0xFF, 0xFF, 2, 1, 0xC7]) 0 (encodeDescriptor 1 0 65535 258 0xC7) := by decide
theorem witness_SourceBytesReadBack (a : Word) (ha : a = 0 ∨ a = 0xFFFFFFFE) :
    (idle [.writeSrc a 7]).host = .writeSrc a 7 :: [] ∧ (idle [.writeSrc a 7]).phase ≠ .busy ∧
    (idle [.readSrc a]).host = .readSrc a :: [] ∧ (idle [.readSrc a]).phase ≠ .busy ∧ a.toNat < 2 ^ 32 - 1 := by
  refine ⟨rfl, fun h => (nomatch h), rfl, fun h => (nomatch h), ?_⟩
  rcases ha with rfl | rfl <;> decide

/-- V-C1's file, and that of a two-entry palette cut to its last byte. -/
def fileNoTable : List Byte := [0x47, 0x49, 0x46, 0x38, 0x39, 0x61, 1, 0, 1, 0, 0x00, 0, 0, 0x3B]
def fileTable : List Byte := [0x47, 0x49, 0x46, 0x38, 0x39, 0x61, 2, 0, 2, 0, 0x80, 0, 0, 1, 2, 3, 4, 5, 6]

theorem witness_ContainerPhaseReadsTheScreen : ∀ f ∈ [fileNoTable, fileTable],
    let s := running .container f;
    s.host = [] ∧ s.phase = .busy ∧ s.stage = .container ∧ s.gpal.length = 256 ∧ srcByte s 0 = 0x47#8 ∧ srcByte s 1 = 0x49#8 ∧
    srcByte s 2 = 0x46#8 ∧
    13 + 3 * (if (srcByte s 10).getLsbD 7 then 2 ^ ((srcByte s 10).toNat % 8 + 1) else 0) ≤ srcEnd s ∧
    ((srcByte s 6).toNat + 256 * (srcByte s 7).toNat) * ((srcByte s 8).toNat + 256 * (srcByte s 9).toNat) ≤ s.cfg.maxCanvasPixels := by
  decide +kernel
/-- V-C2, V-C3; V-C4b; the palette one byte short; V-C8. -/
theorem witness_ContainerPhaseEndsEarly :
    ¬(3 ≤ srcEnd (running .container [0x47, 0x49])) ∧ srcByte (running .container [0x47, 0x49, 0x58]) 2 ≠ 0x46#8 ∧
    (let s := running .container (fileNoTable.take 12);
      s.host = [] ∧ s.phase = .busy ∧ s.stage = .container ∧ srcByte s 0 = 0x47#8 ∧ srcByte s 1 = 0x49#8 ∧ srcByte s 2 = 0x46#8 ∧
      3 ≤ srcEnd s ∧ srcEnd s < 13) ∧
    (let s := running .container (fileTable.take 18);
      srcByte s 0 = 0x47#8 ∧ srcByte s 1 = 0x49#8 ∧ srcByte s 2 = 0x46#8 ∧ 13 ≤ srcEnd s ∧
      srcEnd s < 13 + 3 * (if (srcByte s 10).getLsbD 7 then 2 ^ ((srcByte s 10).toNat % 8 + 1) else 0)) ∧
    (let s := { running .container fileTable with cfg := { Config.default with maxCanvasPixels := 3 } };
      srcByte s 0 = 0x47#8 ∧ srcByte s 1 = 0x49#8 ∧ srcByte s 2 = 0x46#8 ∧ 13 ≤ srcEnd s ∧
      13 + 3 * (if (srcByte s 10).getLsbD 7 then 2 ^ ((srcByte s 10).toNat % 8 + 1) else 0) ≤ srcEnd s ∧
      s.cfg.maxCanvasPixels <
        ((srcByte s 6).toNat + 256 * (srcByte s 7).toNat) * ((srcByte s 8).toNat + 256 * (srcByte s 9).toNat)) := by decide
theorem witness_StepRunsTheDecodedInstruction : (running .walker [0x3B]).host = [] ∧
    ({ running .walker [0x3B] with host := [.yield, .hardReset] } : State).host = .yield :: [.hardReset] ∧
    (let s := running .walker [0x3B];
      s.host = [] ∧ s.phase = .busy ∧ s.cur.toNat < srcEnd s ∧ decode .tag8 (srcByte s s.cur.toNat).toNat = .ok .trailer) ∧
    (let s := running .extension [0x21, 0xF9];
      decode .ext16 ((srcByte s s.cur.toNat).toNat * 256 + (srcByte s (s.cur.toNat + 1)).toNat) = .ok .gce) ∧
    (let s := codes [0x44];
      s.stage = .lzw ∧ (readCode s).2 = some 4 ∧ decode (.lzwCode (lzwCtx (readCode s).1)) 4 = .ok .clear) ∧
    decode .disposal3 ({ running .dispose [] with gceDisposal := 3 } : State).gceDisposal.toNat = .ok .disposePrevious := by decide
theorem witness_TagsAreLogged :
    (let s := { running .walker [] with cfg := { Config.default with tagLogCapacity := some 0 } };
      s.tagCount.toNat < 2 ^ 32 - 1 ∧ s.cfg.tagLogCapacity = some 0 ∧ 0 ≤ s.tagCount.toNat) ∧
    (let s := { running .walker [] with cfg := { Config.default with tagLogCapacity := some 1 } };
      s.cfg.tagLogCapacity = some 1 ∧ s.tagCount.toNat < 1) ∧
    (let s := running .walker [];
      s.cfg.tagLogCapacity = none ∧ s.host = [] ∧ s.phase = .busy ∧ s.stage = .walker ∧ srcEnd s ≤ s.cur.toNat) := by decide

/-- V-W12's image block, and one with a local table of two entries. -/
def blockNoTable : List Byte := [0x2C, 0, 0, 0, 0, 3, 0, 2, 0, 0x00, 2, 0x01, 0x8C, 0x01, 0x5F, 0]
def blockTable : List Byte := [0x2C, 0, 0, 0, 0, 2, 0, 1, 0, 0x80, 9, 9, 9, 8, 8, 8, 2, 0x02, 0x0C, 0x0A, 0]

theorem witness_ImageBlockIsRead :
    PaletteInv (running .walker blockNoTable) ∧ PaletteInv (running .walker blockTable) ∧
    holdsBytes (running .walker blockNoTable) 11 (encodeChain [[0x8C], [0x5F]]) ∧
    holdsBytes (running .walker blockTable) 17 (encodeChain [[0x0C, 0x0A]]) ∧
    (srcByte (running .walker blockNoTable) 9).getLsbD 7 = false ∧ (srcByte (running .walker blockTable) 9).getLsbD 7 = true :=
  ⟨⟨reset_paletteInv.gpalLength, reset_paletteInv.apalLength, reset_paletteInv.gctSize, reset_paletteInv.apalLen,
      reset_paletteInv.noTable, reset_paletteInv.gpalUnmarked, reset_paletteInv.oneMark⟩,
    ⟨reset_paletteInv.gpalLength, reset_paletteInv.apalLength, reset_paletteInv.gctSize, reset_paletteInv.apalLen,
      reset_paletteInv.noTable, reset_paletteInv.gpalUnmarked, reset_paletteInv.oneMark⟩,
    by decide, by decide, by decide, by decide⟩
/-- The descriptor one byte short; the local table and its minimum code size byte one short; the terminator missing. -/
theorem witness_CutImageBlock : srcEnd (running .walker (blockTable.take 9)) < 10 ∧
    (let s := running .walker (blockTable.take 16);
      srcEnd s < 0 + 11 + 3 * (if (srcByte s 9).getLsbD 7 then 2 ^ ((srcByte s 9).toNat % 8 + 1) else 0)) ∧
    collectSubBlocks (running .walker (blockTable.take 20)) 17 = none := by decide
theorem witness_ExtensionLogsItsLabel :
    srcEnd (running .walker [0x21]) ≤ (running .walker [0x21]).cur.toNat + 1 ∧
    (let s := logTag 0x21 (running .walker [0x21, 0xFE]);
      s.cur.toNat + 1 < srcEnd s ∧ s.tagLog = [] ++ [⟨0x21, none⟩] ∧ s.cfg.tagLogCapacity = none ∧ s.tagCount ≠ 0) ∧
    (let s := logTag 0x21 { running .walker [0x21, 0xFE] with cfg := { Config.default with tagLogCapacity := some 1 } };
      s.cur.toNat + 1 < srcEnd s ∧ s.tagLog = [] ++ [⟨0x21, none⟩] ∧ s.cfg.tagLogCapacity = some 1 ∧ s.tagCount.toNat ≤ 1) ∧
    (let s := logTag 0x21 { running .walker [0x21, 0xFE] with cfg := { Config.default with tagLogCapacity := some 0 } };
      s.cur.toNat + 1 < srcEnd s ∧ s.cfg.tagLogCapacity = some 0 ∧ 0 < s.tagCount.toNat) := by decide
theorem witness_GceLoads : srcEnd (running .extension [0x21, 0xF9, 4, 0, 0, 0, 0]) < 0 + 8 ∧
    0 + 8 ≤ srcEnd (running .extension [0x21, 0xF9, 4, 0, 0, 0, 0, 0]) := by decide
/-- V-W3's block; the same cut inside its 14 bytes and inside its sub-blocks. -/
def blockApp : List Byte := [0x21, 0xFF, 0x0B, 0x4E, 0x45, 0x54, 0x53, 0x43, 0x41, 0x50, 0x45, 0x32, 0x2E, 0x30, 0x03, 0x01, 0x00, 0x00, 0x00]
theorem witness_AppIsSkipped : srcEnd (running .extension (blockApp.take 13)) < 0 + 14 ∧
    collectSubBlocks (running .extension (blockApp.take 18)) 14 = none ∧
    holdsBytes (running .extension blockApp) 14 (encodeChain [[0x01, 0x00, 0x00]]) := by decide
theorem witness_CommentIsSkipped : collectSubBlocks (running .extension [0x21, 0xFE, 0x01, 0x41]) 2 = none ∧
    holdsBytes (running .extension [0x21, 0xFE, 0x00]) 2 [0x00#8] ∧
    holdsBytes (running .extension [0x21, 0xFE, 0x01, 0x41, 0x00]) 2 (encodeChain [[0x41]]) := by decide
theorem witness_TrailerCompletes : (running .walker [0x3B]).cur.toNat < srcEnd (running .walker [0x3B]) := by decide
theorem witness_LzwSetup : ∀ m ∈ [(1 : Byte), 12, 2, 11],
    let s := { running .lzwSetup [] with minCodeSize := m };
    s.host = [] ∧ s.phase = .busy ∧ s.stage = .lzwSetup ∧
    ((s.minCodeSize.toNat < 2 ∨ 11 < s.minCodeSize.toNat) ∨ (2 ≤ s.minCodeSize.toNat ∧ s.minCodeSize.toNat ≤ 11)) := by decide
theorem witness_StreamEnds : ∀ n ∈ [(0 : BitVec 5), 2],
    let s := { codes [] with bitCnt := n };
    s.host = [] ∧ s.phase = .busy ∧ s.stage = .lzw ∧ s.data.length < 2 ^ 32 ∧ s.rdPtr.toNat ≤ s.data.length ∧
    s.bitCnt.toNat + 8 * (s.data.length - s.rdPtr.toNat) < s.codeSize.toNat := by decide
theorem witness_ClearResets : LzwInv (codesWithSlot []) := codesWithSlot_inv
theorem witness_FirstCode : (3 : Code).toNat < (codes []).clearCode.toNat ∧ (codes []).clearCode.toNat ≤ 2048 ∧
    (2047 : Code).toNat < ({ codes [] with clearCode := 2048 } : State).clearCode.toNat := by decide
/-- A full table; the last slot; the slot that widens; one that does not. -/
theorem witness_AddEntry :
    (let s := { codes [] with nextCode := 4096, codeSize := 12 };
      s.codeSize.toNat ≤ 12 ∧ 4096 ≤ s.nextCode.toNat) ∧
    (let s := { codes [] with nextCode := 4095, codeSize := 12 };
      s.codeSize.toNat ≤ 12 ∧ s.nextCode.toNat < 4096 ∧ s.nextCode.toNat + 1 = 4096) ∧
    (let s := { codes [] with nextCode := 7, codeSize := 3 };
      s.codeSize.toNat ≤ 12 ∧ s.nextCode.toNat + 1 = 2 ^ s.codeSize.toNat ∧ s.nextCode.toNat + 1 ≤ 4095) ∧
    (let s := { codes [] with nextCode := 6, codeSize := 3 };
      s.codeSize.toNat ≤ 12 ∧ s.nextCode.toNat < 4096 ∧ s.nextCode.toNat + 1 ≠ 2 ^ s.codeSize.toNat) :=
  ⟨⟨by decide, by decide⟩, ⟨by decide, by decide, rfl⟩, ⟨by decide, rfl, by decide⟩, ⟨by decide, by decide, by decide⟩⟩
theorem witness_LiteralEmits : (codesWithSlot []).prevCode = some 1 ∧ (3 : Code).toNat < (codesWithSlot []).clearCode.toNat ∧
    (codesWithSlot []).clearCode.toNat ≤ 2048 := by decide
theorem witness_EveryLiveCode : LzwInv (codesWithSlot []) ∧ namesRun (codesWithSlot []) 7 (3 : Code).toNat ∧
    namesRun (codesWithSlot []) 7 (6 : Code).toNat := ⟨codesWithSlot_inv, .inl (by decide), .inr (by decide)⟩
theorem witness_TableEmits : LzwInv (codesWithSlot []) ∧ (codesWithSlot []).prevCode = some 1 ∧
    (codesWithSlot []).clearCode.toNat + 2 ≤ (6 : Code).toNat ∧ (6 : Code).toNat < (codesWithSlot []).nextCode.toNat :=
  ⟨codesWithSlot_inv, by decide, by decide, by decide⟩
theorem witness_Kwkwk : LzwInv (codesWithSlot []) ∧ (codesWithSlot []).prevCode = some 1 ∧
    (7 : Code).toNat = (codesWithSlot []).nextCode.toNat := ⟨codesWithSlot_inv, by decide, by decide⟩
theorem witness_CodesOutOfClass : (codes []).prevCode = none ∧ (codesWithSlot []).prevCode = some 1 ∧ stringOf (codesWithSlot []) 7 = none ∧
    stringOf ({ codes [] with prevCode := some 6 } : State) 6 = none := by decide
theorem witness_LzwInvariantIsKept : (codes [0x44]).phase = .busy ∧ (codes [0x44]).stage = .lzw ∧ (codes [0x44]).data.length < 2 ^ 32 ∧
    LzwInv (codes [0x44]) ∧ ∃ t, engineStep (codes [0x44]) = .next t ∧ (t.stage == .lzw) = true :=
  ⟨rfl, rfl, by decide, codes_inv, nextIs_exists (by decide)⟩
/-- V-F6; V-F7's index past a palette, at the first pixel and at the second. -/
theorem witness_CompositorFaults :
    (let s := { onePixel with imgLeft := 1 };
      s.host = [] ∧ s.phase = .busy ∧ s.stage = .compose ∧ ¬(s.imgLeft.toNat + s.imgW.toNat ≤ s.canvasW.toNat)) ∧
    (let s := { onePixel with idx := [2] };
      s.apal.length = 256 ∧ s.apalLen.toNat ≤ 256 ∧ 0 < s.imgW.toNat * s.imgH.toNat ∧ s.apalLen.toNat ≤ pixelIndex s 0) ∧
    (let s := { onePixel with canvasW := 2, imgW := 2, idx := [1, 2] };
      s.apal.length = 256 ∧ 1 < s.imgW.toNat * s.imgH.toNat ∧ s.apalLen.toNat ≤ pixelIndex s 1 ∧
      ∀ j, j < 1 → pixelIndex s j < s.apalLen.toNat) := by decide +kernel
/-- P7's 2×2 image: `IDX = [1]` and background index 2 in a palette of three; its first n pixels, for every n. -/
def backfilled : State :=
  { onePixel with
    canvasW := 2
    canvasH := 2
    canvas := [.transparent, .transparent, .transparent, .transparent]
    imgW := 2
    imgH := 2
    apal := writeEntries State.reset.apal [⟨0, 0, 0, false⟩, ⟨255, 0, 0, false⟩, ⟨0, 255, 0, false⟩]
    apalLen := 3
    bgIndex := 2 }
theorem witness_RectangleIsPainted :
    0 < backfilled.idx.length ∧ backfilled.idx.length ≤ 1 ∧
    backfilled.canvas.length = backfilled.canvasW.toNat * backfilled.canvasH.toNat ∧
    backfilled.imgLeft.toNat + backfilled.imgW.toNat ≤ backfilled.canvasW.toNat ∧
    backfilled.imgTop.toNat + backfilled.imgH.toNat ≤ backfilled.canvasH.toNat ∧
    4 ≤ backfilled.imgW.toNat * backfilled.imgH.toNat ∧
    (∀ k, k < 4 → pixelIndex backfilled k < backfilled.apalLen.toNat ∧ backfilled.apal[pixelIndex backfilled k]? =
      some (if k = 0 then ⟨255, 0, 0, false⟩ else ⟨0, 255, 0, false⟩)) := by decide
/-- P7: the frame is R G G G; the first of the four pixels alone is R. -/
theorem test_backfill : paintRect backfilled = ([.rgb 255 0 0, .rgb 0 255 0, .rgb 0 255 0, .rgb 0 255 0], true) ∧
    (paint backfilled 1 0 backfilled.canvas).1 = [.rgb 255 0 0, .transparent, .transparent, .transparent] := by decide
theorem witness_PaintedCanvasIsEmitted : onePixel.host = [] ∧ onePixel.phase = .busy ∧ onePixel.stage = .compose ∧
    onePixel.imgLeft.toNat + onePixel.imgW.toNat ≤ onePixel.canvasW.toNat ∧
    onePixel.imgTop.toNat + onePixel.imgH.toNat ≤ onePixel.canvasH.toNat ∧ (paintRect onePixel).2 = true ∧
    onePixel.cfg.frameCapacity = none ∧
    (let s := { onePixel with cfg := { Config.default with frameCapacity := some 1 } };
      s.cfg.frameCapacity = some 1 ∧ s.frameCount.toNat < 1 ∧ (paintRect s).2 = true) ∧
    (let s := { onePixel with cfg := { Config.default with frameCapacity := some 0 } };
      s.cfg.frameCapacity = some 0 ∧ 0 ≤ s.frameCount.toNat ∧ (paintRect s).2 = true) := by decide
theorem witness_PreviousRestores : onePixel.host = [] ∧ onePixel.phase = .busy ∧ onePixel.stage = .compose ∧
    (∃ t, step onePixel = .next t ∧ (t.phase == .busy && nextIs (exec .disposePrevious t) (fun _ => true)) = true) :=
  ⟨rfl, rfl, rfl, nextIs_exists (by decide)⟩
theorem witness_ReservedDisposal : onePixel.cfg.reservedDisposal = .fault ∧
    ({ onePixel with cfg := { Config.default with reservedDisposal := .asNoAction } } : State).cfg.reservedDisposal = .asNoAction := by
  decide
theorem witness_ImageBlockRetires : (inBlock .retire).host = [] ∧ (inBlock .retire).phase = .busy ∧ (inBlock .retire).stage = .retire := by
  decide
theorem witness_TransparencyTest : Inv (inBlock .compose) ∧ (inBlock .compose).phase = .busy ∧ (inBlock .compose).stage = .compose ∧
    (1#3 : BitVec 3) ≠ 2#3 := ⟨inBlock_compose, rfl, rfl, by decide⟩
/-- V-H7, V-H10. -/
theorem witness_StartBeginsADecode :
    ((idle [.writeReg 0x00 1]).host = .writeReg 0x00#8 1 :: [] ∧ (1 : Word).getLsbD 0 = true ∧ (idle []).phase ≠ .busy) ∧
    (0xFFFFFFFE : Word).getLsbD 0 = false ∧ (running .walker []).phase = .busy := by decide
theorem witness_OtherRegisterWrites : (idle [.writeReg 0x08 5]).host = .writeReg 0x08#8 5 :: [] ∧ (idle []).phase ≠ .busy ∧
    ({ running .walker [] with host := [.writeReg 0x08 5] } : State).phase = .busy ∧
    0x28 ≤ (0x28 : BitVec 8).toNat ∧ 0x28 ≤ (0xFF : BitVec 8).toNat := by decide
theorem witness_RegistersRead : ∀ off ∈ [(0x00 : BitVec 8), 0x04, 0x08, 0x0C, 0x10, 0x14, 0x18, 0x1C, 0x20, 0x24, 0x28, 0xFC],
    (idle [.readReg off]).host = .readReg off :: [] ∧ (idle [.readReg off]).phase ≠ .busy ∧ (off.toNat % 4 = 0 ∨ 0x28 ≤ off.toNat) := by
  decide
/-- Frame 0, pixel 0, and the first frame and pixel past the end. -/
theorem witness_FrameWindow : Inv (shown [.readFrame 0 0]) ∧ Inv (shown [.readDelay 0]) ∧ (shown []).phase ≠ .busy ∧
    (shown []).frames[(0 : Word).toNat]? = some ⟨[.rgb 255 0 0], 100⟩ ∧ (shown []).frames.length ≤ (1 : Word).toNat ∧
    (shown []).canvasW.toNat * (shown []).canvasH.toNat ≤ (1 : Word).toNat :=
  ⟨shown_inv _, shown_inv _, by decide, by decide, by decide, by decide⟩
theorem witness_TagWindow :
    let s := { idle [.readTag 0] with phase := .done, tagLog := [⟨0x2C, none⟩, ⟨0x21, some 0xF9⟩] };
    s.phase ≠ .busy ∧ s.host = .readTag 0 :: [] ∧ s.tagLog[(0 : Word).toNat]? = some ⟨0x2C, none⟩ ∧
    s.tagLog[(1 : Word).toNat]? = some ⟨0x21, some 0xF9⟩ ∧ s.tagLog.length ≤ (2 : Word).toNat := by decide
theorem witness_ReadsWhileBusy : ∀ op ∈ [HostOp.readReg 0x08, .readReg 0x01, .readSrc 0xFFFFFFFD, .readFrame 0 0, .readDelay 0, .readTag 0],
    ({ running .walker [] with host := [op] } : State).host = op :: [] ∧
    ({ running .walker [] with host := [op] } : State).phase = .busy := by decide
theorem witness_HardwareReset : ({ running .walker [] with host := [.hardReset] } : State).host = .hardReset :: [] := by decide
theorem witness_EngineRests : (idle []).host = [] ∧ (idle []).phase ≠ .busy ∧ (shown []).host = [] ∧ (shown []).phase ≠ .busy := by decide
theorem witness_EngineNeverWrites : (∃ t, engineStep (inBlock .retire) = .next t ∧ true = true) ∧ (inBlock .retire).stage ≠ .container :=
  ⟨nextIs_exists (by decide), by decide⟩
theorem witness_InstructionFrames : ∀ i ∈ [Instr.gce, .comment, .eoi, .clear, .disposePrevious, .trailer],
    ∃ t, exec i (inBlock .extension) = .next t ∧ true = true := by
  intro i hi
  apply nextIs_exists
  revert i
  decide
theorem witness_EmittedFrames : ∃ t, engineStep onePixel = .next t ∧ (t.frameCount == 1) = true := nextIs_exists (by decide)
theorem witness_CursorOnlyMovesForward :
    (Inv (inBlock .extension) ∧ ∃ t, engineStep (inBlock .extension) = .next t ∧ (t.stage == .walker) = true) ∧
    (Inv (inBlock .retire) ∧ ∃ t, engineStep (inBlock .retire) = .next t ∧ (t.stage == .walker) = true) ∧
    (Inv (inBlock .walker) ∧ ∃ t, engineStep (inBlock .walker) = .next t ∧ (t.result == .none) = true) :=
  ⟨⟨inBlock_extension, nextIs_exists (by decide)⟩, ⟨inBlock_retire, nextIs_exists (by decide)⟩,
    ⟨inBlock_walker, nextIs_exists (by decide)⟩⟩
theorem witness_EveryStepKeepsTheInvariant : Inv (idle [.writeReg 0 1]) ∧
    ∃ t, step (idle [.writeReg 0 1]) = .next t ∧ (t.phase == .busy) = true := ⟨idle_inv _, nextIs_exists (by decide)⟩
theorem witness_NoAllowedMoveStops : ∀ op ∈ [HostOp.yield, .hardReset, .writeReg 0x00 1, .writeReg 0x28 0, .readReg 0x01, .writeSrc 0xFFFFFFFE 0,
      .readSrc 0, .readFrame 0 0, .readDelay 0, .readTag 0], Inv (idle [op]) ∧ moveAllowed (idle [op]) = true := by
  intro op hop
  refine ⟨idle_inv _, ?_⟩
  revert op
  decide
theorem witness_DisallowedHostMoves : ({ running .walker [] with host := [.writeSrc 0 0] } : State).phase = .busy ∧
    (idle []).phase ≠ .busy ∧ (0xFFFFFFFF : Word).toNat = 2 ^ 32 - 1 ∧
    (0x27 : BitVec 8).toNat < 0x28 ∧ (0x27 : BitVec 8).toNat % 4 ≠ 0 := by decide
theorem witness_EveryDecodeEnds : Inv (inBlock .walker) ∧ (inBlock .walker).phase = .busy ∧ (inBlock .walker).host = [] :=
  ⟨inBlock_walker, rfl, rfl⟩
/-- The second machine has run before, and its memory differs past N. -/
theorem witness_DecodeDependsOnTheLaunchAlone :
    let s₁ := idle [];
    let s₂ := { shown [] with src := [(0, 0x3B#8), (7, 0xAA#8)] };
    Inv s₁ ∧ s₁.cfg = s₂.cfg ∧ s₁.srcLen = s₂.srcLen ∧ s₁.host = [] ∧ s₂.host = [] ∧
    (∀ p, p < srcEnd s₁ → srcByte s₁ p = srcByte s₂ p) ∧
    ∃ t, Host.Core.run core 1 (startDecode s₁) = .next t ∧ (t.result == .formatError) = true :=
  ⟨idle_inv _, rfl, rfl, rfl, rfl, by decide, nextIs_exists (by decide)⟩

end Sys2Proof.Tests
end

section
/-! The engine's fetch: at each stage that fetches, what a step runs once the word at hand decodes. -/

namespace Sys2Proof.Machine

/-- A word that decodes is run (30_encoding R103). -/
theorem runWord_of_decode {f : Format} {w : Nat} {i : Instr} (hd : decode f w = .ok i) (s : State) :
    runWord f w s = exec i s := by
  simp only [runWord, hd]

section
variable {s : State} {i : Instr}

/-- The tag is logged before its instruction runs (41_block_walker R130). -/
theorem walkerStep_of_decode (hcur : s.cur.toNat < srcEnd s) (hd : decode .tag8 (srcByte s s.cur.toNat).toNat = .ok i) :
    walkerStep s = exec i (logTag (srcByte s s.cur.toNat) s) := by
  simp only [walkerStep, if_neg (Nat.not_le.mpr hcur)]
  exact runWord_of_decode hd _

theorem extensionStep_of_decode (hd : decode .ext16 (extWord s) = .ok i) : extensionStep s = exec i s :=
  runWord_of_decode hd s

/-- The code is taken from the bit stream before its instruction runs (42_lzw R174). -/
theorem lzwStep_of_decode {t : State} {c : Code} (hread : readCode s = (t, some c))
    (hd : decode (.lzwCode (lzwCtx t)) c.toNat = .ok i) : lzwStep s = exec i t := by
  simp only [lzwStep, hread]
  exact runWord_of_decode hd t

theorem disposeStep_of_decode (hd : decode .disposal3 s.gceDisposal.toNat = .ok i) : disposeStep s = exec i s :=
  runWord_of_decode hd s

end

/-- Settles O12: the move is read off the head of the host's list, and at each fetching stage the engine's step is that stage's
step, which runs the decoded word. -/
theorem stepRunsTheDecodedInstruction : Obligations.StepRunsTheDecodedInstruction := by
  refine ⟨fun s => step_engine, fun s rest => step_yield, fun s i hhost hbusy => ?_⟩
  rw [step_engine hhost]
  refine ⟨fun hstage hcur hd => ?walker, fun hstage hd => ?extension, fun t c hstage hread hd => ?lzw,
    fun hstage hd => ?dispose⟩
  case walker => rw [engineStep_walker hbusy hstage, walkerStep_of_decode hcur hd]
  case extension => rw [engineStep_extension hbusy hstage, extensionStep_of_decode hd]
  case lzw => rw [engineStep_lzw hbusy hstage, lzwStep_of_decode hread hd]
  case dispose => rw [engineStep_dispose hbusy hstage, disposeStep_of_decode hd]

end Sys2Proof.Machine
end

section
/-! The state after reset (10_state R51), and the invariant: right after reset, and kept by every step (42_lzw R189). -/

namespace Sys2Proof.Machine

/-- Settles O49: the palettes are 256 zero entries, and every other value is the one written in the reset state. -/
theorem resetValuesAreTheSpecs : Obligations.ResetValuesAreTheSpecs := by
  have hentries : ∀ e ∈ State.reset.gpal ++ State.reset.apal, e = ⟨0, 0, 0, false⟩ := by
    intro e he
    rcases List.mem_append.mp he with he | he <;> exact List.eq_of_mem_replicate he
  refine ⟨rfl, rfl, rfl, rfl, rfl, rfl, rfl, rfl, rfl, rfl, rfl, rfl, List.length_replicate, List.length_replicate, hentries, ?_⟩
  repeat' apply And.intro
  all_goals rfl

/-- Settles O55: after reset the outputs and the memories are empty, the palettes are those of the table and no decode runs. -/
theorem invariantHoldsAtReset : Obligations.InvariantHoldsAtReset where
  memory := ⟨⟨List.Pairwise.nil, fun _ hc => (nomatch hc)⟩, List.Pairwise.nil, fun _ hc => (nomatch hc)⟩
  palette := reset_paletteInv
  outcome := ⟨⟨fun hdone => (nomatch hdone), fun hresult => absurd rfl hresult⟩, rfl, fun _ => rfl⟩
  output := outputInv_of_empty rfl rfl rfl rfl
  running := fun hbusy => (nomatch hbusy)

/-- The engine's move keeps the invariant, stage by stage. -/
theorem engineStep_inv {s t : State} (h : Inv s) (ht : engineStep s = .next t) : Inv t := by
  by_cases hp : s.phase = .busy
  · cases hs : s.stage with
    | container => rw [engineStep_container hp hs] at ht; cases ht; exact containerPhase_inv h hp hs
    | walker => rw [engineStep_walker hp hs] at ht; exact walkerStep_inv h hp hs ht
    | extension => rw [engineStep_extension hp hs] at ht; exact extensionStep_inv h hp hs ht
    | lzwSetup => rw [engineStep_lzwSetup hp hs] at ht; cases ht; exact lzwSetup_inv h hp hs
    | lzw => rw [engineStep_lzw hp hs] at ht; exact lzwStep_inv h hp hs ht
    | compose => rw [engineStep_compose hp hs] at ht; cases ht; exact composeStep_inv h hp hs
    | dispose => rw [engineStep_dispose hp hs] at ht; exact disposeStep_inv h hp hs ht
    | retire => rw [engineStep_retire hp hs] at ht; cases ht; exact retireImage_inv h hp hs
  · rw [engineStep_rest hp] at ht; cases ht; exact h

/-- Taking a move off the host's list keeps the invariant. -/
theorem Inv.withPending {s : State} (h : Inv s) (rest : List HostOp) : Inv { s with host := rest } :=
  h.withHost rest s.busData s.freeIdx

/-- Settles O56: a step is the engine's move or the host's, and each keeps the invariant. -/
theorem everyStepKeepsTheInvariant : Obligations.EveryStepKeepsTheInvariant := by
  intro s t h ht
  cases hhost : s.host with
  | nil => rw [step_engine hhost] at ht; exact engineStep_inv h ht
  | cons op rest =>
    by_cases hop : op = .yield
    · subst hop
      rw [step_yield hhost] at ht
      exact engineStep_inv (h.withPending rest) ht
    · rw [step_host hhost hop] at ht
      exact hostStep_inv op (h.withPending rest) ht

end Sys2Proof.Machine
end

section
/-! What the host reads and writes: the register window (10_state R43 to R49) and the frame window (R50; 20_memory R68). -/

namespace Sys2Proof.Machine

/-! ## Register moves -/

/-- At rest every offset the map names reads its word. -/
theorem hostReadReg_rest {s : State} (hrest : s.phase ≠ .busy) {off : BitVec 8} {w : Word} (hw : registerWord s off = some w) :
    hostReadReg off s = .next { s with busData := w } := by
  by_cases hstatus : off = 0x04#8
  · subst hstatus
    cases hw
    rfl
  · simp only [hostReadReg, if_neg hstatus, hw, answerAtRest_rest hrest]

/-- While BUSY every offset but that of `STATUS` reads a free draw, named by the map or not. -/
theorem hostReadReg_busy {s : State} (hbusy : s.phase = .busy) {off : BitVec 8} (hoff : off ≠ 0x04#8) :
    hostReadReg off s = .next { s with busData := Config.undefinedRead s.freeIdx, freeIdx := s.freeIdx + 1 } := by
  simp only [hostReadReg, if_neg hoff]
  cases registerWord s off with
  | none => rfl
  | some w => exact answerAtRest_busy hbusy w

/-- An offset the map names, other than `CTRL` and `SRC_LEN`, ignores a write. -/
theorem hostWriteReg_ignored {off : BitVec 8} (hctrl : off ≠ 0x00#8) (hlen : off ≠ 0x08#8)
    (hnamed : off.toNat % 4 = 0 ∨ 0x28 ≤ off.toNat) (v : Word) (s : State) : hostWriteReg off v s = .next s := by
  obtain ⟨w, hw⟩ := registerWord_isSome hnamed s
  simp only [hostWriteReg, if_neg hctrl, if_neg hlen, hw, Option.isSome_some, if_true]

/-- A write of `CTRL` with bit 0 set starts a decode unless one is running (R44). -/
theorem hostWriteReg_ctrl (v : Word) (s : State) :
    hostWriteReg 0x00#8 v s = .next (if v.getLsbD 0 ∧ s.phase ≠ .busy then startDecode s else s) := rfl

/-- A write of `SRC_LEN` takes effect unless a decode is running (R46). -/
theorem hostWriteReg_srcLen (v : Word) (s : State) :
    hostWriteReg 0x08#8 v s = .next (if s.phase = .busy then s else { s with srcLen := v }) := rfl

/-- The read-only offsets of R43 are named by the map, and are neither `CTRL` nor `SRC_LEN`. -/
theorem readOnly_offsets : ∀ off ∈ [0x04#8, 0x0C#8, 0x10#8, 0x14#8, 0x18#8, 0x1C#8, 0x20#8, 0x24#8],
    off ≠ 0x00#8 ∧ off ≠ 0x08#8 ∧ off.toNat % 4 = 0 := by decide

/-- Settles O42: a write of `CTRL` is `startDecode` under the guard of R44, and nothing otherwise. -/
theorem startBeginsADecode : Obligations.StartBeginsADecode := by
  intro s v rest hhost
  rw [step_host hhost (by simp), hostStep, hostWriteReg_ctrl]
  refine ⟨fun hstart hrest => ?_, fun hno => ?_⟩
  · rw [if_pos ⟨hstart, hrest⟩]
    rfl
  · rw [if_neg fun ⟨hstart, hrest⟩ => hno.elim (fun hclear => nomatch hclear.symm.trans hstart) hrest]

/-- Settles O43: `SRC_LEN` is written unless the phase is BUSY, and every other offset of the statement is one the map names. -/
theorem otherRegisterWrites : Obligations.OtherRegisterWrites := by
  intro s off v rest hhost
  rw [step_host hhost (by simp), hostStep]
  refine ⟨fun hoff hrest => ?_, fun hoff hbusy => ?_, fun hoff => ?_, fun hoff => ?_⟩
  · rw [hoff, hostWriteReg_srcLen, if_neg hrest]
  · rw [hoff, hostWriteReg_srcLen, if_pos hbusy]
  · obtain ⟨hctrl, hlen, haligned⟩ := readOnly_offsets off hoff
    exact hostWriteReg_ignored hctrl hlen (.inl haligned) v _
  · have hctrl : off ≠ 0x00#8 := offset_ne (n := 0) (by omega) (by omega)
    have hlen : off ≠ 0x08#8 := offset_ne (n := 8) (by omega) (by omega)
    exact hostWriteReg_ignored hctrl hlen (.inr hoff) v _

/-- Settles O44: `STATUS` is answered in every phase, and at rest each offset answers its row of the register map. -/
theorem registersReadTheirFields : Obligations.RegistersReadTheirFields := by
  intro s off rest hhost
  rw [step_host hhost (by simp)]
  refine ⟨fun hoff => ?_, fun hrest hnamed => ?_⟩
  · subst hoff
    refine ⟨statusWord s, rfl, ?_⟩
    rw [statusWord_toNat]
    cases s.phase <;> rfl
  · obtain ⟨w, hw⟩ := registerWord_isSome hnamed s
    have row : ∀ {n : BitVec 8} {x : Word}, registerWord s n = some x → off = n → w = x := fun hrow hoff =>
      Option.some.inj (hw.symm.trans (hoff ▸ hrow))
    refine ⟨w, hostReadReg_rest (s := { s with host := rest }) hrest hw, row rfl, row rfl, row rfl, fun hoff => ?_,
      fun hoff => ?_, fun hoff => ?_, row rfl, row rfl, row rfl, fun hoff => row (registerWord_reserved hoff s) rfl⟩
    · rw [row (x := canvasDimWord s) rfl hoff, canvasDimWord_toNat]
    · rw [row (x := screenInfoWord s) rfl hoff, screenInfoWord_toNat]
    · rw [row (x := versionWord s) rfl hoff, versionWord_toNat]

/-- Settles O47: each of these reads is answered by a free draw, which the counter then moves past. -/
theorem readsWhileBusyAreUnspecified : Obligations.ReadsWhileBusyAreUnspecified := by
  intro s op rest hhost hbusy hop
  refine ⟨Config.undefinedRead s.freeIdx, ?_⟩
  have hanswer : ∀ w, answerAtRest w { s with host := rest } = .next { s with
      host := rest, busData := Config.undefinedRead s.freeIdx, freeIdx := s.freeIdx + 1 } := answerAtRest_busy hbusy
  rcases hop with ⟨off, hoff, rfl⟩ | ⟨a, ha, rfl⟩ | ⟨k, i, rfl⟩ | ⟨k, rfl⟩ | ⟨j, rfl⟩ <;> rw [step_host hhost (by simp)]
  · exact hostReadReg_busy (s := { s with host := rest }) hbusy hoff
  · exact (if_pos ha).trans (hanswer _)
  · exact hanswer _
  · exact hanswer _
  · exact hanswer _

/-! ## The frame window -/

theorem frameWord_outside {s : State} {k i : Nat} (h : s.frameCount.toNat ≤ k ∨ canvasPixels s ≤ i) : frameWord s k i = 0 := by
  rw [frameWord, if_neg (by omega)]

/-- Inside the window a read answers the pixel's word. -/
theorem frameWord_pixel {s : State} {k i : Nat} {f : Frame} {px : Pixel} (hk : k < s.frameCount.toNat) (hi : i < canvasPixels s)
    (hf : s.frames[k]? = some f) (hpx : f.pixels[i]? = some px) : frameWord s k i = pixelWord px := by
  simp only [frameWord, if_pos (And.intro hk hi), hf, hpx]

/-- A stored pixel lies inside the window. -/
theorem OutputInv.pixel_inside {s : State} (h : OutputInv s) {k i : Nat} {f : Frame} {px : Pixel} (hf : s.frames[k]? = some f)
    (hpx : f.pixels[i]? = some px) : k < s.frameCount.toNat ∧ i < canvasPixels s := by
  obtain ⟨hk, -⟩ := List.getElem?_eq_some_iff.mp hf
  obtain ⟨hi, -⟩ := List.getElem?_eq_some_iff.mp hpx
  rw [h.frameCount, ← h.frameSize f (List.mem_of_getElem? hf)]
  exact ⟨hk, hi⟩

/-- Inside the window there is a stored pixel: every frame is a whole canvas. -/
theorem OutputInv.exists_pixel {s : State} (h : OutputInv s) {k i : Nat} (hk : k < s.frames.length) (hi : i < canvasPixels s) :
    ∃ f px, s.frames[k]? = some f ∧ f.pixels[i]? = some px :=
  have hsize : i < s.frames[k].pixels.length := by rw [h.frameSize _ (List.getElem_mem hk)]; exact hi
  ⟨_, _, List.getElem?_eq_getElem hk, List.getElem?_eq_getElem hsize⟩

theorem OutputInv.delayWord_eq {s : State} (h : OutputInv s) (k : Nat) :
    delayWord s k = ((s.frames[k]?).map (·.delayMs)).getD 0 := by
  by_cases hk : k < s.frames.length
  · simp only [delayWord, h.frameCount, if_pos hk, List.getElem?_eq_getElem hk, Option.map_some, Option.getD_some]
  · rw [delayWord, h.frameCount, if_neg hk, List.getElem?_eq_none (by omega)]
    rfl

/-- Settles O45: with the count and the frames of the invariant, the windows read exactly the stored pixels and delays. -/
theorem frameWindowReadsTheFrames : Obligations.FrameWindowReadsTheFrames := by
  intro s k i rest hinv hrest
  have hout := hinv.output
  refine ⟨fun hhost => ?_, fun hhost => ?_⟩ <;> rw [step_host hhost (by simp)]
  · refine ⟨frameWord s k.toNat i.toNat, answerAtRest_rest (s := { s with host := rest }) hrest _, fun hoff => ?_,
      fun f px hf hpx => ?_, hout.exists_pixel⟩
    · exact frameWord_outside (by rw [hout.frameCount]; exact hoff)
    · obtain ⟨hk, hi⟩ := hout.pixel_inside hf hpx
      rw [frameWord_pixel hk hi hf hpx]
      cases px with
      | transparent => rfl
      | rgb r g b => exact pixelWord_toNat_rgb r g b
  · rw [← hout.delayWord_eq]
    exact answerAtRest_rest (s := { s with host := rest }) hrest _

end Sys2Proof.Machine
end

section
/-! What a step of the engine and each family of instructions leaves unchanged. -/

namespace Sys2Proof.Machine

/-- Settles O51: the frames `KeepsHost` of every stage and `KeepsSource` of every stage but the container phase. -/
theorem engineNeverWritesSourceOrScreen : Obligations.EngineNeverWritesSourceOrScreen := by
  intro s t h
  obtain ⟨hsrc, hlen, hcfg, hhost, hbus, hfree, hepoch⟩ := engineStep_keepsHost h
  refine ⟨hsrc, hlen, hcfg, hhost, hbus, hfree, hepoch, srcByte_congr hsrc hepoch, fun hstage => ?_⟩
  have k := engineStep_keepsSource hstage h
  exact ⟨k.sig, k.version, k.canvasW, k.canvasH, k.hasGct, k.gctSize, k.bgIndex, k.gpal⟩

/-! ## Emitted frames -/

theorem containerPhase_frames (s : State) : (containerPhase s).frames = s.frames := by
  unfold containerPhase containerTail
  repeat' split
  all_goals rfl

theorem lzwSetup_frames (s : State) : (lzwSetup s).frames = s.frames := by
  obtain ⟨c, e, z, m, n, hinit⟩ := initLzw_frame s
  unfold lzwSetup
  split
  · rfl
  · rw [hinit]

theorem readCode_frames (s : State) : (readCode s).1.frames = s.frames := by rw [readCode_frame s]

/-- The compositor emits at most one frame (43_compositor R216); every other stage keeps them all. -/
theorem engineStep_frames {s t : State} (h : engineStep s = .next t) :
    t.frames = s.frames ∨ ∃ f, t.frames = s.frames ++ [f] := by
  by_cases hp : s.phase = .busy
  · cases hs : s.stage with
    | container => rw [engineStep_container hp hs] at h; cases h; exact .inl (containerPhase_frames s)
    | walker =>
      rw [engineStep_walker hp hs] at h
      rcases walkerStep_cases h with ⟨-, rfl⟩ | ⟨-, i, -, hx⟩
      · exact .inl rfl
      · exact .inl (exec_keepsFrames hx).1
    | extension =>
      rw [engineStep_extension hp hs] at h
      obtain ⟨i, -, hx⟩ := runWord_cases h
      exact .inl (exec_keepsFrames hx).1
    | lzwSetup => rw [engineStep_lzwSetup hp hs] at h; cases h; exact .inl (lzwSetup_frames s)
    | lzw =>
      rw [engineStep_lzw hp hs] at h
      rcases lzwStep_fetch_cases h with rfl | ⟨c, i, -, -, hx⟩
      · exact .inl (readCode_frames s)
      · exact .inl ((exec_keepsFrames hx).1.trans (readCode_frames s))
    | compose =>
      rw [engineStep_compose hp hs] at h; cases h
      rcases composeStep_cases s with ⟨r, canvas, -, -, heq⟩ | ⟨canvas, -, -, heq⟩ <;> rw [heq]
      · exact .inl rfl
      · exact .inr ⟨_, rfl⟩
    | dispose =>
      rw [engineStep_dispose hp hs] at h
      obtain ⟨i, -, hx⟩ := runWord_cases h
      exact .inl (exec_keepsFrames hx).1
    | retire => rw [engineStep_retire hp hs] at h; cases h; exact .inl rfl
  · rw [engineStep_rest hp] at h; cases h; exact .inl rfl

/-- Settles O53: the frames after a step are those before it, or those and one more. -/
theorem emittedFramesNeverChange : Obligations.EmittedFramesNeverChange := by
  intro s t h
  rcases engineStep_frames h with hsame | ⟨f, hmore⟩
  · exact ⟨[], by rw [hsame, List.append_nil], Nat.zero_le 1⟩
  · exact ⟨[f], hmore, Nat.le_refl 1⟩

/-! ## The instructions, family by family -/

/-- `s` with the fields the row of `i` may write as they stand in `t`, the control registers and the model's stage apart
(10_state R24, R28, R29, R31 to R36, R39). -/
def withWritten (i : Instr) (s t : State) : State :=
  match i with
  | .image =>
    { s with
      imgLeft := t.imgLeft, imgTop := t.imgTop, imgW := t.imgW, imgH := t.imgH, imgLct := t.imgLct, imgLctSize := t.imgLctSize,
      imgInterlace := t.imgInterlace, apal := t.apal, apalLen := t.apalLen, minCodeSize := t.minCodeSize, data := t.data,
      blockEnd := t.blockEnd }
  | .extension => { s with tagLog := t.tagLog }
  | .gce =>
    { s with
      gceDelay := t.gceDelay, gceDisposal := t.gceDisposal, gceTflag := t.gceTflag, gceTindex := t.gceTindex, cur := t.cur }
  | .trailer | .app | .comment => { s with cur := t.cur }
  | .tagUnknown _ | .plainText | .extUnknown _ => s
  | .invalid _ | .eoi | .clear | .first _ | .firstNonliteral _ | .literal _ | .table _ | .kwkwk _ =>
    { s with
      clearCode := t.clearCode, eoiCode := t.eoiCode, codeSize := t.codeSize, codeMask := t.codeMask, nextCode := t.nextCode,
      prevCode := t.prevCode, bitBuf := t.bitBuf, bitCnt := t.bitCnt, rdPtr := t.rdPtr, table := t.table, idx := t.idx }
  | .disposeNone | .disposeKeep | .disposeBackground | .disposePrevious | .disposeReserved _ => { s with canvas := t.canvas }

/-- `s` with the control registers of an ending (60_exceptions R249) and the model's stage as they stand in `t`. -/
def withControl (s t : State) : State :=
  { s with result := t.result, faultPos := t.faultPos, phase := t.phase, stage := t.stage }

theorem execImage_frame {s t : State} (h : execImage s = .next t) : t = withControl (withWritten .image s t) t := by
  have hpalette := imagePalette_frame s.cur.toNat (s.cur.toNat + 10) s
  rcases execImage_cases h with rfl | rfl | ⟨b, rfl⟩ | ⟨b, r, q, -, -, rfl⟩
  · rfl
  · rfl
  all_goals
    generalize markTransparent (selectPalette (s.cur.toNat + 10) (readDescriptor s.cur.toNat s)) = m at *
    rw [hpalette]
    rfl

/-- Emitting a run writes LZW registers only, so it is in the frame of each row that does it. -/
theorem emitRun_writes (run : List Sym) (pc : Code) (k : Sym) (c : Code) (s : State) :
    emitRun run pc k c s = withControl (withWritten (.literal c) s (emitRun run pc k c s)) (emitRun run pc k c s) := by
  have hframe := emitRun_frame run pc k c s
  generalize emitRun run pc k c s = t at *
  rw [hframe]
  rfl

/-- An instruction writes the fields of its row, the control registers and the stage, and nothing else. -/
theorem exec_frame {i : Instr} {s t : State} (h : exec i s = .next t) : t = withControl (withWritten i s t) t := by
  cases i with
  | image => exact execImage_frame h
  | extension => rcases execExtension_cases h with rfl | ⟨-, rfl⟩ <;> rfl
  | gce =>
    rcases execGce_cases h with rfl | ⟨-, heq⟩
    · rfl
    · rw [heq]; rfl
  | app => rcases execApp_cases h with rfl | ⟨r, -, rfl⟩ <;> rfl
  | comment => rcases execComment_cases h with rfl | ⟨r, -, rfl⟩ <;> rfl
  | literal c => obtain ⟨pc, -, rfl⟩ := execLiteral_cases h; exact emitRun_writes ..
  | table c => obtain ⟨pc, k, r, -, -, rfl⟩ := execTable_cases h; exact emitRun_writes ..
  | kwkwk c => obtain ⟨pc, k, r, -, -, rfl⟩ := execKwkwk_cases h; exact emitRun_writes ..
  | disposeReserved v =>
    simp only [exec, execDisposeReserved] at h
    split at h <;> cases h <;> rfl
  | trailer | tagUnknown _ | plainText | extUnknown _ | invalid _ | eoi | clear | first _ | firstNonliteral _ | disposeNone
  | disposeKeep | disposeBackground | disposePrevious => cases h; rfl

/-- Settles O52: a field outside the instruction's row is the same in `withWritten`, and the row's family is read off its format. -/
theorem instructionFrames : Obligations.InstructionFrames := by
  intro k i s t h
  have hsource := exec_keepsSource h
  refine ⟨srcByte_congr hsource.src hsource.srcEpoch, ?_⟩
  rw [exec_frame h]
  cases i <;> simp [withControl, withWritten, Instr.format]

end Sys2Proof.Machine
end


section
/-! `SRC` through the host's port (20_memory R60, R62; 70_reset R272), the tag-log window (20_memory R69), and the host's moves
the model stops on by name (log 7 to 9). -/

namespace Sys2Proof.Machine

/-! ## Source moves -/

/-- A byte written is the byte read there, and every other byte reads as before. -/
theorem srcByte_insert (s : State) (a : Nat) (b : Byte) :
    srcByte { s with src := cellInsert s.src a b } a = b ∧
      ∀ p, p ≠ a → srcByte { s with src := cellInsert s.src a b } p = srcByte s p := by
  refine ⟨?_, fun p hp => ?_⟩
  · simp only [srcByte, cellLookup_insert_same]
  · simp only [srcByte, cellLookup_insert_other s.src b hp]

section
variable {s : State} {a : Word}

theorem hostWriteSrc_rest (hrest : s.phase ≠ .busy) (ha : a.toNat < srcSpace) (b : Byte) :
    hostWriteSrc a b s = .next { s with src := cellInsert s.src a.toNat b } := by
  rw [hostWriteSrc, if_neg hrest, if_pos ha]

theorem hostReadSrc_rest (hrest : s.phase ≠ .busy) (ha : a.toNat < srcSpace) :
    hostReadSrc a s = .next { s with busData := (srcByte s a.toNat).setWidth 32 } := by
  rw [hostReadSrc, if_pos ha, answerAtRest_rest hrest]

theorem hostWriteSrc_busy (hbusy : s.phase = .busy) (b : Byte) : hostWriteSrc a b s = .refused .srcWriteWhileBusy := by
  rw [hostWriteSrc, if_pos hbusy]

theorem hostWriteSrc_outside (hrest : s.phase ≠ .busy) (ha : ¬a.toNat < srcSpace) (b : Byte) :
    hostWriteSrc a b s = .fault .srcOffsetOutsideSpace := by
  rw [hostWriteSrc, if_neg hrest, if_neg ha]

theorem hostReadSrc_outside (ha : ¬a.toNat < srcSpace) : hostReadSrc a s = .fault .srcOffsetOutsideSpace := by
  rw [hostReadSrc, if_neg ha]

end

/-- Settles O9: a write at rest is one insertion into the sparse memory, and a read puts the byte on the bus. -/
theorem sourceBytesReadBack : Obligations.SourceBytesReadBack := by
  refine ⟨fun s a b rest hhost hrest ha => ?_, fun s a rest hhost hrest ha => ?_⟩
  · obtain ⟨hsame, hother⟩ := srcByte_insert { s with host := rest } a.toNat b
    refine ⟨{ s with host := rest, src := cellInsert s.src a.toNat b }, ?_, hsame, hother, srcU16_toNat _, rfl⟩
    rw [step_host hhost (by simp)]
    exact hostWriteSrc_rest (s := { s with host := rest }) hrest ha b
  · refine ⟨(srcByte s a.toNat).setWidth 32, ?_, BitVec.toNat_setWidth_of_le (by omega)⟩
    rw [step_host hhost (by simp)]
    exact hostReadSrc_rest (s := { s with host := rest }) hrest ha

/-! ## The tag-log window -/

theorem tagLogWord_stored {s : State} {j : Nat} {e : TagEntry} (he : s.tagLog[j]? = some e) : tagLogWord s j = tagWord e := by
  simp only [tagLogWord, he]

theorem tagLogWord_beyond {s : State} {j : Nat} (hj : s.tagLog.length ≤ j) : tagLogWord s j = 0 := by
  simp only [tagLogWord, List.getElem?_eq_none hj]

/-- Settles O46: at rest the window answers the word of the stored entry, whose fields are those of R69, and 0 past the log. -/
theorem tagWindowReadsTheLog : Obligations.TagWindowReadsTheLog := by
  intro s j rest hrest hhost
  rw [step_host hhost (by simp)]
  refine ⟨tagLogWord s j.toNat, answerAtRest_rest (s := { s with host := rest }) hrest _, tagLogWord_beyond, fun tag he => ?_,
    fun tag label he => ?_⟩
  · rw [tagLogWord_stored he, tagWord_toNat_none]
  · rw [tagLogWord_stored he, tagWord_toNat_some]

/-! ## Moves with no meaning -/

/-- A write at an offset the map does not name is refused (log 8). -/
theorem hostWriteReg_unnamed {off : BitVec 8} (hlow : off.toNat < 0x28) (hodd : off.toNat % 4 ≠ 0) (v : Word) (s : State) :
    hostWriteReg off v s = .refused .unalignedRegisterWrite := by
  have hctrl : off ≠ 0x00#8 := offset_ne (n := 0) (by omega) (by omega)
  have hlen : off ≠ 0x08#8 := offset_ne (n := 8) (by omega) (by omega)
  simp only [hostWriteReg, if_neg hctrl, if_neg hlen, registerWord_unaligned hlow hodd, Option.isSome_none, Bool.false_eq_true,
    if_false]

/-- The one offset of 32 bits outside the space of 20_memory R60. -/
theorem last_offset_outside {a : Word} (ha : a.toNat = 2 ^ 32 - 1) : ¬a.toNat < srcSpace := by
  rw [ha]
  exact Nat.lt_irrefl _

/-- Settles O58: each move is the head of the list, and its port's stop is named by the phase or the offset. -/
theorem disallowedHostMovesStopByName : Obligations.DisallowedHostMovesStopByName := by
  refine fun s rest => ⟨fun a b hhost hbusy => ?_, fun a b hhost hrest ha => ?_, fun a hhost ha => ?_,
    fun off v hhost hlow hodd => ?_⟩ <;> rw [step_host hhost (by simp)]
  · exact hostWriteSrc_busy (s := { s with host := rest }) hbusy b
  · exact hostWriteSrc_outside (s := { s with host := rest }) hrest (last_offset_outside ha) b
  · exact hostReadSrc_outside (last_offset_outside ha)
  · exact hostWriteReg_unnamed hlow hodd v _

end Sys2Proof.Machine
end

section
/-! A decode depends on its launch alone (70_reset R271, R278; 20_memory R61): the one-step law of Laws/Launch.lean along a run. -/

namespace Sys2Proof.Machine

/-- A run of `n + 1` steps that reaches a state is a step and a run of `n` steps. -/
theorem run_succ_next {n : Nat} {s t : State} :
    Host.Core.run core (n + 1) s = .next t ↔ ∃ u, step s = .next u ∧ Host.Core.run core n u = .next t := by
  have hcore : core.step s = step s := rfl
  simp only [Host.Core.run, hcore]
  cases step s <;> simp

/-- Inside an extension its tag and label lie below N. -/
theorem Inv.label_inside {s : State} (h : Inv s) (hbusy : s.phase = .busy) (hstage : s.stage = .extension) :
    s.cur.toNat + 2 ≤ srcEnd s := by
  have hst := h.running hbusy
  simp only [StageInv, hstage] at hst
  obtain ⟨-, hinside, -⟩ := hst
  exact hinside

section
variable {o : Other}

/-- With the part two launches may differ in exchanged, a run takes the same steps. -/
theorem run_reload {n : Nat} {s t : State} (hinv : Inv s) (hhost : s.host = []) (hagrees : Agrees o s)
    (hrun : Host.Core.run core n s = .next t) : Host.Core.run core n (reload o s) = .next (reload o t) := by
  induction n generalizing s with
  | zero => cases hrun; rfl
  | succ n ih =>
    obtain ⟨u, hstep, hrest⟩ := run_succ_next.mp hrun
    rw [step_engine hhost] at hstep
    have hkeep := engineStep_keepsHost hstep
    have hstep' : step (reload o s) = .next (reload o u) := by
      rw [step_engine (s := reload o s) hhost, engineStep_reload hagrees hinv.label_inside, hstep]
      rfl
    exact run_succ_next.mpr ⟨_, hstep', ih (engineStep_inv hinv hstep) (hkeep.host.trans hhost)
      (agrees_congr hagrees hkeep.src hkeep.srcEpoch hkeep.srcLen) hrest⟩

/-- No part of R273's result tuple is one two launches may differ in. -/
theorem observe_reload (s : State) : observe (reload o s) = observe s := rfl

end

/-- The part of a state that another with the same launch may differ in. -/
def otherOf (s : State) : Other := ⟨s.src, s.srcEpoch, s.busData, s.freeIdx⟩

/-- START keeps nothing else of what went before (70_reset R271). -/
theorem startDecode_eq_reload {s₁ s₂ : State} (hcfg : s₁.cfg = s₂.cfg) (hlen : s₁.srcLen = s₂.srcLen)
    (hhost : s₁.host = s₂.host) : startDecode s₂ = reload (otherOf s₂) (startDecode s₁) := by
  simp only [startDecode, clearDecode, reload, otherOf, hcfg, hlen, hhost]

/-- Settles O60: after START the second machine is the first with `SRC` past N and the host's records exchanged, and the run of the
first, carried over step by step, shows the same. -/
theorem decodeDependsOnTheLaunchAlone : Obligations.DecodeDependsOnTheLaunchAlone := by
  intro s₁ s₂ n t₁ hinv hcfg hlen hhost₁ hhost₂ hbytes hrun
  have hagrees : Agrees (otherOf s₂) (startDecode s₁) := fun p hp => (hbytes p hp).symm
  refine ⟨reload (otherOf s₂) t₁, ?_, rfl, observe_reload t₁⟩
  rw [startDecode_eq_reload hcfg hlen (hhost₁.trans hhost₂.symm)]
  exact run_reload (startDecode_inv hinv) hhost₁ hagrees hrun

end Sys2Proof.Machine
end

section
/-! The decoder and the encoder of 30_encoding are inverse to each other (R85, R90, R100, R101, R103). -/

namespace Sys2Proof

open Laws

/-! ## The classes of R100, one equation a class -/

section
variable {k : LzwCtx} {c : Code}

theorem classifyCode_invalid (hc : k.next < c.toNat) : classifyCode k c = .ok (.invalid c) := if_pos hc

/-- `CLEAR_CODE` and `EOI_CODE` are below `NEXT_CODE`, so an earlier row of the table never takes them. -/
theorem classifyCode_eoi (hk : k.wf = true) (hc : c.toNat = k.eoi) : classifyCode k c = .ok .eoi := by
  obtain ⟨-, -, heoi, hnext, -, -, -⟩ := k.wf_iff.mp hk
  rw [classifyCode, if_neg (by omega), if_pos hc]

theorem classifyCode_clear (hk : k.wf = true) (hc : c.toNat = k.clear) : classifyCode k c = .ok .clear := by
  obtain ⟨-, -, heoi, hnext, -, -, -⟩ := k.wf_iff.mp hk
  rw [classifyCode, if_neg (by omega), if_neg (by omega), if_pos hc]

/-- A code that is none of the special ones is classified by `PREV_CODE` and its range. -/
theorem classifyCode_ordinary (hnext : c.toNat ≤ k.next) (heoi : c.toNat ≠ k.eoi) (hclear : c.toNat ≠ k.clear) :
    classifyCode k c =
      if k.prev = none ∧ c.toNat < k.clear then .ok (.first c)
      else if k.prev = none then .ok (.firstNonliteral c)
      else if c.toNat < k.clear then .ok (.literal c)
      else if k.clear + 2 ≤ c.toNat ∧ c.toNat < k.next then .ok (.table c)
      else if c.toNat = k.next then .ok (.kwkwk c)
      else .error .noLzwClass := by
  rw [classifyCode, if_neg (Nat.not_lt.mpr hnext), if_neg heoi, if_neg hclear]

theorem classifyCode_first (hk : k.wf = true) (hprev : k.prev = none) (hc : c.toNat < k.clear) :
    classifyCode k c = .ok (.first c) := by
  obtain ⟨-, -, heoi, hnext, -, -, -⟩ := k.wf_iff.mp hk
  rw [classifyCode_ordinary (by omega) (by omega) (by omega), if_pos ⟨hprev, hc⟩]

theorem classifyCode_firstNonliteral (hk : k.wf = true) (hprev : k.prev = none) (hlow : k.eoi < c.toNat)
    (hc : c.toNat ≤ k.next) : classifyCode k c = .ok (.firstNonliteral c) := by
  obtain ⟨-, -, heoi, hnext, -, -, -⟩ := k.wf_iff.mp hk
  rw [classifyCode_ordinary hc (by omega) (by omega), if_neg (by omega), if_pos hprev]

theorem classifyCode_literal (hk : k.wf = true) (hprev : k.prev ≠ none) (hc : c.toNat < k.clear) :
    classifyCode k c = .ok (.literal c) := by
  obtain ⟨-, -, heoi, hnext, -, -, -⟩ := k.wf_iff.mp hk
  rw [classifyCode_ordinary (by omega) (by omega) (by omega), if_neg fun h => hprev h.1, if_neg hprev, if_pos hc]

theorem classifyCode_table (hk : k.wf = true) (hprev : k.prev ≠ none) (hlow : k.clear + 2 ≤ c.toNat) (hc : c.toNat < k.next) :
    classifyCode k c = .ok (.table c) := by
  obtain ⟨-, -, heoi, -, -, -, -⟩ := k.wf_iff.mp hk
  rw [classifyCode_ordinary (by omega) (by omega) (by omega), if_neg fun h => hprev h.1, if_neg hprev, if_neg (by omega),
    if_pos ⟨hlow, hc⟩]

theorem classifyCode_kwkwk (hk : k.wf = true) (hprev : k.prev ≠ none) (hc : c.toNat = k.next) :
    classifyCode k c = .ok (.kwkwk c) := by
  obtain ⟨-, -, heoi, hnext, -, -, -⟩ := k.wf_iff.mp hk
  rw [classifyCode_ordinary (by omega) (by omega) (by omega), if_neg fun h => hprev h.1, if_neg hprev, if_neg (by omega),
    if_neg (by omega), if_pos hc]

/-- A code that fits its width decodes to what its class says. -/
theorem decode_of_classifyCode {i : Instr} (hfit : c.toNat < 2 ^ k.size) (hclass : classifyCode k c = .ok i) :
    decode (.lzwCode k) c.toNat = .ok i :=
  (decode_lzwCode hfit).trans hclass

end

/-! ## The class conditions of R100 as facts about numbers -/

section
variable {k : LzwCtx} {c : Code}

theorem inClass_invalid : (Instr.invalid c).inClass k = true ↔ k.next < c.toNat ∧ c.toNat < 2 ^ k.size := by
  simp [Instr.inClass]

theorem inClass_first : (Instr.first c).inClass k = true ↔ k.prev = none ∧ c.toNat < k.clear := by
  simp [Instr.inClass]

theorem inClass_firstNonliteral :
    (Instr.firstNonliteral c).inClass k = true ↔ k.prev = none ∧ c.toNat = k.next ∧ c.toNat < 2 ^ k.size := by
  simp [Instr.inClass, and_assoc]

theorem inClass_literal : (Instr.literal c).inClass k = true ↔ k.prev ≠ none ∧ c.toNat < k.clear := by
  simp [Instr.inClass, Option.isSome_iff_ne_none]

theorem inClass_table : (Instr.table c).inClass k = true ↔ k.prev ≠ none ∧ k.clear + 2 ≤ c.toNat ∧ c.toNat < k.next := by
  simp [Instr.inClass, Option.isSome_iff_ne_none, and_assoc]

theorem inClass_kwkwk :
    (Instr.kwkwk c).inClass k = true ↔ k.prev ≠ none ∧ c.toNat = k.next ∧ c.toNat < 2 ^ k.size := by
  simp [Instr.inClass, Option.isSome_iff_ne_none, and_assoc]

end

/-! ## Words and bit vectors -/

/-- A number in range is the word of a bit vector. -/
theorem exists_toNat_eq {n w : Nat} (hw : w < 2 ^ n) : ∃ v : BitVec n, v.toNat = w :=
  ⟨BitVec.ofNat n w, by rw [BitVec.toNat_ofNat, Nat.mod_eq_of_lt hw]⟩

/-- In a well-formed context a number that fits the width is a code. -/
theorem exists_code {k : LzwCtx} (hk : k.wf = true) {w : Nat} (hfit : w < 2 ^ k.size) : ∃ c : Code, c.toNat = w := by
  obtain ⟨-, -, -, -, -, hsize, -⟩ := k.wf_iff.mp hk
  exact exists_toNat_eq (code_lt_of_size hfit hsize)

/-- `CLEAR_CODE` and `EOI_CODE` stand in a context as numbers: one that fits the width decodes as the code it is. -/
theorem decode_number_of_classifyCode {k : LzwCtx} {w : Nat} {i : Instr} (hk : k.wf = true) (hfit : w < 2 ^ k.size)
    (hclass : ∀ c : Code, c.toNat = w → classifyCode k c = .ok i) : decode (.lzwCode k) w = .ok i := by
  obtain ⟨c, rfl⟩ := exists_code hk hfit
  exact decode_of_classifyCode hfit (hclass c rfl)

/-- Settles O2: a fixed word decodes by its row, a catch-all row since it excludes the others, and a code, which fits its width, by
its class. -/
theorem decodeEncodeRoundTrip : Obligations.DecodeEncodeRoundTrip := by
  intro k i hk hwf hclass
  cases i with
  | image | extension | trailer | disposeNone | disposeKeep | disposeBackground | disposePrevious => rfl
  | gce => exact decode_ext16 0xF9#8
  | app => exact decode_ext16 0xFF#8
  | comment => exact decode_ext16 0xFE#8
  | plainText => exact decode_ext16 0x01#8
  | tagUnknown t => exact (decode_tag8 t).trans (congrArg _ (decodeTag_unknown hwf))
  | extUnknown l => exact (decode_ext16 l).trans (congrArg _ (decodeLabel_unknown hwf))
  | disposeReserved v => exact (decode_disposal3 v).trans (congrArg _ (decodeDisposal_reserved hwf))
  | eoi => exact decode_number_of_classifyCode hk (EncodeWidth.eoi k hk hwf hclass) fun c hc => classifyCode_eoi hk hc
  | clear => exact decode_number_of_classifyCode hk (EncodeWidth.clear k hk hwf hclass) fun c hc => classifyCode_clear hk hc
  | invalid c =>
    obtain ⟨hc, hfit⟩ := inClass_invalid.mp hclass
    exact decode_of_classifyCode hfit (classifyCode_invalid hc)
  | first c =>
    obtain ⟨hprev, hc⟩ := inClass_first.mp hclass
    exact decode_of_classifyCode (EncodeWidth.first c k hk hwf hclass) (classifyCode_first hk hprev hc)
  | firstNonliteral c =>
    obtain ⟨hprev, hc, hfit⟩ := inClass_firstNonliteral.mp hclass
    obtain ⟨-, -, heoi, hnext, -, -, -⟩ := k.wf_iff.mp hk
    exact decode_of_classifyCode hfit (classifyCode_firstNonliteral hk hprev (by omega) (Nat.le_of_eq hc))
  | literal c =>
    obtain ⟨hprev, hc⟩ := inClass_literal.mp hclass
    exact decode_of_classifyCode (EncodeWidth.literal c k hk hwf hclass) (classifyCode_literal hk hprev hc)
  | table c =>
    obtain ⟨hprev, hlow, hc⟩ := inClass_table.mp hclass
    exact decode_of_classifyCode (EncodeWidth.table c k hk hwf hclass) (classifyCode_table hk hprev hlow hc)
  | kwkwk c =>
    obtain ⟨hprev, hc, hfit⟩ := inClass_kwkwk.mp hclass
    exact decode_of_classifyCode hfit (classifyCode_kwkwk hk hprev hc)

/-! ## What a word that decodes is -/

/-- `w` is the word of `i` in format `f`, and `i` is well-formed and of the context's class. -/
def Spells (k : LzwCtx) (f : Format) (w : Nat) (i : Instr) : Prop :=
  i.format k = f ∧ encode k i = w ∧ i.wf = true ∧ i.inClass k = true

theorem spells_decodeTag (k : LzwCtx) (t : Byte) : Spells k .tag8 t.toNat (decodeTag t) := by
  unfold decodeTag
  split_ifs with h1 h2 h3
  · subst h1; exact ⟨rfl, rfl, rfl, rfl⟩
  · subst h2; exact ⟨rfl, rfl, rfl, rfl⟩
  · subst h3; exact ⟨rfl, rfl, rfl, rfl⟩
  · exact ⟨rfl, rfl, by simp [Instr.wf, h1, h2, h3], rfl⟩

theorem spells_decodeLabel (k : LzwCtx) (l : Byte) : Spells k .ext16 (0x2100 + l.toNat) (decodeLabel l) := by
  unfold decodeLabel
  split_ifs with h1 h2 h3 h4
  · subst h1; exact ⟨rfl, rfl, rfl, rfl⟩
  · subst h2; exact ⟨rfl, rfl, rfl, rfl⟩
  · subst h3; exact ⟨rfl, rfl, rfl, rfl⟩
  · subst h4; exact ⟨rfl, rfl, rfl, rfl⟩
  · exact ⟨rfl, rfl, by simp [Instr.wf, h1, h2, h3, h4], rfl⟩

/-- The eight disposal fields, each by its row of R101. -/
theorem spells_decodeDisposal (k : LzwCtx) (v : BitVec 3) : Spells k .disposal3 v.toNat (decodeDisposal v) := by
  have hrow : ∀ v : BitVec 3, v = 0#3 ∨ v = 1#3 ∨ v = 2#3 ∨ v = 3#3 ∨ (Instr.disposeReserved v).wf = true := by decide
  rcases hrow v with rfl | rfl | rfl | rfl | hwf
  · exact ⟨rfl, rfl, rfl, rfl⟩
  · exact ⟨rfl, rfl, rfl, rfl⟩
  · exact ⟨rfl, rfl, rfl, rfl⟩
  · exact ⟨rfl, rfl, rfl, rfl⟩
  · rw [decodeDisposal_reserved hwf]
    exact ⟨rfl, rfl, hwf, rfl⟩

/-- The class a code falls in bounds it as R100 and decision D22 say. -/
theorem spells_classifyCode {k : LzwCtx} (hk : k.wf = true) {c : Code} (hfit : c.toNat < 2 ^ k.size) {i : Instr}
    (hclass : classifyCode k c = .ok i) : Spells k (.lzwCode k) c.toNat i := by
  obtain ⟨h4, h2048, heoi, hnext, -, -, -⟩ := k.wf_iff.mp hk
  rcases classifyCode_cases hk c with ⟨hc, heq⟩ | ⟨hc, heq⟩ | ⟨hc, heq⟩ | ⟨hprev, hc, heq⟩ | ⟨hprev, hc, heq⟩ |
    ⟨hprev, hc, heq⟩ | ⟨hprev, hc, heq⟩ | ⟨hprev, hc, heq⟩ <;> cases hclass.symm.trans heq
  · exact ⟨rfl, rfl, decide_eq_true (by omega), inClass_invalid.mpr ⟨hc, hfit⟩⟩
  · exact ⟨rfl, hc.symm, rfl, rfl⟩
  · exact ⟨rfl, hc.symm, rfl, rfl⟩
  · exact ⟨rfl, rfl, decide_eq_true (by omega), inClass_first.mpr ⟨hprev, hc⟩⟩
  · exact ⟨rfl, rfl, decide_eq_true (by omega), inClass_firstNonliteral.mpr ⟨hprev, hc, hfit⟩⟩
  · exact ⟨rfl, rfl, decide_eq_true (by omega), inClass_literal.mpr ⟨hprev, hc⟩⟩
  · exact ⟨rfl, rfl, decide_eq_true (by omega), inClass_table.mpr ⟨hprev, hc⟩⟩
  · exact ⟨rfl, rfl, decide_eq_true (by omega), inClass_kwkwk.mpr ⟨hprev, hc, hfit⟩⟩

/-- A word that decodes has no bit above its format's width: every branch of the decoder past its range test is an error. -/
theorem decode_lt_bits {f : Format} {w : Nat} {i : Instr} (hd : decode f w = .ok i) : w < 2 ^ f.bits := by
  cases f <;> simp only [decode] at hd <;> split at hd
  case ext16.isFalse hw => exact Nat.not_le.mp hw
  case lzwCode.isTrue k hw => exact hw.1
  case tag8.isTrue hw => exact hw
  case disposal3.isTrue hw => exact hw
  all_goals cases hd

/-- The high byte of an extension's word is the tag 0x21 (R90). -/
theorem exists_label {w : Nat} {i : Instr} (hd : decode .ext16 w = .ok i) : ∃ l : Byte, 0x2100 + l.toNat = w := by
  have hw : w < 2 ^ 16 := decode_lt_bits hd
  have hhigh : w / 2 ^ 8 = 0x21 := by
    by_contra hhigh
    rw [decode, if_neg (Nat.not_le.mpr hw), if_neg hhigh] at hd
    cases hd
  obtain ⟨l, hl⟩ := exists_toNat_eq (n := 8) (w := w % 2 ^ 8) (Nat.mod_lt _ (by omega))
  exact ⟨l, by omega⟩

/-- Settles O3: a word that decodes is in its format's range, and there the format's table says what it spells. -/
theorem encodeDecodeRoundTrip : Obligations.EncodeDecodeRoundTrip := by
  intro k f w i hk hf hd
  have hw := decode_lt_bits hd
  rcases hf with rfl | rfl | rfl | rfl
  · obtain ⟨t, rfl⟩ := exists_toNat_eq hw
    cases (decode_tag8 t).symm.trans hd
    exact spells_decodeTag k t
  · obtain ⟨l, rfl⟩ := exists_label hd
    cases (decode_ext16 l).symm.trans hd
    exact spells_decodeLabel k l
  · obtain ⟨c, rfl⟩ := exists_code hk hw
    exact spells_classifyCode hk hw ((decode_lzwCode hw).symm.trans hd)
  · obtain ⟨v, rfl⟩ := exists_toNat_eq hw
    cases (decode_disposal3 v).symm.trans hd
    exact spells_decodeDisposal k v

/-- Settles O4: each clause is a class's equation, and the class the code falls in gives the last. -/
theorem everyCodeHasItsClass : Obligations.EveryCodeHasItsClass := by
  intro k c hk hfit
  have hdecode : ∀ {i : Instr}, classifyCode k c = .ok i → decode (.lzwCode k) c.toNat = .ok i := decode_of_classifyCode hfit
  refine ⟨fun hc => hdecode (classifyCode_invalid hc), fun hc => hdecode (classifyCode_eoi hk hc),
    fun hc => hdecode (classifyCode_clear hk hc), fun hprev hc => hdecode (classifyCode_first hk hprev hc),
    fun hprev hlow hc => hdecode (classifyCode_firstNonliteral hk hprev hlow hc),
    fun hprev hc => hdecode (classifyCode_literal hk hprev hc),
    fun hprev hlow hc => hdecode (classifyCode_table hk hprev hlow hc),
    fun hprev hc => hdecode (classifyCode_kwkwk hk hprev hc), ?_⟩
  obtain ⟨i, hclass⟩ : ∃ i, classifyCode k c = .ok i := by
    rcases classifyCode_cases hk c with ⟨-, heq⟩ | ⟨-, heq⟩ | ⟨-, heq⟩ | ⟨-, -, heq⟩ | ⟨-, -, heq⟩ | ⟨-, -, heq⟩ | ⟨-, -, heq⟩ |
      ⟨-, -, heq⟩ <;> exact ⟨_, heq⟩
  exact ⟨i, hdecode hclass, (spells_classifyCode hk hfit hclass).1⟩

/-- Settles O1: the words of R85, R90 and R101 and the codes of R100, each evaluated. -/
theorem specWordsDecode : Obligations.SpecWordsDecode := by
  unfold Obligations.SpecWordsDecode
  decide

end Sys2Proof
end

section
/-! The streams of 30_encoding R102 read back: packed codes, sub-block chains and descriptors; and what GCE loads
(41_block_walker R141). -/

namespace Sys2Proof.Machine

/-! ## Packed codes (42_lzw R172) -/

/-- The bytes of a code sequence hold exactly its packed value, the final partial byte being padded with zero bits. -/
theorem leNat_encodeCodes (cs : List (Nat × Nat)) : leNat (encodeCodes cs) = packValue cs := by
  rw [encodeCodes, leNat_leBytes, Nat.mod_eq_of_lt]
  exact Nat.lt_of_lt_of_le (packValue_lt cs) (Nat.pow_le_pow_right (by omega) (by omega))

theorem setCodeSize_codeSize_toNat {w : Nat} (hw : w ≤ 12) (s : State) : (setCodeSize w s).codeSize.toNat = w :=
  Nat.mod_eq_of_lt (by omega)

theorem setCodeSize_codeMask_toNat {w : Nat} (hw : w ≤ 12) (s : State) : (setCodeSize w s).codeMask.toNat = 2 ^ w - 1 := by
  have hpow : 2 ^ w ≤ 2 ^ 12 := Nat.pow_le_pow_right (by omega) hw
  exact Nat.mod_eq_of_lt (by omega)

/-- What the bit reader of `s` has left is the code sequence `cs`, packed, and perhaps zero bits after it. -/
structure HoldsCodes (cs : List (Nat × Nat)) (s : State) : Prop where
  length : s.data.length < 2 ^ 32
  reader : (readerOf s).Ok s.data
  value : pendingValue s.data (readerOf s) = packValue cs
  bits : packBits cs ≤ pendingBits s.data (readerOf s)

/-- Before the first code the reader's buffer is empty and all of `DATA` is unread. -/
theorem holdsCodes_start {cs : List (Nat × Nat)} {s : State} (hlen : (encodeCodes cs).length < 2 ^ 32)
    (hdata : s.data = encodeCodes cs) (hbuf : s.bitBuf = 0) (hcnt : s.bitCnt = 0) (hptr : s.rdPtr = 0) : HoldsCodes cs s where
  length := hdata ▸ hlen
  reader := by constructor <;> simp [readerOf, hbuf, hcnt, hptr]
  value := by simp [pendingValue, readerOf, hbuf, hcnt, hptr, hdata, leNat_encodeCodes]
  bits := by
    simp only [pendingBits, readerOf, hcnt, hptr, hdata, encodeCodes, leBytes_length, BitVec.ofNat_eq_ofNat, BitVec.toNat_ofNat,
      Nat.zero_mod]
    omega

/-- Reading at the first code's width answers that code and leaves the rest of the sequence. -/
theorem HoldsCodes.read_first {c w : Nat} {cs : List (Nat × Nat)} {s : State} (h : HoldsCodes ((c, w) :: cs) s) (hw : w ≤ 12)
    (hc : c < 2 ^ w) :
    (readCode (setCodeSize w s)).2 = some (BitVec.ofNat 12 c) ∧ HoldsCodes cs (readCode (setCodeSize w s)).1 := by
  have hsize := setCodeSize_codeSize_toNat hw s
  obtain ⟨hreader, hend, hcode⟩ := readCode_spec (s := setCodeSize w s) h.length (by omega)
    (by rw [setCodeSize_codeMask_toNat hw, hsize]) h.reader
  have hdata : (readCode (setCodeSize w s)).1.data = s.data := by rw [readCode_frame]; rfl
  have hvalue : pendingValue s.data (readerOf (setCodeSize w s)) = c + 2 ^ w * packValue cs := by
    rw [← Nat.mod_eq_of_lt hc]; exact h.value
  have hbits : w + packBits cs ≤ pendingBits s.data (readerOf (setCodeSize w s)) := h.bits
  simp only [setCodeSize_data, hsize] at hreader hend hcode hvalue hbits
  cases hread : (readCode (setCodeSize w s)).2 with
  | none =>
    have hshort := hend hread
    omega
  | some d =>
    obtain ⟨hd, hrest, hleft⟩ := hcode d hread
    rw [hvalue] at hd hrest
    refine ⟨congrArg some (BitVec.eq_of_toNat_eq ?_), ?_⟩
    · rw [hd, Nat.add_mul_mod_self_left, Nat.mod_eq_of_lt hc, BitVec.toNat_ofNat, Nat.mod_eq_of_lt (code_lt_of_size hc hw)]
    · constructor <;> rw [hdata]
      · exact h.length
      · exact hreader
      · rw [hrest, Nat.add_mul_div_left _ _ (Nat.two_pow_pos w), Nat.div_eq_of_lt hc, Nat.zero_add]
      · omega

/-- A packed sequence is read code by code, each at its width. -/
theorem HoldsCodes.read_all {cs : List (Nat × Nat)} {s : State} (h : HoldsCodes cs s)
    (hcs : ∀ c ∈ cs, c.2 ≤ 12 ∧ c.1 < 2 ^ c.2) :
    readCodesAt (cs.map (·.2)) s = cs.map fun c => some (BitVec.ofNat 12 c.1) := by
  induction cs generalizing s with
  | nil => rfl
  | cons cw cs ih =>
    obtain ⟨c, w⟩ := cw
    obtain ⟨hw, hc⟩ := hcs (c, w) List.mem_cons_self
    obtain ⟨hread, hrest⟩ := h.read_first hw hc
    simp only [List.map_cons, readCodesAt, hread]
    rw [ih hrest fun c hmem => hcs c (List.mem_cons_of_mem _ hmem)]

/-- Settles O7: the reader starts with the whole sequence left, and each read takes its first code. -/
theorem packedCodesReadBack : Obligations.PackedCodesReadBack := by
  intro s cs hcs hlen hdata hbuf hcnt hptr
  exact (holdsCodes_start hlen hdata hbuf hcnt hptr).read_all fun c hmem => (hcs c hmem).2

/-! ## Sub-block chains (41_block_walker R131) -/

/-- Settles O5: N - q rounds read any complete chain whole, and what a round answers is one. -/
theorem collectSubBlocksFindsCompleteChains : Obligations.CollectSubBlocksFindsCompleteChains := by
  intro s q r
  refine ⟨fun h => ?_, fun ⟨chunks, hsizes, hbytes, hr⟩ => ?_⟩
  · exact chain_of_collectLoop h
  · rw [hr]
    exact collectLoop_of_chain hsizes hbytes (Nat.le_refl _)

/-- Settles O6: the chunks data is cut into are a complete chain, and joined they are the data. -/
theorem subBlocksOfDataReadBack : Obligations.SubBlocksOfDataReadBack := by
  intro s q data hbytes
  refine (collectSubBlocksFindsCompleteChains s q _).mpr ⟨cutChunks data.length data, cutChunks_sizes, hbytes, ?_⟩
  rw [cutChunks_flatten (Nat.le_refl _), cutChunks_isEmpty, encodeSubBlocks]

/-! ## Fields (20_memory R62, 30_encoding R86, R87) -/

/-- A u16 field is read back (R62). -/
theorem srcU16_of_holdsBytes {s : State} {p : Nat} {v : Half} (h : holdsBytes s p (encodeU16 v)) : srcU16 s p = v := by
  obtain ⟨hlow, -, h⟩ := holdsBytes_cons h
  obtain ⟨hhigh, -, -⟩ := holdsBytes_cons h
  apply BitVec.eq_of_toNat_eq
  rw [srcU16_toNat, hlow, hhigh]
  simp only [BitVec.toNat_setWidth, BitVec.toNat_ushiftRight, Nat.shiftRight_eq_div_pow]
  omega

theorem packedTableSize_eq (b : Byte) :
    packedTableSize b = if b.getLsbD 7 then BitVec.ofNat 9 (2 ^ (b.toNat % 8 + 1)) else 0 := by
  rw [packedTableSize, packedSizeField_eq, packedHasTable]

/-- Settles O8: the tag byte, four u16 fields and the packed byte, each at its offset. -/
theorem descriptorReadsBack : Obligations.DescriptorReadsBack := by
  intro s p left top w h packed hbytes
  obtain ⟨hbytes, hpacked⟩ := holdsBytes_append hbytes
  obtain ⟨hbytes, hh⟩ := holdsBytes_append hbytes
  obtain ⟨hbytes, hw⟩ := holdsBytes_append hbytes
  obtain ⟨hbytes, htop⟩ := holdsBytes_append hbytes
  obtain ⟨-, -, hleft⟩ := holdsBytes_cons hbytes
  have hbyte : srcByte s (p + 9) = packed := (holdsBytes_cons hpacked).1
  rw [readDescriptor, srcU16_of_holdsBytes hleft, srcU16_of_holdsBytes (p := p + 3) htop, srcU16_of_holdsBytes (p := p + 5) hw,
    srcU16_of_holdsBytes (p := p + 7) hh, hbyte, packedTableSize_eq]
  rfl

/-! ## GCE (41_block_walker R141) -/

/-- With its 8 bytes below N a GCE writes the four registers and moves past them. -/
theorem execGce_next {s : State} (h : s.cur.toNat + 8 ≤ srcEnd s) : execGce s =
    .next (toNextBlock (s.cur.toNat + 8) { s with
      gceTflag := gcePackedTflag (srcByte s (s.cur.toNat + 3))
      gceDisposal := gcePackedDisposal (srcByte s (s.cur.toNat + 3))
      gceDelay := BitVec.ofNat 32 ((srcU16 s (s.cur.toNat + 4)).toNat * delayFactor s.cfg.delayScale)
      gceTindex := srcByte s (s.cur.toNat + 6) }) :=
  if_neg (Nat.not_lt.mpr h)

theorem execGce_truncated {s : State} (h : srcEnd s < s.cur.toNat + 8) : execGce s = .next (endDecode .truncated s) := if_pos h

theorem gcePackedDisposal_toNat (b : Byte) : (gcePackedDisposal b).toNat = b.toNat / 4 % 8 := by
  simp [gcePackedDisposal, Nat.shiftRight_eq_div_pow]

theorem delayFactor_eq (d : DelayScale) : delayFactor d = if d = .tenMs then 10 else 100 := by
  cases d <;> rfl

/-- The scaled delay fits its register (10_state R29): at most 65535 times 100. -/
theorem delay_toNat (v : Half) (d : DelayScale) :
    (BitVec.ofNat 32 (v.toNat * delayFactor d)).toNat = v.toNat * delayFactor d := by
  have hfactor : delayFactor d ≤ 100 := by cases d <;> decide
  have := Nat.mul_le_mul (Nat.le_of_lt v.isLt) hfactor
  rw [BitVec.toNat_ofNat, Nat.mod_eq_of_lt (by omega)]

/-- Settles O17: the registers are the fields of the packed byte, the scaled u16 and the index byte, and `CUR` stays below 2^32 since
N does. -/
theorem gceLoadsTheGraphicsControlRegisters : Obligations.GceLoadsTheGraphicsControlRegisters := by
  intro s p
  refine ⟨execGce_truncated, fun hp => ⟨_, execGce_next hp, rfl, gcePackedDisposal_toNat _, ?_, rfl, ?_, rfl⟩⟩
  · rw [← delayFactor_eq, ← srcU16_toNat]
    exact delay_toNat _ _
  · have hend : srcEnd s < 2 ^ 32 := s.srcLen.isLt
    exact Nat.mod_eq_of_lt (by omega)

/-! ## Codes outside their classes (log 12) -/

section
variable {s : State} {c pc : Code}

theorem execLiteral_noPrev (h : s.prevCode = none) : execLiteral c s = .fault .codeOutOfClass := by
  simp only [execLiteral, h]

theorem execTable_noPrev (h : s.prevCode = none) : execTable c s = .fault .codeOutOfClass := by
  simp only [execTable, h]

theorem execKwkwk_noPrev (h : s.prevCode = none) : execKwkwk c s = .fault .codeOutOfClass := by
  simp only [execKwkwk, h]

theorem execTable_deadSlot (hprev : s.prevCode = some pc) (hwalk : stringOf s c = none) :
    execTable c s = .fault .deadTableSlot := by
  simp only [execTable, hprev, hwalk]

theorem execKwkwk_deadSlot (hprev : s.prevCode = some pc) (hwalk : stringOf s pc = none) :
    execKwkwk c s = .fault .deadTableSlot := by
  simp only [execKwkwk, hprev, hwalk]

end

/-- Settles O32: the three rows look at `PREV_CODE` first, and TABLE and KWKWK then walk from their code or from it. -/
theorem codesOutOfClassStopByName : Obligations.CodesOutOfClassStopByName := by
  intro s c
  refine ⟨fun hnone => ⟨execLiteral_noPrev hnone, execTable_noPrev hnone, execKwkwk_noPrev hnone⟩, fun hprev hwalk => ?_,
    fun pc => execKwkwk_deadSlot⟩
  obtain ⟨pc, hpc⟩ := Option.ne_none_iff_exists'.mp hprev
  exact execTable_deadSlot hpc hwalk

end Sys2Proof.Machine
end

section
/-! The container phase (40_container R110 to R121): one equation for each way it can go, and what the screen holds after it. -/

namespace Sys2Proof.Machine

section
variable {s : State}

/-! ## The screen descriptor (R112 to R115) -/

/-- The state in which the palette is looked for (R116): signature and screen descriptor are read. -/
def afterScreen (s : State) : State := readScreen (readSignature s)

theorem afterScreen_srcEnd (s : State) : srcEnd (afterScreen s) = srcEnd s := rfl

theorem afterScreen_gctSize_toNat (s : State) : (afterScreen s).gctSize.toNat =
    if (srcByte s 10).getLsbD 7 then 2 ^ ((srcByte s 10).toNat % 8 + 1) else 0 :=
  packedTableSize_toNat _

theorem afterScreen_canvasW_toNat (s : State) :
    (afterScreen s).canvasW.toNat = (srcByte s 6).toNat + 256 * (srcByte s 7).toNat :=
  srcU16_toNat (readSignature s) 6

theorem afterScreen_canvasH_toNat (s : State) :
    (afterScreen s).canvasH.toNat = (srcByte s 8).toNat + 256 * (srcByte s 9).toNat :=
  srcU16_toNat (readSignature s) 8

theorem canvasPixels_afterScreen (s : State) : canvasPixels (afterScreen s) =
    ((srcByte s 6).toNat + 256 * (srcByte s 7).toNat) * ((srcByte s 8).toNat + 256 * (srcByte s 9).toNat) := by
  rw [canvasPixels, afterScreen_canvasW_toNat, afterScreen_canvasH_toNat]

/-! ## The global palette (R116, R118) -/

theorem readGlobalTable_gpal_new {j : Nat} (h : j < s.gctSize.toNat) : (readGlobalTable s).gpal[j]? =
    some ⟨srcByte s (13 + 3 * j), srcByte s (13 + 3 * j + 1), srcByte s (13 + 3 * j + 2), false⟩ := by
  rw [readGlobalTable, writeEntries_getElem?_new (by rwa [readColorTable_length]), readColorTable_getElem? s h]

theorem readGlobalTable_gpal_old {j : Nat} (h : s.gctSize.toNat ≤ j) : (readGlobalTable s).gpal[j]? = s.gpal[j]? :=
  writeEntries_getElem?_old (by rwa [readColorTable_length])

/-! ## The ways the phase goes (R121) -/

theorem signatureOk_iff : signatureOk s = true ↔
    3 ≤ srcEnd s ∧ srcByte s 0 = 0x47#8 ∧ srcByte s 1 = 0x49#8 ∧ srcByte s 2 = 0x46#8 :=
  decide_eq_true_iff

theorem readSignature_sig (hsig : signatureOk s = true) : (readSignature s).sig = ⟨0x47#8, 0x49#8, 0x46#8⟩ := by
  obtain ⟨-, h0, h1, h2⟩ := signatureOk_iff.mp hsig
  rw [readSignature, h0, h1, h2]

theorem containerPhase_badSignature (h : ¬signatureOk s = true) : containerPhase s = endDecode .formatError s := by
  rw [containerPhase, if_pos (by simpa using h)]

theorem containerPhase_shortScreen (hsig : signatureOk s = true) (hend : srcEnd s < 13) :
    containerPhase s = endDecode .truncated (readSignature s) := by
  rw [containerPhase, if_neg (by simp [hsig]), if_pos hend]

theorem containerPhase_screen (hsig : signatureOk s = true) (hend : 13 ≤ srcEnd s) :
    containerPhase s = containerTail (afterScreen s) := by
  rw [containerPhase, if_neg (by simp [hsig]), if_neg (Nat.not_lt.mpr hend), afterScreen]

theorem containerTail_shortPalette (hend : srcEnd s < 13 + 3 * s.gctSize.toNat) :
    containerTail s = endDecode .truncated s :=
  if_pos hend

theorem containerTail_canvasTooLarge (hend : 13 + 3 * s.gctSize.toNat ≤ srcEnd s)
    (hcanvas : s.cfg.maxCanvasPixels < canvasPixels s) :
    containerTail s = endDecode .canvasTooLarge (readGlobalTable s) := by
  rw [containerTail, if_neg (Nat.not_lt.mpr hend), if_pos hcanvas]

theorem containerTail_allocates (hend : 13 + 3 * s.gctSize.toNat ≤ srcEnd s)
    (hcanvas : canvasPixels s ≤ s.cfg.maxCanvasPixels) :
    containerTail s = allocateCanvas (readGlobalTable s) := by
  rw [containerTail, if_neg (Nat.not_lt.mpr hend), if_neg (Nat.not_lt.mpr hcanvas)]

/-- The walker starts right after the palette (R117): that offset is at most N, which `CUR` can hold. -/
theorem allocateCanvas_cur_toNat (hend : 13 + 3 * s.gctSize.toNat ≤ srcEnd s) :
    (allocateCanvas s).cur.toNat = 13 + 3 * s.gctSize.toNat :=
  Nat.mod_eq_of_lt (Nat.lt_of_le_of_lt hend s.srcLen.isLt)

end

/-- Settles O10: the file passes the tests of R121, so the step writes the signature, the screen, the palette and the canvas one
after the other, and each register is what its own write left. -/
theorem containerPhaseReadsTheScreen : Obligations.ContainerPhaseReadsTheScreen := by
  intro s hhost hbusy hstage _ h0 h1 h2 g w h hend hcanvas
  have hsig : signatureOk s = true := signatureOk_iff.mpr ⟨by omega, h0, h1, h2⟩
  have hg : (afterScreen s).gctSize.toNat = g := afterScreen_gctSize_toNat s
  have hpixels : canvasPixels (afterScreen s) = w * h := canvasPixels_afterScreen s
  have htable : 13 + 3 * (afterScreen s).gctSize.toNat ≤ srcEnd (afterScreen s) := by rwa [hg, afterScreen_srcEnd]
  have hstep : step s = .next (allocateCanvas (readGlobalTable (afterScreen s))) := by
    rw [step_engine hhost, engineStep_container hbusy hstage, containerPhase_screen hsig (by omega),
      containerTail_allocates htable (hpixels ▸ hcanvas)]
  have hempty : emptyCanvas (afterScreen s) = List.replicate (w * h) .transparent := by rw [emptyCanvas, hpixels]
  have hcur : (allocateCanvas (readGlobalTable (afterScreen s))).cur.toNat = 13 + 3 * g := hg ▸ allocateCanvas_cur_toNat htable
  exact ⟨_, hstep, readSignature_sig hsig, rfl, afterScreen_canvasW_toNat s, afterScreen_canvasH_toNat s, rfl, hg, rfl,
    fun j hj => readGlobalTable_gpal_new (s := afterScreen s) (hg ▸ hj),
    fun j hj => readGlobalTable_gpal_old (s := afterScreen s) (hg ▸ hj), hempty, hempty, hcur, rfl, rfl⟩

/-- Settles O11: each clause is the equation of its branch, and an ending keeps what the phase had written up to there. -/
theorem containerPhaseEndsEarly : Obligations.ContainerPhaseEndsEarly := by
  intro s hhost hbusy hstage gif g w h
  have hstep : step s = .next (containerPhase s) := by rw [step_engine hhost, engineStep_container hbusy hstage]
  have hsig : gif → signatureOk s = true := signatureOk_iff.mpr
  have hg : (afterScreen s).gctSize.toNat = g := afterScreen_gctSize_toNat s
  have hpixels : canvasPixels (afterScreen s) = w * h := canvasPixels_afterScreen s
  rw [hstep]
  refine ⟨fun hno => ?signature, fun hgif hend => ?screen, fun hgif hscreen hend => ?palette,
    fun hgif hscreen hend hcanvas => ?canvas⟩
  case signature =>
    rw [containerPhase_badSignature (mt signatureOk_iff.mp hno)]
    rfl
  case screen =>
    rw [containerPhase_shortScreen (hsig hgif) hend, ← readSignature_sig (hsig hgif)]
    rfl
  case palette =>
    rw [containerPhase_screen (hsig hgif) hscreen, containerTail_shortPalette (by rwa [hg, afterScreen_srcEnd])]
    exact ⟨_, rfl, rfl, rfl, rfl, rfl, rfl, rfl, rfl, rfl, rfl, rfl⟩
  case canvas =>
    rw [containerPhase_screen (hsig hgif) hscreen,
      containerTail_canvasTooLarge (by rwa [hg, afterScreen_srcEnd]) (hpixels ▸ hcanvas)]
    exact ⟨_, rfl, rfl, rfl, rfl, rfl, rfl, rfl, rfl, rfl⟩

end Sys2Proof.Machine
end

section
/-! The blocks the walker meets (41_block_walker R130 to R147): the tag log, the extensions, the ends of a decode and the image
block's operands. -/

namespace Sys2Proof.Machine

/-! ## The tag log (R130, R140) -/

section
variable {s : State}

theorem logStores_room {cap : Option Nat} {n : Nat} (h : cap = none ∨ ∃ c, cap = some c ∧ n < c) : logStores cap n = true := by
  rcases h with rfl | ⟨c, rfl, hn⟩
  · rfl
  · exact decide_eq_true hn

theorem logStores_full {c n : Nat} (h : c ≤ n) : logStores (some c) n = false := decide_eq_false (Nat.not_lt.mpr h)

theorem logTag_tagLog_room (h : logStores s.cfg.tagLogCapacity s.tagCount.toNat = true) (tag : Byte) :
    (logTag tag s).tagLog = s.tagLog ++ [⟨tag, none⟩] := if_pos h

theorem logTag_tagLog_full (h : logStores s.cfg.tagLogCapacity s.tagCount.toNat = false) (tag : Byte) :
    (logTag tag s).tagLog = s.tagLog := by
  rw [logTag, h]
  rfl

/-- The label goes into the entry the block's tag made, the last of the log (R140). -/
theorem logLabel_room (h : logStores s.cfg.tagLogCapacity (s.tagCount.toNat - 1) = true) {earlier : List TagEntry} {e : TagEntry}
    (hlog : s.tagLog = earlier ++ [e]) (label : Byte) :
    logLabel label s = { s with tagLog := earlier ++ [{ e with label := some label }] } := by
  rw [logLabel, if_pos h, hlog, labelLast_append]

theorem logLabel_full (h : logStores s.cfg.tagLogCapacity (s.tagCount.toNat - 1) = false) (label : Byte) :
    logLabel label s = s := by
  rw [logLabel, h]
  rfl

theorem walkerStep_truncated (h : srcEnd s ≤ s.cur.toNat) : walkerStep s = .next (endDecode .truncated s) := if_pos h

end

/-- Settles O13: a tag is always counted, and appended exactly when the log stores the entry of that number; past N the walker ends
the decode before it reads a tag. -/
theorem tagsAreLoggedUntilTheBufferEnds : Obligations.TagsAreLoggedUntilTheBufferEnds := by
  refine ⟨fun s tag hcount => ⟨tagCount_succ_toNat hcount, fun c hcap hfull => ?_, fun hroom => ?_, rfl⟩,
    fun s hhost hbusy hstage hend => ?_⟩
  · exact logTag_tagLog_full (by rw [hcap]; exact logStores_full hfull) tag
  · exact logTag_tagLog_room (logStores_room hroom) tag
  · rw [step_engine hhost, engineStep_walker hbusy hstage, walkerStep_truncated hend]
    rfl

section
variable {s : State}

theorem execExtension_truncated (h : srcEnd s ≤ s.cur.toNat + 1) : execExtension s = .next (endDecode .truncated s) := if_pos h

theorem execExtension_next (h : s.cur.toNat + 1 < srcEnd s) :
    execExtension s = .next { logLabel (srcByte s (s.cur.toNat + 1)) s with stage := .extension } :=
  if_neg (Nat.not_le.mpr h)

end

/-- Settles O16: the label byte is below N or the decode ends, and its entry is stored exactly when the tag, whose number is
`TAG_COUNT` - 1, was. -/
theorem extensionLogsItsLabel : Obligations.ExtensionLogsItsLabel := by
  refine fun s => ⟨execExtension_truncated, fun hlabel earlier tag hlog hroom hcount => ?_, fun hlabel c hcap hfull => ?_⟩
  · have hpos : s.tagCount.toNat ≠ 0 := fun h0 => hcount (BitVec.eq_of_toNat_eq h0)
    have hstores : logStores s.cfg.tagLogCapacity (s.tagCount.toNat - 1) = true :=
      logStores_room (hroom.imp_right fun ⟨c, hcap, hle⟩ => ⟨c, hcap, by omega⟩)
    exact (execExtension_next hlabel).trans (by rw [logLabel_room hstores hlog])
  · have hstores : logStores s.cfg.tagLogCapacity (s.tagCount.toNat - 1) = false := by
      rw [hcap]
      exact logStores_full (by omega)
    exact (execExtension_next hlabel).trans (by rw [logLabel_full hstores])

/-! ## Skipped extensions (R142, R143) -/

section
variable {s : State}

/-- A complete chain below N is collected whole (R131). -/
theorem collectSubBlocks_chain {q : Nat} {chunks : List (List Byte)} (hsizes : ∀ c ∈ chunks, 1 ≤ c.length ∧ c.length ≤ 255)
    (hbytes : holdsBytes s q (encodeChain chunks)) :
    collectSubBlocks s q = some ⟨chunks.flatten, q + (encodeChain chunks).length, chunks.isEmpty⟩ :=
  (collectSubBlocksFindsCompleteChains s q _).mpr ⟨chunks, hsizes, hbytes, rfl⟩

/-- An offset up to N fits `CUR`. -/
theorem offset_toNat {q : Nat} (h : q ≤ srcEnd s) : (BitVec.ofNat 32 q).toNat = q :=
  Nat.mod_eq_of_lt (Nat.lt_of_le_of_lt h s.srcLen.isLt)

theorem toNextBlock_cur_toNat {q : Nat} (h : q ≤ srcEnd s) : (toNextBlock q s).cur.toNat = q := offset_toNat h

theorem execApp_truncated (h : srcEnd s < s.cur.toNat + 14 ∨ collectSubBlocks s (s.cur.toNat + 14) = none) :
    execApp s = .next (endDecode .truncated s) := by
  unfold execApp
  split
  · rfl
  · rw [h.resolve_left ‹_›]
    rfl

theorem execApp_next {r : SubBlocks} (hend : s.cur.toNat + 14 ≤ srcEnd s) (h : collectSubBlocks s (s.cur.toNat + 14) = some r) :
    execApp s = .next (toNextBlock r.next s) := by
  rw [execApp, if_neg (Nat.not_lt.mpr hend), h]

end

/-- Settles O18: the chain at p + 14 is collected whole, or the block ends the decode. -/
theorem appIsSkipped : Obligations.AppIsSkipped := by
  refine fun s => ⟨execApp_truncated, fun chunks hsizes hbytes => ?_⟩
  exact ⟨_, execApp_next (Nat.le_trans (Nat.le_add_right ..) hbytes.2) (collectSubBlocks_chain hsizes hbytes),
    toNextBlock_cur_toNat hbytes.2, rfl⟩

section
variable {s : State}

theorem execComment_cut (h : collectSubBlocks s (s.cur.toNat + 2) = none) : execComment s = .next (endDecode .truncated s) := by
  rw [execComment, h]
  rfl

theorem execComment_collected {r : SubBlocks} (h : collectSubBlocks s (s.cur.toNat + 2) = some r) : execComment s =
    if r.first then .next (endDecode .truncated s) else .next (toNextBlock r.next s) := by
  rw [execComment, h]
  rfl

end

/-- Settles O19: the chain at p + 2 is collected, and one with no chunk is malformed. -/
theorem commentIsSkippedOrMalformed : Obligations.CommentIsSkippedOrMalformed := by
  refine fun s => ⟨execComment_cut, fun hempty => ?_, fun chunks hchunks hsizes hbytes => ?_⟩
  · exact execComment_collected (collectSubBlocks_chain (chunks := []) (fun _ hc => nomatch hc) hempty)
  · have hfirst : chunks.isEmpty = false := by simpa using hchunks
    refine ⟨_, ?_, toNextBlock_cur_toNat hbytes.2, rfl⟩
    exact (execComment_collected (collectSubBlocks_chain hsizes hbytes)).trans (by rw [hfirst]; rfl)

/-! ## Blocks that end the decode (R144 to R147) -/

/-- Settles O20: each of the three rows is one ending, and `FAULT_POS` is `CUR` for the two faults only. -/
theorem unsupportedAndUnknownBlocksEnd : Obligations.UnsupportedAndUnknownBlocksEnd :=
  fun _ => ⟨rfl, fun _ => rfl, fun _ => rfl⟩

section
variable {s : State}

/-- Below N the cursor can move by one byte. -/
theorem cur_succ_toNat (h : s.cur.toNat < srcEnd s) : (s.cur + 1).toNat = s.cur.toNat + 1 := by
  have hend : srcEnd s < 2 ^ 32 := s.srcLen.isLt
  rw [BitVec.toNat_add, show (1 : Word).toNat = 1 from rfl, Nat.mod_eq_of_lt (by omega)]

end

/-- Settles O21: the tag byte is below N, so moving past it does not wrap. -/
theorem trailerCompletesTheDecode : Obligations.TrailerCompletesTheDecode :=
  fun _ hcur => ⟨_, rfl, cur_succ_toNat hcur, rfl⟩

/-! ## The palette of an image (R133, R134) -/

section
variable {s : State}

/-- R134 on one entry: it gains the mark when it is valid and the pending transparent index names it. -/
theorem markTransparent_getElem? {j : Nat} (h : j < s.apalLen.toNat) : (markTransparent s).apal[j]? =
    s.apal[j]?.map fun e => { e with t := e.t || (s.gceTflag && decide (s.gceTindex.toNat = j)) } := by
  by_cases hmark : s.gceTflag = true ∧ s.gceTindex.toNat < s.apalLen.toNat
  · rw [markTransparent, if_pos hmark, markEntry_getElem?, hmark.1]
    refine congrArg (fun f => s.apal[j]?.map f) (funext fun e => ?_)
    by_cases hj : j = s.gceTindex.toNat
    · simp [hj]
    · simp [hj, Ne.symm hj]
  · have hno : (s.gceTflag && decide (s.gceTindex.toNat = j)) = false := by
      rw [Bool.and_eq_false_imp]
      exact fun hflag => decide_eq_false fun hj => hmark ⟨hflag, hj ▸ h⟩
    rw [markTransparent, if_neg hmark, hno]
    simp

/-- No entry past the palette's length is marked (decision D19). -/
theorem markTransparent_getElem?_past {j : Nat} (h : s.apalLen.toNat ≤ j) : (markTransparent s).apal[j]? = s.apal[j]? := by
  rw [markTransparent]
  split
  · rename_i hmark
    have hj : j ≠ s.gceTindex.toNat := by omega
    simp [markEntry_getElem?, hj]
  · rfl

theorem selectPalette_local (h : s.imgLct = true) (q : Nat) : selectPalette q s =
    { s with apal := writeEntries s.apal (readColorTable s q s.imgLctSize.toNat), apalLen := s.imgLctSize } := if_pos h

theorem selectPalette_global (h : s.imgLct = false) (q : Nat) : selectPalette q s =
    { s with apal := writeEntries s.apal (s.gpal.take s.gctSize.toNat), apalLen := s.gctSize } := by
  rw [selectPalette, h]
  rfl

theorem selectPalette_local_entry (h : s.imgLct = true) {q j : Nat} (hj : j < s.imgLctSize.toNat) :
    (selectPalette q s).apal[j]? =
      some ⟨srcByte s (q + 3 * j), srcByte s (q + 3 * j + 1), srcByte s (q + 3 * j + 2), false⟩ := by
  rw [selectPalette_local h, writeEntries_getElem?_new (by rwa [readColorTable_length]), readColorTable_getElem? s hj]

/-- The global palette has all the entries its length names. -/
theorem globalEntries_length (h : PaletteInv s) : (s.gpal.take s.gctSize.toNat).length = s.gctSize.toNat := by
  rw [List.length_take, h.gpalLength, Nat.min_eq_left h.gctSize]

theorem selectPalette_global_entry (h : PaletteInv s) (hlct : s.imgLct = false) {q j : Nat} (hj : j < s.gctSize.toNat) :
    (selectPalette q s).apal[j]? = s.gpal[j]? := by
  rw [selectPalette_global hlct, writeEntries_getElem?_new (by rwa [globalEntries_length h]), List.getElem?_take_of_lt hj]

/-- Entries past the new length keep their content (log 19). -/
theorem selectPalette_entry_past (h : PaletteInv s) {q j : Nat} (hj : (selectPalette q s).apalLen.toNat ≤ j) :
    (selectPalette q s).apal[j]? = s.apal[j]? := by
  cases hlct : s.imgLct with
  | true =>
    rw [selectPalette_local hlct] at hj ⊢
    exact writeEntries_getElem?_old (by rwa [readColorTable_length])
  | false =>
    rw [selectPalette_global hlct] at hj ⊢
    exact writeEntries_getElem?_old (by rwa [globalEntries_length h])

/-! ## The image block (R132 to R135) -/

/-- The state with the descriptor at `CUR` loaded and the active palette selected and marked. -/
def loadImage (s : State) : State := markTransparent (selectPalette (s.cur.toNat + 10) (readDescriptor s.cur.toNat s))

/-- The length of the local table the block at `CUR` announces, 0 without one (R132). -/
def localTableSize (s : State) : Nat := (packedTableSize (srcByte s (s.cur.toNat + 9))).toNat

theorem loadImage_frame (s : State) : loadImage s =
    { readDescriptor s.cur.toNat s with apal := (loadImage s).apal, apalLen := (loadImage s).apalLen } :=
  imagePalette_frame s.cur.toNat (s.cur.toNat + 10) s

theorem loadImage_source (s : State) :
    (loadImage s).src = s.src ∧ (loadImage s).srcEpoch = s.srcEpoch ∧ (loadImage s).srcLen = s.srcLen := by
  rw [loadImage_frame]
  exact ⟨rfl, rfl, rfl⟩

theorem srcEnd_loadImage (s : State) : srcEnd (loadImage s) = srcEnd s := by
  obtain ⟨-, -, hlen⟩ := loadImage_source s
  rw [srcEnd, srcEnd, hlen]

theorem collectSubBlocks_loadImage (s : State) (q : Nat) : collectSubBlocks (loadImage s) q = collectSubBlocks s q := by
  obtain ⟨hsrc, hepoch, hlen⟩ := loadImage_source s
  exact collectSubBlocks_congr hsrc hepoch hlen q

theorem srcByte_loadImage (s : State) (q : Nat) : srcByte (loadImage s) q = srcByte s q := by
  obtain ⟨hsrc, hepoch, -⟩ := loadImage_source s
  exact srcByte_congr hsrc hepoch q

/-- Without a local table nothing of one can be cut off. -/
theorem localTableSize_none (h : packedHasTable (srcByte s (s.cur.toNat + 9)) = false) : localTableSize s = 0 := by
  rw [localTableSize, packedTableSize, h]
  rfl

/-- The chain does not depend on the minimum code size read before it. -/
theorem collectSubBlocks_minCodeSize (b : Byte) (q : Nat) : collectSubBlocks { s with minCodeSize := b } q = collectSubBlocks s q := by
  apply collectSubBlocks_congr <;> rfl

theorem imageData_next {q : Nat} {r : SubBlocks} (hend : q < srcEnd s) (h : collectSubBlocks s (q + 1) = some r) :
    imageData q s = .next { s with
      minCodeSize := srcByte s q, data := r.bytes, blockEnd := BitVec.ofNat 32 r.next, stage := .lzwSetup } := by
  simp only [imageData, if_neg (Nat.not_le.mpr hend), collectSubBlocks_minCodeSize, h]

theorem imageData_truncated {q : Nat} (h : srcEnd s ≤ q ∨ collectSubBlocks s (q + 1) = none) :
    ∃ u, imageData q s = ends .truncated u := by
  by_cases hend : srcEnd s ≤ q
  · exact ⟨s, if_pos hend⟩
  · simp only [imageData, if_neg hend, collectSubBlocks_minCodeSize, h.resolve_left hend]
    exact ⟨_, rfl⟩

/-- Once the descriptor and the table are known to lie below N, the block's data is read from the loaded state. -/
theorem execImage_loaded (hend : s.cur.toNat + 10 + 3 * localTableSize s ≤ srcEnd s) :
    execImage s = imageData (s.cur.toNat + 10 + 3 * localTableSize s) (loadImage s) := by
  have htable : ¬((readDescriptor s.cur.toNat s).imgLct = true ∧ srcEnd s < s.cur.toNat + 10 + 3 * localTableSize s) :=
    fun hcut => Nat.not_lt.mpr hend hcut.2
  rw [execImage, if_neg (by omega)]
  exact if_neg htable

theorem execImage_next {r : SubBlocks} (hend : s.cur.toNat + 11 + 3 * localTableSize s ≤ srcEnd s)
    (h : collectSubBlocks s (s.cur.toNat + 11 + 3 * localTableSize s) = some r) :
    execImage s = .next { loadImage s with
      minCodeSize := srcByte s (s.cur.toNat + 10 + 3 * localTableSize s), data := r.bytes,
      blockEnd := BitVec.ofNat 32 r.next, stage := .lzwSetup } := by
  have hdata : s.cur.toNat + 10 + 3 * localTableSize s + 1 = s.cur.toNat + 11 + 3 * localTableSize s := by omega
  rw [execImage_loaded (by omega), ← srcByte_loadImage]
  refine imageData_next (by rw [srcEnd_loadImage]; omega) ?_
  rw [collectSubBlocks_loadImage, hdata, h]

/-- An image block cut before its data terminator ends `TRUNCATED`, wherever the cut is. -/
theorem execImage_truncated (h : srcEnd s < s.cur.toNat + 10 ∨ srcEnd s < s.cur.toNat + 11 + 3 * localTableSize s ∨
    collectSubBlocks s (s.cur.toNat + 11 + 3 * localTableSize s) = none) : ∃ u, execImage s = ends .truncated u := by
  by_cases hdescriptor : srcEnd s < s.cur.toNat + 10
  · exact ⟨s, if_pos hdescriptor⟩
  by_cases htable : srcEnd s < s.cur.toNat + 10 + 3 * localTableSize s
  · have hlct : packedHasTable (srcByte s (s.cur.toNat + 9)) = true := by
      by_contra hno
      rw [localTableSize_none (Bool.eq_false_iff.mpr hno)] at htable
      exact hdescriptor htable
    rw [execImage, if_neg hdescriptor]
    exact ⟨_, if_pos ⟨hlct, htable⟩⟩
  · have hdata : s.cur.toNat + 10 + 3 * localTableSize s + 1 = s.cur.toNat + 11 + 3 * localTableSize s := by omega
    rw [execImage_loaded (Nat.not_lt.mp htable)]
    refine imageData_truncated ?_
    rw [srcEnd_loadImage, collectSubBlocks_loadImage, hdata]
    exact (h.resolve_left hdescriptor).imp_left fun hcut => by omega

end

/-- Settles O15: wherever the cut is, the block ends `TRUNCATED`, and an image row writes no more than its own registers. -/
theorem cutImageBlockEndsTruncated : Obligations.CutImageBlockEndsTruncated := by
  intro s p l hcut
  have hl : localTableSize s = l := packedTableSize_toNat _
  obtain ⟨u, hu⟩ := execImage_truncated (s := s) (by rwa [hl])
  obtain ⟨-, hframes, hframeCount, -, -, hprev, hlog, hgce, -, -, hcanvas, hcur⟩ :=
    instructionFrames (lzwCtx s) .image s (endDecode .truncated u) hu
  obtain ⟨hdelay, hdisposal, -⟩ := hgce (by simp)
  have hgpal := (exec_keepsSource (i := .image) hu).gpal
  exact ⟨_, hu, rfl, rfl, rfl, hcur (by simp), hframes, hframeCount, hcanvas (by simp [Instr.format]), hgpal, hlog (by simp),
    hdelay, hdisposal, hprev⟩

section
variable {s : State}

theorem loadImage_local_entry (h : packedHasTable (srcByte s (s.cur.toNat + 9)) = true) :
    (loadImage s).apalLen.toNat = localTableSize s ∧ ∀ {j : Nat}, j < localTableSize s → (loadImage s).apal[j]? =
      some ⟨srcByte s (s.cur.toNat + 10 + 3 * j), srcByte s (s.cur.toNat + 10 + 3 * j + 1),
        srcByte s (s.cur.toNat + 10 + 3 * j + 2), s.gceTflag && decide (s.gceTindex.toNat = j)⟩ := by
  have hlen : (selectPalette (s.cur.toNat + 10) (readDescriptor s.cur.toNat s)).apalLen.toNat = localTableSize s := by
    rw [selectPalette_local (s := readDescriptor s.cur.toNat s) h]
    rfl
  refine ⟨hlen, fun hj => ?_⟩
  rw [loadImage, markTransparent_getElem? (hlen ▸ hj), selectPalette_local_entry (s := readDescriptor s.cur.toNat s) h hj]
  simp only [selectPalette_gceTflag, selectPalette_gceTindex, Option.map_some, Bool.false_or]
  rfl

theorem loadImage_global_entry (hinv : PaletteInv s) (h : packedHasTable (srcByte s (s.cur.toNat + 9)) = false) :
    (loadImage s).apalLen = s.gctSize ∧ ∀ {j : Nat}, j < s.gctSize.toNat → (loadImage s).apal[j]? =
      s.gpal[j]?.map fun e => { e with t := s.gceTflag && decide (s.gceTindex.toNat = j) } := by
  have hlen : (selectPalette (s.cur.toNat + 10) (readDescriptor s.cur.toNat s)).apalLen = s.gctSize := by
    rw [selectPalette_global (s := readDescriptor s.cur.toNat s) h]
    rfl
  refine ⟨hlen, fun {j} hj => ?_⟩
  rw [loadImage, markTransparent_getElem? (hlen ▸ hj),
    selectPalette_global_entry (paletteInv_readDescriptor hinv _) h hj]
  simp only [selectPalette_gceTflag, selectPalette_gceTindex]
  refine Option.map_congr fun e he => ?_
  rw [hinv.gpalUnmarked e (List.mem_of_getElem? he)]
  rfl

theorem loadImage_entry_past (hinv : PaletteInv s) {j : Nat} (hj : (loadImage s).apalLen.toNat ≤ j) :
    (loadImage s).apal[j]? = s.apal[j]? := by
  rw [loadImage, markTransparent_apalLen] at hj
  rw [loadImage, markTransparent_getElem?_past hj, selectPalette_entry_past (paletteInv_readDescriptor hinv _) hj]
  rfl

end

/-- Settles O14: the complete chain puts the whole block below N, so the step loads descriptor and palette and collects the chain. -/
theorem imageBlockIsRead : Obligations.ImageBlockIsRead := by
  intro s chunks hinv hsizes p packed l mark hbytes
  have hl : localTableSize s = l := packedTableSize_toNat _
  have hchain : holdsBytes s (p + 11 + 3 * localTableSize s) (encodeChain chunks) := by rwa [hl]
  have hexec := execImage_next (Nat.le_trans (Nat.le_add_right ..) hchain.2) (collectSubBlocks_chain hsizes hchain)
  rw [← hl]
  refine ⟨_, hexec, ?_⟩
  rw [loadImage_frame]
  exact ⟨rfl, rfl, rfl, rfl, rfl, rfl, rfl,
    fun hlocal => ⟨(loadImage_local_entry hlocal).1, fun j => (loadImage_local_entry hlocal).2⟩,
    fun hglobal => ⟨(loadImage_global_entry hinv hglobal).1, fun j => (loadImage_global_entry hinv hglobal).2⟩,
    fun j => loadImage_entry_past hinv, rfl, rfl, offset_toNat hchain.2, rfl, rfl⟩

end Sys2Proof.Machine
end

section
/-! Along a whole decode: the cursor only moves forward (41_block_walker R149), no allowed move stops
(93_implementation_defined), and every decode ends (42_lzw R189.8). -/

namespace Sys2Proof.Machine

/-! ## What a step does to the cursor (R149, 10_state R24) -/

/-- The ways a step of a running engine treats `CUR`. -/
inductive CursorMove (s t : State) : Prop where
  /-- it stays: the step is inside a block, or ends the decode -/
  | stays (same : t.cur = s.cur) (block : s.stage = .extension ∨ s.stage = .retire → t.phase = .done)
  /-- the container phase places it after the palette (40_container R117) -/
  | start (stage : s.stage = .container) (zero : s.cur = 0) (inside : t.cur.toNat ≤ srcEnd s)
  /-- a block ends with it past its bytes -/
  | past (block : s.stage = .extension ∨ s.stage = .retire) (next : t.stage = .walker) (forward : s.cur.toNat < t.cur.toNat)
      (inside : t.cur.toNat ≤ srcEnd s)
  /-- the trailer moves it past its tag (R146) -/
  | trailer (stage : s.stage = .walker) (complete : t.result = .complete) (forward : t.cur.toNat = s.cur.toNat + 1)
      (inside : t.cur.toNat ≤ srcEnd s)

/-- At every stage of a running decode the cursor is at most N, and 0 until the container phase is done. -/
theorem Inv.cur_le {s : State} (h : Inv s) (hbusy : s.phase = .busy) :
    s.cur.toNat ≤ srcEnd s ∧ (s.stage = .container → s.cur = 0) := by
  have hst := h.running hbusy
  cases hs : s.stage <;> simp only [StageInv, hs] at hst
  case container =>
    have hzero : s.cur = 0 := (congrArg State.cur hst).symm
    rw [hzero]
    exact ⟨Nat.zero_le _, fun _ => rfl⟩
  case walker => obtain ⟨-, hcur, -⟩ := hst; exact ⟨hcur, fun h => nomatch h⟩
  case extension => obtain ⟨-, hcur, -⟩ := hst; exact ⟨by omega, fun h => nomatch h⟩
  all_goals obtain ⟨-, ⟨hcur, hend, -⟩, -⟩ := hst; exact ⟨by omega, fun h => nomatch h⟩

theorem containerPhase_cur (s : State) : (containerPhase s).cur = s.cur ∨ (containerPhase s).cur.toNat ≤ srcEnd s := by
  by_cases hsig : signatureOk s = true
  case neg => exact .inl (by rw [containerPhase_badSignature hsig]; rfl)
  by_cases hscreen : srcEnd s < 13
  case pos => exact .inl (by rw [containerPhase_shortScreen hsig hscreen]; rfl)
  rw [containerPhase_screen hsig (Nat.not_lt.mp hscreen)]
  by_cases hpalette : srcEnd (afterScreen s) < 13 + 3 * (afterScreen s).gctSize.toNat
  case pos => exact .inl (by rw [containerTail_shortPalette hpalette]; rfl)
  by_cases hcanvas : (afterScreen s).cfg.maxCanvasPixels < canvasPixels (afterScreen s)
  case pos => exact .inl (by rw [containerTail_canvasTooLarge (Nat.not_lt.mp hpalette) hcanvas]; rfl)
  right
  rw [containerTail_allocates (Nat.not_lt.mp hpalette) (Nat.not_lt.mp hcanvas)]
  exact Nat.le_trans (Nat.le_of_eq (allocateCanvas_cur_toNat (s := readGlobalTable (afterScreen s)) (Nat.not_lt.mp hpalette)))
    (Nat.not_lt.mp hpalette)

/-- The rows that leave `CUR`: those that neither end a block nor are skipped (10_state R24). -/
theorem exec_cur (k : LzwCtx) {i : Instr} {s t : State} (h : exec i s = .next t)
    (hi : i.format k = .lzwCode k ∨ i.format k = .disposal3 ∨ i = .image ∨ i = .extension) : t.cur = s.cur := by
  obtain ⟨-, -, -, -, -, -, -, -, -, -, -, hcur⟩ := instructionFrames k i s t h
  exact hcur hi

/-- A tag's row leaves `CUR`, but for the trailer, which moves it past the tag. -/
theorem walkerStep_cur {s t : State} (h : walkerStep s = .next t) :
    t.cur = s.cur ∨ (t.result = .complete ∧ t.cur.toNat = s.cur.toNat + 1 ∧ s.cur.toNat < srcEnd s) := by
  by_cases hend : srcEnd s ≤ s.cur.toNat
  · rw [walkerStep_truncated hend] at h
    cases h
    exact .inl rfl
  have hcur := Nat.not_le.mp hend
  rw [walkerStep_eq hcur] at h
  rcases decodeTag_cases (srcByte s s.cur.toNat) with ⟨-, hd⟩ | ⟨-, hd⟩ | ⟨-, hd⟩ | hd <;> rw [hd] at h
  · exact .inl ((exec_cur (lzwCtx s) h (by simp)).trans (logTag_cur _ s))
  · exact .inl ((exec_cur (lzwCtx s) h (by simp)).trans (logTag_cur _ s))
  · cases h
    exact .inr ⟨rfl, cur_succ_toNat hcur, hcur⟩
  · cases h
    exact .inl rfl

/-- An extension ends the decode, or is left behind. -/
theorem extensionStep_cur {s t : State} (h21 : srcByte s s.cur.toNat = 0x21#8) (h : extensionStep s = .next t) :
    (t.phase = .done ∧ t.cur = s.cur) ∨ (t.stage = .walker ∧ s.cur.toNat < t.cur.toNat ∧ t.cur.toNat ≤ srcEnd s) := by
  have left : ∀ {q : Nat} {u : State}, t = toNextBlock q u → srcEnd u = srcEnd s → s.cur.toNat < q → q ≤ srcEnd s →
      t.stage = .walker ∧ s.cur.toNat < t.cur.toNat ∧ t.cur.toNat ≤ srcEnd s := by
    rintro q u rfl hu hlow hhigh
    rw [toNextBlock_cur_toNat (hu ▸ hhigh)]
    exact ⟨rfl, hlow, hhigh⟩
  rw [extensionStep_eq h21] at h
  rcases decodeLabel_cases (srcByte s (s.cur.toNat + 1)) with hd | hd | hd | hd | hd <;> rw [hd] at h
  · rcases execGce_cases h with rfl | ⟨h8, heq⟩
    · exact .inl ⟨rfl, rfl⟩
    · exact .inr (left heq rfl (by omega) h8)
  · rcases execApp_cases h with rfl | ⟨r, hcollect, heq⟩
    · exact .inl ⟨rfl, rfl⟩
    · obtain ⟨hlow, hhigh, -⟩ := collectSubBlocks_bounds hcollect
      exact .inr (left heq rfl (by omega) hhigh)
  · rcases execComment_cases h with rfl | ⟨r, hcollect, heq⟩
    · exact .inl ⟨rfl, rfl⟩
    · obtain ⟨hlow, hhigh, -⟩ := collectSubBlocks_bounds hcollect
      exact .inr (left heq rfl (by omega) hhigh)
  · cases h
    exact .inl ⟨rfl, rfl⟩
  · cases h
    exact .inl ⟨rfl, rfl⟩

theorem lzwSetup_cur (s : State) : (lzwSetup s).cur = s.cur := by
  rw [lzwSetup]
  split <;> rfl

theorem lzwStep_cur {s t : State} (hinv : LzwInv s) (hdata : s.data.length < 2 ^ 32) (h : lzwStep s = .next t) : t.cur = s.cur := by
  obtain ⟨u, -, hu, hcases⟩ := lzwStep_cases hinv hdata
  have hcur : u.cur = s.cur := by rw [hu]
  rw [← hcur]
  rcases hcases with heq | ⟨-, heq | heq | heq | ⟨c, -, heq⟩ | ⟨run, pc, c, k, -, -, -, -, heq⟩⟩ <;> rw [heq] at h <;> cases h
  · rfl
  · rfl
  · rfl
  · rfl
  · rfl
  · rw [emitRun_frame]

theorem composeStep_cur (s : State) : (composeStep s).cur = s.cur := by
  rcases composeStep_cases s with ⟨r, canvas, -, -, heq⟩ | ⟨canvas, -, -, heq⟩
  · rw [heq, endDecode_cur]
  · rw [heq]

theorem disposeStep_cur {s t : State} (hsized : CanvasSized s) (h : disposeStep s = .next t) : t.cur = s.cur := by
  rcases disposeStep_cases hsized h with rfl | ⟨canvas, -, -, rfl⟩ <;> rfl

theorem engineStep_cursor {s t : State} (hinv : Inv s) (hbusy : s.phase = .busy) (h : engineStep s = .next t) : CursorMove s t := by
  have hst := hinv.running hbusy
  have inside : t.cur = s.cur → s.stage ≠ .extension → s.stage ≠ .retire → CursorMove s t := fun hsame hext hretire =>
    .stays hsame fun hblock => (hblock.elim hext hretire).elim
  cases hs : s.stage with
  | container =>
    rw [engineStep_container hbusy hs] at h
    cases h
    rcases containerPhase_cur s with hsame | hle
    · exact inside hsame (by simp [hs]) (by simp [hs])
    · exact .start hs ((hinv.cur_le hbusy).2 hs) hle
  | walker =>
    rw [engineStep_walker hbusy hs] at h
    rcases walkerStep_cur h with hsame | ⟨hcomplete, hmove, hcur⟩
    · exact inside hsame (by simp [hs]) (by simp [hs])
    · exact .trailer hs hcomplete hmove (by omega)
  | extension =>
    rw [engineStep_extension hbusy hs] at h
    simp only [StageInv, hs] at hst
    obtain ⟨-, -, h21, -⟩ := hst
    rcases extensionStep_cur h21 h with ⟨hdone, hsame⟩ | ⟨hnext, hforward, hle⟩
    · exact .stays hsame fun _ => hdone
    · exact .past (.inl hs) hnext hforward hle
  | lzwSetup =>
    rw [engineStep_lzwSetup hbusy hs] at h
    cases h
    exact inside (lzwSetup_cur s) (by simp [hs]) (by simp [hs])
  | lzw =>
    rw [engineStep_lzw hbusy hs] at h
    simp only [StageInv, hs] at hst
    obtain ⟨-, ⟨-, -, hdata⟩, -, -, hlzw⟩ := hst
    exact inside (lzwStep_cur hlzw (Nat.lt_of_le_of_lt hdata s.srcLen.isLt) h) (by simp [hs]) (by simp [hs])
  | compose =>
    rw [engineStep_compose hbusy hs] at h
    cases h
    exact inside (composeStep_cur s) (by simp [hs]) (by simp [hs])
  | dispose =>
    rw [engineStep_dispose hbusy hs] at h
    simp only [StageInv, hs] at hst
    obtain ⟨hsized, -⟩ := hst
    exact inside (disposeStep_cur hsized h) (by simp [hs]) (by simp [hs])
  | retire =>
    rw [engineStep_retire hbusy hs] at h
    cases h
    simp only [StageInv, hs] at hst
    obtain ⟨-, ⟨hforward, hle, -⟩, -⟩ := hst
    exact .past (.inr hs) rfl hforward hle

/-- Settles O54: each way a step treats the cursor is forward, and only one of them moves it inside a block that goes on. -/
theorem cursorOnlyMovesForward : Obligations.CursorOnlyMovesForward := by
  intro s t hinv hbusy h
  obtain ⟨hcur, -⟩ := hinv.cur_le hbusy
  have hend : srcEnd t = srcEnd s := congrArg BitVec.toNat (engineStep_keepsHost h).srcLen
  rw [hend]
  cases engineStep_cursor hinv hbusy h with
  | stays hsame hblock =>
    rw [hsame]
    exact ⟨hcur, Nat.le_refl _, fun hs => .inl (hblock hs), fun _ _ _ _ => rfl⟩
  | start hs hzero hle =>
    exact ⟨hle, by rw [hzero]; exact Nat.zero_le _, fun hblock => by simp [hs] at hblock, fun hno => absurd hs hno⟩
  | past hs hnext hforward hle =>
    exact ⟨hle, Nat.le_of_lt hforward, fun _ => .inr ⟨hnext, hforward⟩, fun _ hext hretire => (hs.elim hext hretire).elim⟩
  | trailer hs hcomplete hforward hle =>
    exact ⟨hle, by omega, fun hblock => by simp [hs] at hblock, fun _ _ _ hno => absurd hcomplete hno⟩

/-! ## Every allowed move answers -/

/-- The outcome is a next state. -/
def Answers (o : Host.Outcome State Fault Refusal) : Prop := ∃ t, o = .next t

theorem answers_next (t : State) : Answers (.next t) := ⟨t, rfl⟩

theorem answers_ends (r : Result) (s : State) : Answers (ends r s) := ⟨_, rfl⟩

theorem answers_ite {c : Prop} [Decidable c] {a b : Host.Outcome State Fault Refusal} (ha : c → Answers a) (hb : ¬c → Answers b) :
    Answers (if c then a else b) := by
  split
  · exact ha ‹_›
  · exact hb ‹_›

theorem imageData_answers (q : Nat) (s : State) : Answers (imageData q s) := by
  by_cases hend : srcEnd s ≤ q
  · exact ⟨_, if_pos hend⟩
  · cases hcollect : collectSubBlocks s (q + 1) with
    | none =>
      obtain ⟨u, hu⟩ := imageData_truncated (.inr hcollect)
      exact ⟨_, hu⟩
    | some r => exact ⟨_, imageData_next (Nat.not_le.mp hend) hcollect⟩

theorem execImage_answers (s : State) : Answers (execImage s) :=
  answers_ite (fun _ => answers_ends ..) fun _ => answers_ite (fun _ => answers_ends ..) fun _ => imageData_answers ..

theorem execExtension_answers (s : State) : Answers (execExtension s) :=
  answers_ite (fun _ => answers_ends ..) fun _ => answers_next _

theorem execGce_answers (s : State) : Answers (execGce s) :=
  answers_ite (fun _ => answers_ends ..) fun _ => answers_next _

theorem execApp_answers (s : State) : Answers (execApp s) := by
  refine answers_ite (fun _ => answers_ends ..) fun _ => ?_
  cases collectSubBlocks s (s.cur.toNat + 14) with
  | none => exact answers_ends ..
  | some r => exact answers_next _

theorem execComment_answers (s : State) : Answers (execComment s) := by
  cases hcollect : collectSubBlocks s (s.cur.toNat + 2) with
  | none => exact ⟨_, execComment_cut hcollect⟩
  | some r =>
    rw [execComment_collected hcollect]
    exact answers_ite (fun _ => answers_next _) fun _ => answers_next _

theorem walkerStep_answers (s : State) : Answers (walkerStep s) := by
  by_cases hend : srcEnd s ≤ s.cur.toNat
  · exact ⟨_, walkerStep_truncated hend⟩
  · rw [walkerStep_eq (Nat.not_le.mp hend)]
    rcases decodeTag_cases (srcByte s s.cur.toNat) with ⟨-, hd⟩ | ⟨-, hd⟩ | ⟨-, hd⟩ | hd <;> rw [hd]
    · exact execImage_answers _
    · exact execExtension_answers _
    · exact answers_ends ..
    · exact answers_ends ..

theorem extensionStep_answers {s : State} (h21 : srcByte s s.cur.toNat = 0x21#8) : Answers (extensionStep s) := by
  rw [extensionStep_eq h21]
  rcases decodeLabel_cases (srcByte s (s.cur.toNat + 1)) with hd | hd | hd | hd | hd <;> rw [hd]
  · exact execGce_answers s
  · exact execApp_answers s
  · exact execComment_answers s
  · exact answers_ends ..
  · exact answers_ends ..

/-- Between codes every code that can be read has a class whose meaning runs (30_encoding R100, 42_lzw R189). -/
theorem lzwStep_answers {s : State} (hinv : LzwInv s) (hdata : s.data.length < 2 ^ 32) : Answers (lzwStep s) := by
  obtain ⟨u, -, -, hcases⟩ := lzwStep_cases hinv hdata
  rcases hcases with heq | ⟨-, heq | heq | heq | ⟨c, -, heq⟩ | ⟨run, pc, c, k, -, -, -, -, heq⟩⟩ <;> exact ⟨_, heq⟩

theorem execDisposeReserved_answers (v : BitVec 3) (s : State) : Answers (execDisposeReserved v s) := by
  unfold execDisposeReserved
  cases s.cfg.reservedDisposal with
  | fault => exact answers_ends ..
  | asNoAction => exact answers_next _

theorem disposeStep_answers (s : State) : Answers (disposeStep s) := by
  rw [disposeStep, runWord_of_decode (decode_disposal3 s.gceDisposal)]
  unfold decodeDisposal
  split_ifs
  · exact answers_next _
  · exact answers_next _
  · exact answers_next _
  · exact answers_next _
  · exact execDisposeReserved_answers s.gceDisposal s

theorem engineStep_answers {s : State} (hinv : Inv s) : Answers (engineStep s) := by
  by_cases hbusy : s.phase = .busy
  · have hst := hinv.running hbusy
    cases hs : s.stage <;> simp only [StageInv, hs] at hst
    case container => exact ⟨_, engineStep_container hbusy hs⟩
    case walker => rw [engineStep_walker hbusy hs]; exact walkerStep_answers s
    case extension =>
      obtain ⟨-, -, h21, -⟩ := hst
      rw [engineStep_extension hbusy hs]
      exact extensionStep_answers h21
    case lzwSetup => exact ⟨_, engineStep_lzwSetup hbusy hs⟩
    case lzw =>
      obtain ⟨-, ⟨-, -, hdata⟩, -, -, hlzw⟩ := hst
      rw [engineStep_lzw hbusy hs]
      exact lzwStep_answers hlzw (Nat.lt_of_le_of_lt hdata s.srcLen.isLt)
    case compose => exact ⟨_, engineStep_compose hbusy hs⟩
    case dispose => rw [engineStep_dispose hbusy hs]; exact disposeStep_answers s
    case retire => exact ⟨_, engineStep_retire hbusy hs⟩
  · exact ⟨_, engineStep_rest hbusy⟩

theorem answerAtRest_answers (w : Word) (s : State) : Answers (answerAtRest w s) :=
  answers_ite (fun _ => answers_next _) fun _ => answers_next _

theorem hostReadReg_answers (off : BitVec 8) (s : State) : Answers (hostReadReg off s) := by
  refine answers_ite (fun _ => answers_next _) fun _ => ?_
  cases registerWord s off with
  | none => exact answers_next _
  | some w => exact answerAtRest_answers w s

theorem hostWriteReg_answers {off : BitVec 8} {s : State} (hnamed : (registerWord s off).isSome = true) (v : Word) :
    Answers (hostWriteReg off v s) :=
  answers_ite (fun _ => answers_next _) fun _ => answers_ite (fun _ => answers_next _) fun _ =>
    answers_ite (fun _ => answers_next _) fun hno => absurd hnamed hno

/-- A bus transaction the spec gives a meaning answers (70_reset R274; log 8, log 9). -/
theorem hostStep_answers {s : State} {op : HostOp} {rest : List HostOp} (hhost : s.host = op :: rest)
    (hallowed : moveAllowed s = true) : Answers (hostStep op { s with host := rest }) := by
  cases op <;> simp only [moveAllowed, hhost, Bool.and_eq_true, decide_eq_true_eq] at hallowed
  case yield => exact answers_next _
  case hardReset => exact answers_next _
  case writeReg off v => exact hostWriteReg_answers (s := { s with host := rest }) hallowed v
  case readReg off => exact hostReadReg_answers off _
  case writeSrc a b =>
    obtain ⟨hrest, ha⟩ := hallowed
    exact ⟨_, hostWriteSrc_rest (s := { s with host := rest }) hrest ha b⟩
  case readSrc a =>
    rw [hostStep, hostReadSrc, if_pos hallowed]
    exact answerAtRest_answers ..
  case readFrame k i => exact answerAtRest_answers ..
  case readDelay k => exact answerAtRest_answers ..
  case readTag j => exact answerAtRest_answers ..

/-- Settles O57: the move is the engine's, which answers from the invariant, or a transaction, which answers when allowed. -/
theorem noAllowedMoveStops : Obligations.NoAllowedMoveStops := by
  intro s hinv hallowed
  cases hhost : s.host with
  | nil =>
    rw [step_engine hhost]
    exact engineStep_answers hinv
  | cons op rest =>
    by_cases hop : op = .yield
    · subst hop
      rw [step_yield hhost]
      exact engineStep_answers (hinv.withPending rest)
    · rw [step_host hhost hop]
      exact hostStep_answers hhost hallowed

/-! ## Every decode ends -/

/-- What is left to do falls with every step that does not end the decode, so by induction on it DONE is reached. -/
theorem run_reaches_done {s : State} (hinv : Inv s) (hbusy : s.phase = .busy) (hhost : s.host = []) :
    ∃ n t, Host.Core.run core n s = .next t ∧ t.phase = .done := by
  induction hwork : workLeft s using Nat.strong_induction_on generalizing s with
  | _ work ih =>
    obtain ⟨u, hu⟩ := engineStep_answers hinv
    have hstep : step s = .next u := (step_engine hhost).trans hu
    rcases engineStep_decreases hinv hbusy hu with hdone | ⟨hbusy', hless⟩
    · exact ⟨1, u, run_succ_next.mpr ⟨u, hstep, rfl⟩, hdone⟩
    · obtain ⟨n, t, hrun, hdone⟩ :=
        ih _ (hwork ▸ hless) (engineStep_inv hinv hu) hbusy' ((engineStep_keepsHost hu).host.trans hhost) rfl
      exact ⟨n + 1, t, run_succ_next.mpr ⟨u, hstep, hrun⟩, hdone⟩

/-- Settles O59: every step answers and leaves less to do, until the decode is done. -/
theorem everyDecodeEnds : Obligations.EveryDecodeEnds := fun _ => run_reaches_done

end Sys2Proof.Machine
end

section
/-! The LZW Decompressor's rows (42_lzw R170 to R189): set-up and CLEAR, the append, the runs codes name, and the rows that emit
one. -/

namespace Sys2Proof.Machine

/-! ## Set-up and CLEAR (R170, R171, R177) -/

section
variable {s : State}

theorem lzwSetup_badMinCodeSize (h : s.minCodeSize.toNat < 2 ∨ 11 < s.minCodeSize.toNat) :
    lzwSetup s = endDecode .badMinCodeSize s := if_pos h

theorem lzwSetup_next (h2 : 2 ≤ s.minCodeSize.toNat) (h11 : s.minCodeSize.toNat ≤ 11) : lzwSetup s = initLzw s :=
  if_neg (by omega)

theorem step_lzwSetup (hhost : s.host = []) (hbusy : s.phase = .busy) (hstage : s.stage = .lzwSetup) :
    step s = .next (lzwSetup s) :=
  (step_engine hhost).trans (engineStep_lzwSetup hbusy hstage)

end

/-- Settles O23: set-up establishes the invariant, which with no previous code fixes every code register but the width and the
mask; those are `setCodeSize`'s. -/
theorem lzwSetupChecksAndInitialises : Obligations.LzwSetupChecksAndInitialises := by
  intro s hhost hbusy hstage
  rw [step_lzwSetup hhost hbusy hstage]
  refine ⟨fun hbad => by rw [lzwSetup_badMinCodeSize hbad]; rfl, fun h2 h11 => ?_⟩
  rw [lzwSetup_next h2 h11]
  have hwidth : s.minCodeSize.toNat + 1 ≤ 12 := Nat.succ_le_succ h11
  have hinv := initLzw_inv ⟨h2, h11⟩
  have hclear : (initLzw s).clearCode.toNat = 2 ^ s.minCodeSize.toNat := hinv.clearCode
  have heoi := hinv.eoiCode
  have hnext := hinv.prevNone rfl
  rw [hclear] at heoi hnext
  exact ⟨_, rfl, hclear, heoi, setCodeSize_codeSize_toNat hwidth s, setCodeSize_codeMask_toNat hwidth s, hnext, rfl, rfl, rfl, rfl,
    rfl, rfl, rfl⟩

/-- Settles O25: after CLEAR there is no previous code, so by the invariant the next code is the first free one. -/
theorem clearResetsTheCodes : Obligations.ClearResetsTheCodes := by
  intro s hinv
  have hwidth : s.minCodeSize.toNat + 1 ≤ 12 := Nat.succ_le_succ hinv.minCode.2
  exact ⟨_, rfl, setCodeSize_codeSize_toNat hwidth s, setCodeSize_codeMask_toNat hwidth s, (resetCodes_inv hinv).prevNone rfl, rfl,
    rfl⟩

/-! ## FIRST, FIRST_NONLITERAL and LITERAL (R178 to R180) -/

/-- Settles O26: a code below `CLEAR_CODE` fits a symbol. -/
theorem firstCodeEmitsOrFaults : Obligations.FirstCodeEmitsOrFaults :=
  ⟨fun _ _ hlit hclear => ⟨_, sym_toNat_ofNat (Nat.lt_of_lt_of_le hlit hclear), rfl⟩, fun _ _ => rfl⟩

theorem exec_literal {s : State} {c pc : Code} (hprev : s.prevCode = some pc) :
    exec (.literal c) s = .next (emitRun [BitVec.ofNat 11 c.toNat] pc (BitVec.ofNat 11 c.toNat) c s) := by
  simp only [exec, execLiteral, hprev]

/-- Settles O28: a literal's run is its own symbol, which fits. -/
theorem literalEmitsAndAppends : Obligations.LiteralEmitsAndAppends :=
  fun _ _ _ hprev hlit hclear => ⟨_, sym_toNat_ofNat (Nat.lt_of_lt_of_le hlit hclear), exec_literal hprev⟩

/-! ## The append (R184 to R186) -/

section
variable {s : State}

theorem addEntry_reads_new (hsize : s.codeSize.toNat ≤ 12) (hroom : s.nextCode.toNat < 4096) (pc : Code) (k : Sym) :
    cellLookup (addEntry pc k s).table s.nextCode.toNat = some ⟨pc, k⟩ := by
  obtain ⟨-, htable, -⟩ := addEntry_append hsize hroom pc k
  rw [htable, cellLookup_insert_same]

theorem addEntry_reads_other (hsize : s.codeSize.toNat ≤ 12) (hroom : s.nextCode.toNat < 4096) (pc : Code) (k : Sym) {c : Nat}
    (hc : c ≠ s.nextCode.toNat) : cellLookup (addEntry pc k s).table c = cellLookup s.table c := by
  obtain ⟨-, htable, -⟩ := addEntry_append hsize hroom pc k
  rw [htable, cellLookup_insert_other _ _ hc]

/-- What a code names depends on the table and the two codes that bound it alone. -/
theorem NamesString.congr {t : State} (hclear : t.clearCode = s.clearCode) (hnext : t.nextCode = s.nextCode)
    (htable : t.table = s.table) {c : Nat} {run : List Sym} (h : NamesString s c run) : NamesString t c run :=
  h.mono hclear (by rw [hnext]) fun _ _ => by rw [htable]

/-- The slot an append writes names the run of `pc` with the new symbol after it (R182, R183). -/
theorem NamesString.addEntry_new {pc : Code} {run : List Sym} (h : NamesString s pc.toNat run) (hsize : s.codeSize.toNat ≤ 12)
    (hroom : s.nextCode.toNat < 4096) (hlow : s.clearCode.toNat + 2 ≤ s.nextCode.toNat) (k : Sym) :
    NamesString (addEntry pc k s) s.nextCode.toNat (run ++ [k]) := by
  obtain ⟨hnext, -⟩ := addEntry_append hsize hroom pc k
  have hclear := addEntry_clearCode pc k s
  refine .slot (e := ⟨pc, k⟩) (by rw [hclear]; exact hlow) (by omega) (addEntry_reads_new hsize hroom pc k) ?_
  exact h.mono hclear (by omega) fun c hc => addEntry_reads_other hsize hroom pc k (Nat.ne_of_lt hc)

end

/-- Settles O27: with room the append writes slot `NEXT_CODE` and grows the width by R185's test; full, it does nothing. -/
theorem addEntryAppendsAndGrows : Obligations.AddEntryAppendsAndGrows := by
  intro s pc k hsize
  refine ⟨fun hfull => addEntry_full hfull pc k, fun hroom => ?_⟩
  obtain ⟨hnext, -, hgrows, hstays⟩ := addEntry_append hsize hroom pc k
  exact ⟨hnext, addEntry_reads_new hsize hroom pc k, fun _ => addEntry_reads_other hsize hroom pc k, hgrows, hstays,
    addEntry_frame pc k s⟩

/-! ## The runs of live codes (R183, R189) -/

section
variable {s : State} {c pc : Code} {k : Sym} {rest : List Sym}

/-- The walk from a code that names a run finds that run. -/
theorem LzwInv.stringOf_eq (h : LzwInv s) (hc : namesRun s s.nextCode.toNat c.toNat) :
    ∃ (k : Sym) (rest : List Sym), NamesString s c.toNat (k :: rest) ∧ stringOf s c = some (k :: rest) ∧
      ∀ x ∈ k :: rest, x.toNat < s.clearCode.toNat := by
  obtain ⟨k, rest, hnames, hlength, hsymbols⟩ := namesString_exists h hc
  exact ⟨k, rest, hnames, stringOf_of_namesString hnames hlength, hsymbols⟩

theorem exec_table (hprev : s.prevCode = some pc) (hrun : stringOf s c = some (k :: rest)) :
    exec (.table c) s = .next (emitRun (k :: rest) pc k c s) := by
  simp only [exec, execTable, hprev, hrun]

theorem exec_kwkwk (hprev : s.prevCode = some pc) (hrun : stringOf s pc = some (k :: rest)) :
    exec (.kwkwk c) s = .next (emitRun (k :: rest ++ [k]) pc k c s) := by
  simp only [exec, execKwkwk, hprev, hrun]

end

/-- Settles O29: the run is the walk's, and a code names only one. -/
theorem everyLiveCodeNamesARun : Obligations.EveryLiveCodeNamesARun := by
  intro s c hinv hc
  obtain ⟨k, rest, hnames, hrun, hsymbols⟩ := hinv.stringOf_eq hc
  exact ⟨_, List.cons_ne_nil k rest, hrun, hnames, fun _ => namesString_unique hnames, hsymbols⟩

/-- Settles O30: the code is a live slot's, so the walk finds the run it names. -/
theorem tableEmitsItsRunAndAppends : Obligations.TableEmitsItsRunAndAppends := by
  intro s c pc hinv hprev hlow hlive
  obtain ⟨k, rest, hnames, hrun, -⟩ := hinv.stringOf_eq (.inr ⟨hlow, hlive⟩)
  exact ⟨k, rest, hnames, exec_table hprev hrun⟩

/-- Settles O31: the previous code names a run, and the slot appended to it is the code's own. A 12-bit code equal to `NEXT_CODE`
leaves room for the append. -/
theorem kwkwkDefinesTheSlotItNames : Obligations.KwkwkDefinesTheSlotItNames := by
  intro s c pc hinv hprev hc
  obtain ⟨k, rest, hnames, hrun, -⟩ := hinv.stringOf_eq (hinv.prevSome pc hprev)
  refine ⟨k, rest, _, hnames, exec_kwkwk hprev hrun, rfl, ?_⟩
  have hroom : s.nextCode.toNat < 4096 := hc ▸ c.isLt
  have hemitted : NamesString { s with idx := s.idx ++ (k :: rest ++ [k]) } pc.toNat (k :: rest) := by
    refine hnames.congr ?_ ?_ ?_ <;> rfl
  have hnew := hemitted.addEntry_new hinv.codeSize.2 hroom hinv.nextCode.1 k
  rw [hc]
  refine hnew.congr ?_ ?_ ?_ <;> rfl

/-! ## The invariant (R189) -/

/-- An ending leaves every LZW register as it is. -/
theorem endDecode_inv {s : State} (h : LzwInv s) (r : Result) : LzwInv (endDecode r s) :=
  h.congr rfl rfl rfl rfl rfl rfl rfl rfl h.reader h.symbols

/-- Settles O33: each row that stays at this stage keeps the invariant of the state the code was read in; INVALID, EOI and END go on
to the compositor. -/
theorem lzwInvariantIsKept : Obligations.LzwInvariantIsKept := by
  intro s t hbusy hlzw hdata hinv hstep hstays
  rw [engineStep_lzw hbusy hlzw] at hstep
  obtain ⟨u, hu, -, hcases⟩ := lzwStep_cases hinv hdata
  rcases hcases with hend | ⟨-, hend | hclear | hfault | ⟨c, hlit, hfirst⟩ | ⟨run, pc, c, k, hprev, hrun, hk, hc, hemit⟩⟩
  · cases hend.symm.trans hstep
    cases hstays
  · cases hend.symm.trans hstep
    cases hstays
  · cases hclear.symm.trans hstep
    exact resetCodes_inv hu
  · cases hfault.symm.trans hstep
    exact endDecode_inv hu _
  · cases hfirst.symm.trans hstep
    exact first_inv hu hlit
  · cases hemit.symm.trans hstep
    exact emitRun_inv hu hprev hrun hk hc

end Sys2Proof.Machine
end

section
/-! The Frame Compositor (43_compositor R210 to R223): one equation for each way the compose step goes, what the pixel loops leave on
the canvas, and the disposals. -/

namespace Sys2Proof.Machine

section
variable {s : State}

/-! ## The compose step (R210, R211, R216) -/

theorem step_compose (hhost : s.host = []) (hbusy : s.phase = .busy) (hstage : s.stage = .compose) :
    step s = .next (composeStep s) := by
  rw [step_engine hhost, engineStep_compose hbusy hstage]

theorem composeStep_outside (h : ¬RectInside s) :
    composeStep s = endDecode .rectOutsideCanvas { s with snap := s.canvas } := by
  have hout : rectOutside { s with snap := s.canvas } = true := rectOutside_eq_true.mpr h
  rw [composeStep, if_pos hout]

/-- The loops do not read the snapshot. -/
theorem paintRect_snap (s : State) (snap : List Pixel) : paintRect { s with snap := snap } = paintRect s :=
  paint_congr (s := s) (t := { s with snap := snap }) ⟨rfl, rfl, rfl, rfl, rfl, rfl, rfl, rfl, rfl⟩ _ _ _

/-- The state after the snapshot and the pixel loops (R210, R212 to R215). -/
def painted (s : State) : State := { s with snap := s.canvas, canvas := (paintRect s).1 }

/-- With the rectangle inside the canvas the loops run on the canvas the snapshot was taken of. -/
theorem composeStep_inside (h : RectInside s) :
    composeStep s = if (paintRect s).2 then emitFrame (painted s) else endDecode .paletteIndex (painted s) := by
  have hin : ¬rectOutside { s with snap := s.canvas } = true := Bool.eq_false_iff.mp (rectOutside_eq_false.mpr h)
  rw [composeStep, if_neg hin, composePixels, paintRect_snap s]
  rfl

/-- Whatever comes of the frame, the snapshot is the canvas before its pixels (R210). -/
theorem composeStep_snap (s : State) : (composeStep s).snap = s.canvas := by
  rcases composeStep_cases s with ⟨r, canvas, -, -, heq⟩ | ⟨canvas, -, -, heq⟩ <;> rw [heq]
  rfl

/-! ## Frame emission (R216) -/

theorem framesFull_room (h : s.cfg.frameCapacity = none ∨ ∃ c, s.cfg.frameCapacity = some c ∧ s.frameCount.toNat < c) :
    framesFull s = false := by
  rcases h with h | ⟨c, h, hlt⟩ <;> simp only [framesFull, h]
  exact decide_eq_false (Nat.not_le.mpr hlt)

theorem framesFull_reached {c : Nat} (h : s.cfg.frameCapacity = some c) (hle : c ≤ s.frameCount.toNat) : framesFull s = true := by
  simp only [framesFull, h]
  exact decide_eq_true hle

theorem emitFrame_room (h : framesFull s = false) : emitFrame s =
    { s with frames := s.frames ++ [⟨s.canvas, s.gceDelay⟩], frameCount := s.frameCount + 1, stage := .dispose } :=
  if_neg (Bool.eq_false_iff.mp h)

theorem emitFrame_full (h : framesFull s = true) : emitFrame s = endDecode .frameOverflow s := if_pos h

/-- Emission neither reads nor writes the previous disposal. -/
theorem emitFrame_withPrevDisposal (s : State) (d : BitVec 3) :
    emitFrame { s with prevDisposal := d } = { emitFrame s with prevDisposal := d } := by
  have hsame : framesFull { s with prevDisposal := d } = framesFull s := rfl
  cases h : framesFull s with
  | true => rw [emitFrame_full (hsame.trans h), emitFrame_full h]; rfl
  | false => rw [emitFrame_room (hsame.trans h), emitFrame_room h]

/-! ## The pixels (R212 to R215) -/

theorem pixelIndex_stream {k : Nat} (h : k < s.idx.length) : pixelIndex s k = s.idx[k].toNat := by
  simp only [pixelIndex, List.getElem?_eq_getElem h]

theorem pixelIndex_backfill {k : Nat} (h : s.idx.length ≤ k) : pixelIndex s k = s.bgIndex.toNat := by
  simp only [pixelIndex, List.getElem?_eq_none h]

/-- The rectangle's loops stop at its first pixel whose index is past the palette. -/
theorem paintRect_stops {k : Nat} (hlen : s.apal.length = 256) (hpal : s.apalLen.toNat ≤ 256)
    (hk : k < s.imgW.toNat * s.imgH.toNat) (hbad : s.apalLen.toNat ≤ pixelIndex s k)
    (hgood : ∀ j, j < k → pixelIndex s j < s.apalLen.toNat) : paintRect s = ((paint s k 0 s.canvas).1, false) := by
  have hrest : s.imgW.toNat * s.imgH.toNat = k + 1 + (s.imgW.toNat * s.imgH.toNat - (k + 1)) := by omega
  rw [paintRect, hrest]
  refine paint_stops s.canvas (fun j _ hj => paletteEntry_isSome hlen hpal (hgood j (by omega))) ?_
  rw [Nat.zero_add]
  exact paletteEntry_eq_none hbad

/-- A canvas position outside the rectangle is no pixel's target. -/
theorem pixelTarget_ne_outside (hr : RectInside s) {j x y : Nat} (hj : j < s.imgW.toNat * s.imgH.toNat)
    (hx : x < s.canvasW.toNat) (hout : x < s.imgLeft.toNat ∨ s.imgLeft.toNat + s.imgW.toNat ≤ x ∨ y < s.imgTop.toNat ∨
      s.imgTop.toNat + s.imgH.toNat ≤ y) : pixelTarget s j ≠ y * s.canvasW.toNat + x := by
  intro heq
  obtain ⟨hcol, hrow⟩ := pixel_coordinates hj
  obtain ⟨hwidth, -⟩ := hr
  rw [pixelTarget, Nat.add_assoc] at heq
  obtain ⟨hy, hxcol⟩ := rowMajor_inj (by omega) hx heq
  have htop : s.imgTop.toNat ≤ y := hy ▸ Nat.le_add_right ..
  omega

/-- The first `n` pixels of the rectangle have targets of their own, in the form the laws of `paint` ask for. -/
theorem pixelTarget_injOn (hr : RectInside s) {n : Nat} (hn : n ≤ s.imgW.toNat * s.imgH.toNat) :
    ∀ a b, 0 ≤ a → a < 0 + n → 0 ≤ b → b < 0 + n → pixelTarget s a = pixelTarget s b → a = b :=
  fun _ _ _ ha _ hb => pixelTarget_inj hr (by omega) (by omega)

/-- What the target of one of the first `n` pixels holds after them. -/
theorem paint_painted (hr : RectInside s) (hlen : s.canvas.length = canvasPixels s) {n k : Nat} {e : PalEntry}
    (hn : n ≤ s.imgW.toNat * s.imgH.toNat) (hok : ∀ j, j < n → ∃ e, paletteEntry s (pixelIndex s j) = some e) (hk : k < n)
    (he : paletteEntry s (pixelIndex s k) = some e) : (paint s n 0 s.canvas).1[pixelTarget s k]? =
      if e.t ∧ s.prevDisposal ≠ 2#3 then s.canvas[pixelTarget s k]? else some (entryPixel e) := by
  have htarget : pixelTarget s k < s.canvas.length := hlen ▸ pixelTarget_lt hr (by omega)
  exact paint_target (fun j _ hj => hok j (by omega)) (pixelTarget_injOn hr hn) ⟨Nat.zero_le k, by omega⟩ htarget he

/-- The target of a pixel from the n-th on is as it was. -/
theorem paint_unpainted (hr : RectInside s) {n k : Nat} (hk : k < s.imgW.toNat * s.imgH.toNat) (hnk : n ≤ k) :
    (paint s n 0 s.canvas).1[pixelTarget s k]? = s.canvas[pixelTarget s k]? :=
  paint_other fun j _ hj heq => absurd (pixelTarget_inj hr (by omega) hk heq) (by omega)

end

/-- Settles O34: each clause is a branch of the step, and the loops stop at the first index past the palette. -/
theorem compositorFaultsInOrder : Obligations.CompositorFaultsInOrder := by
  intro s hhost hbusy hstage
  rw [step_compose hhost hbusy hstage]
  refine ⟨fun houtside => ?_, fun k hinside hlen hpal hk hbad hgood => ?_⟩
  · rw [composeStep_outside houtside]; rfl
  · rw [composeStep_inside hinside, painted, paintRect_stops hlen hpal hk hbad hgood]; rfl

/-- Settles O35: the pixel of a row and a column has a target that no other pixel has, and no position outside the rectangle is one. -/
theorem rectangleIsPainted : Obligations.RectangleIsPainted := by
  refine ⟨fun s k => ⟨fun h => pixelIndex_stream h, pixelIndex_backfill⟩, fun s => rfl, ?_⟩
  intro s n px hlen hwidth hheight hn hpx
  have hinside : RectInside s := ⟨hwidth, hheight⟩
  have hentry : ∀ k, k < n → paletteEntry s (pixelIndex s k) = some (px k) := fun k hk =>
    paletteEntry_eq_some (hpx k hk).1 (hpx k hk).2
  have hok : ∀ k, k < n → ∃ e, paletteEntry s (pixelIndex s k) = some e := fun k hk => ⟨px k, hentry k hk⟩
  refine ⟨paint_completes s.canvas fun j _ hj => hok j (by omega), fun row col hrow hcol => ?_, fun x y hx _ hout => ?_⟩
  · obtain ⟨hk, htarget⟩ := pixel_of_row_col hcol hrow
    rw [← htarget]
    exact ⟨fun hlt => paint_painted hinside hlen hn hok hlt (hentry _ hlt), paint_unpainted hinside hk⟩
  · exact paint_other fun j _ hj => pixelTarget_ne_outside hinside (by omega) hx hout

/-- Settles O36: the loops have completed, so the step is the emission of the painted canvas. -/
theorem paintedCanvasIsEmitted : Obligations.PaintedCanvasIsEmitted := by
  intro s hhost hbusy hstage hwidth hheight hpainted
  rw [step_compose hhost hbusy hstage, composeStep_inside ⟨hwidth, hheight⟩, if_pos hpainted]
  refine ⟨fun hroom => ?_, fun c hcap hle => ?_⟩
  · rw [emitFrame_room (s := painted s) (framesFull_room hroom)]; rfl
  · rw [emitFrame_full (s := painted s) (framesFull_reached hcap hle)]; rfl

/-! ## The transparency test (R214, R222) -/

/-- Where a previous disposal of 2 has left the canvas empty, the rectangle is painted the same under any other value. -/
theorem paintRect_withPrevDisposal {s : State} {d : BitVec 3} (hd : d ≠ 2#3) (hr : RectInside s) (he : EmptyAfter s.prevDisposal s) :
    paintRect { s with prevDisposal := d } = paintRect s :=
  paint_prevDisposal hd (pixelTarget_injOn hr (Nat.le_refl _)) fun htwo _ _ _ px hpx => he htwo px (List.mem_of_getElem? hpx)

/-- Settles O41: after a disposal 2 the canvas is empty, so writing a transparent pixel and skipping it leave the same. -/
theorem transparencyTestNeverChangesAFrame : Obligations.TransparencyTestNeverChangesAFrame := by
  intro s d hinv hbusy hstage hd
  have hrunning := hinv.running hbusy
  simp only [StageInv, hstage] at hrunning
  obtain ⟨-, -, -, hempty⟩ := hrunning
  by_cases hr : RectInside s
  · have hr' : RectInside { s with prevDisposal := d } := hr
    have hpaint : paintRect { s with prevDisposal := d } = paintRect s := paintRect_withPrevDisposal hd hr hempty
    rw [composeStep_inside hr', composeStep_inside hr, painted, hpaint]
    split
    · exact emitFrame_withPrevDisposal (painted s) d
    · rfl
  · have hr' : ¬RectInside { s with prevDisposal := d } := hr
    rw [composeStep_outside hr', composeStep_outside hr]; rfl

/-! ## Disposals and the end of the block (R217 to R221) -/

/-- Settles O37: the rows' meanings, the empty canvas being `CANVAS_W` * `CANVAS_H` transparent pixels. -/
theorem disposalsKeepOrClearTheCanvas : Obligations.DisposalsKeepOrClearTheCanvas := fun _ => ⟨rfl, rfl, rfl⟩

/-- Settles O38: what is restored is the snapshot, and the compose step takes it of the canvas it starts with. -/
theorem previousRestoresTheSnapshot : Obligations.PreviousRestoresTheSnapshot := by
  refine ⟨fun _ => rfl, fun s t u hhost hbusy hstage ht _ hu => ?_⟩
  rw [step_compose hhost hbusy hstage] at ht
  cases ht
  cases hu
  exact composeStep_snap s

theorem execDisposeReserved_fault {s : State} (h : s.cfg.reservedDisposal = .fault) (v : BitVec 3) :
    execDisposeReserved v s = ends .reservedDisposal s := by
  simp only [execDisposeReserved, h]

theorem execDisposeReserved_asNoAction {s : State} (h : s.cfg.reservedDisposal = .asNoAction) (v : BitVec 3) :
    execDisposeReserved v s = .next (toRetire s) := by
  simp only [execDisposeReserved, h]

/-- Settles O39: the row decides by the policy alone. -/
theorem reservedDisposalFollowsThePolicy : Obligations.ReservedDisposalFollowsThePolicy :=
  fun _ v => ⟨fun hfault => execDisposeReserved_fault hfault v, fun hnone => execDisposeReserved_asNoAction hnone v⟩

/-- Settles O40: at this stage the engine's step is `retireImage`. -/
theorem imageBlockRetires : Obligations.ImageBlockRetires :=
  fun _ hhost hbusy hstage => (step_engine hhost).trans (engineStep_retire hbusy hstage)

end Sys2Proof.Machine
end

section
/-! Endings (60_exceptions R241, R246, R249, R256): what ends a decode, what ends one block's decompression only, and the engine at
rest. -/

namespace Sys2Proof.Machine

/-! ## Endings of a decode (R241, R249) -/

theorem Result.code_le (r : Result) : r.code.toNat ≤ 0x89 := by cases r <;> decide

/-- The faults are the outcomes numbered from 0x81 on (R241). -/
theorem Result.isFault_iff (r : Result) : r.isFault = true ↔ 0x81 ≤ r.code.toNat := by cases r <;> decide

theorem Result.isTerminal_iff (r : Result) : r.isTerminal = true ↔ 0x01 ≤ r.code.toNat ∧ r.code.toNat ≤ 0x04 := by
  cases r <;> decide

/-- Settles O22: `endDecode` tells a fault by its name, which is the same as telling it by its number. -/
theorem endingsRecordTheirResult : Obligations.EndingsRecordTheirResult := by
  refine fun r s => ⟨?_, ?_, r.isTerminal_iff⟩
  · simp only [endDecode, r.isFault_iff]
  · rw [r.isFault_iff, and_iff_left r.code_le]

/-! ## The end of the data (R246, 42_lzw R173) -/

/-- One byte moved into the bit buffer leaves the number of pending bits as it is, whatever the buffer holds. -/
theorem pendingBits_byte {data : List Byte} (hd : data.length < 2 ^ 32) {r : BitReader} (hcnt : r.cnt.toNat < 24)
    (hptr : r.ptr.toNat < data.length) (buf : BitVec 20) :
    (r.ptr + 1).toNat ≤ data.length ∧ pendingBits data ⟨buf, r.cnt + 8, r.ptr + 1⟩ = pendingBits data r := by
  have hcnt' : (r.cnt + 8).toNat = r.cnt.toNat + 8 := BitVec.toNat_add_of_lt (show r.cnt.toNat + 8 < 2 ^ 5 by omega)
  have hptr' : (r.ptr + 1).toNat = r.ptr.toNat + 1 := BitVec.toNat_add_of_lt (show r.ptr.toNat + 1 < 2 ^ 32 by omega)
  simp only [pendingBits, hcnt', hptr']
  omega

/-- With fewer bits pending than a code takes, the refill loop runs out of data. -/
theorem refill_short {data : List Byte} (hd : data.length < 2 ^ 32) {size : Nat} (hsize : size ≤ 24) {fuel : Nat} {r : BitReader}
    (hptr : r.ptr.toNat ≤ data.length) (hshort : pendingBits data r < size) : (refill data size fuel r).2 = false := by
  induction fuel generalizing r with
  | zero => exact decide_eq_false (Nat.not_le.mpr (Nat.lt_of_le_of_lt (Nat.le_add_right _ _) hshort))
  | succ fuel ih =>
    have hcnt : r.cnt.toNat < size := Nat.lt_of_le_of_lt (Nat.le_add_right _ _) hshort
    rw [refill, if_pos hcnt]
    cases hget : data[r.ptr.toNat]? with
    | none => rfl
    | some d =>
      obtain ⟨hlt, -⟩ := List.getElem?_eq_some_iff.mp hget
      obtain ⟨hptr', hbits⟩ := pendingBits_byte hd (Nat.lt_of_lt_of_le hcnt hsize) hlt _
      exact ih hptr' (hbits ▸ hshort)

section
variable {s : State}

theorem readCode_short (hd : s.data.length < 2 ^ 32) (hptr : s.rdPtr.toNat ≤ s.data.length)
    (hshort : pendingBits s.data (readerOf s) < s.codeSize.toNat) : (readCode s).2 = none := by
  have hsize : s.codeSize.toNat ≤ 24 := by omega
  have hout := refill_short hd hsize (fuel := s.codeSize.toNat) (r := readerOf s) hptr hshort
  rw [readerOf] at hout
  simp only [readCode, hout, Bool.false_eq_true, if_false]

/-- At `END` the step writes the bit-buffer registers and goes on to the compositor. -/
theorem lzwStep_end (h : (readCode s).2 = none) : lzwStep s = .next { s with
    bitBuf := (readCode s).1.bitBuf, bitCnt := (readCode s).1.bitCnt, rdPtr := (readCode s).1.rdPtr, stage := .compose } := by
  have hread : readCode s = ((readCode s).1, none) := Prod.ext rfl h
  have hstep : lzwStep s = .next (endLzw (readCode s).1) := by rw [lzwStep, hread]
  have hframe := congrArg endLzw (readCode_frame s)
  exact hstep.trans (congrArg Host.Outcome.next hframe)

end

/-- Settles O24: the rows INVALID and EOI are `endLzw`; a code needs more bits than are pending, so the read answers `END`. -/
theorem streamEndsLeaveTheIndexStream : Obligations.StreamEndsLeaveTheIndexStream := by
  refine ⟨fun _ _ => rfl, fun _ => rfl, fun s hhost hbusy hstage hd hptr hshort => ?_⟩
  have hend := lzwStep_end (readCode_short hd hptr hshort)
  exact ⟨_, (step_engine hhost).trans ((engineStep_lzw hbusy hstage).trans hend), rfl, hbusy, rfl, rfl⟩

/-! ## The engine at rest (R256, 70_reset R270) -/

/-- Settles O50: with no host move pending the step is the engine's, which rests unless BUSY. -/
theorem engineRestsUnlessBusy : Obligations.EngineRestsUnlessBusy :=
  fun _ hhost hrest => (step_engine hhost).trans (engineStep_rest hrest)

end Sys2Proof.Machine
end

section
/-! Hardware reset (70_reset R270): a host move with no guard on the phase, so it takes effect at any time. -/

namespace Sys2Proof.Machine

/-- A pending hardware reset is taken whatever the engine is doing; only the move itself leaves the host's list. -/
theorem step_hardReset {s : State} {rest : List HostOp} (hhost : s.host = .hardReset :: rest) :
    step s = .next (hardReset { s with host := rest }) := by
  rw [step_host hhost (by simp), hostStep]

/-- Settles O48: the step is `hardReset`, which rebuilds the state from `State.reset` and keeps only the fields of log 15. -/
theorem hardwareResetRestoresEveryField : Obligations.HardwareResetRestoresEveryField := by
  intro s rest hhost
  rw [step_hardReset hhost, hardReset]

end Sys2Proof.Machine
end
